-- ==== Sys2Proof/Word.lean ====
section
/-! DEFINITION. The words and the table entries of HTB: plain data, with the widths of 10_state.md R30. -/

namespace Sys2Proof

/-- A 32-bit register, weight or command word (R30, R100). -/
abbrev Word := BitVec 32

/-- A symbol field: 9 bits, of which 0..256 name a symbol (R7, R102). -/
abbrev Sym := BitVec 9

/-- A node index: 10 bits (R7 `IDX_BITS`). -/
abbrev NodeIdx := BitVec 10

/-- A node weight: 41 bits (R7 `NW_BITS`, R166). -/
abbrev Weight := BitVec 41

/-- An opcode byte, `cmd[31:24]` (R100). -/
abbrev Opcode := BitVec 8

/-- A bit string in stream order, first bit first (R10). -/
abbrev Bits := List Bool

/-- One entry of the node store (R12, R36). -/
inductive Node where
  | leaf (sym : Sym) (wt : Weight)
  | internal (left right : NodeIdx) (wt : Weight)
  deriving DecidableEq, Repr, Inhabited

/-- One entry of the code table (R38): `bits[p]` is bit p of the bit string. -/
structure CodeEntry where
  valid : Bool
  len : BitVec 9
  bits : Vector Bool 256
  deriving DecidableEq, Repr, Inhabited

/-- The node store N[0..512] (R36). -/
abbrev NodeStore := Vector Node 513

/-- The code table CT[0..256] (R38). -/
abbrev CodeTable := Vector CodeEntry 257

/-- The weight table W[0..256] (R32). -/
abbrev WeightTable := Vector Word 257

end Sys2Proof
end

