-- ==== Sys2Proof/Syntax.lean ====
section
/-! DEFINITION. The 24 commands of spec/opcode_table.json (30_encoding.md R103), one constructor each. -/

namespace Sys2Proof

/-- A command with its operand fields, each an unsigned integer of the field's width (R101, R102). -/
inductive Instr where
  | nop
  | reset
  | wclr
  | count (b : BitVec 8)
  | cfin
  | wset (sym : Sym)
  | wget (sym : Sym)
  | ldal (i : BitVec 16)
  | ldah (i : BitVec 16)
  | build
  | ser
  | des
  | flat
  | clen (sym : Sym)
  | cword (sym : Sym) (k : BitVec 3)
  | enc (sym : Sym)
  | putb (n : BitVec 5) (v : BitVec 16)
  | flush
  | dstart
  | dsym
  | getb (n : BitVec 5)
  | nget (x : NodeIdx)
  | nwlo (x : NodeIdx)
  | nwhi (x : NodeIdx)
  deriving DecidableEq, Repr

/-- The eight command formats of R101. -/
inductive Format where
  | N | B | S | SK | I | X | R | RN
  deriving DecidableEq, Repr

end Sys2Proof
end

