-- ==== Sys2Proof/WellFormed.lean ====
section
/-! DEFINITION. The range checks of 30_encoding.md R105, on commands: what the field widths alone do not exclude. -/

namespace Sys2Proof

/-- Formats S and SK: `s ≤ 256` (R105). -/
def symbolOk (s : Sym) : Bool := s.toNat ≤ 256

/-- Formats R and RN: `1 ≤ n ≤ 16` (R105). -/
def bitCountOk (n : BitVec 5) : Bool := decide (1 ≤ n.toNat) && decide (n.toNat ≤ 16)

/-- Format R: `v < 2^n` (R105). -/
def rawValueOk (n : BitVec 5) (v : BitVec 16) : Bool := v.toNat < 2 ^ n.toNat

/-- A command whose operands pass the range checks of its format (R105). -/
def Instr.wellFormed : Instr → Bool
  | .nop => true
  | .reset => true
  | .wclr => true
  | .count _ => true
  | .cfin => true
  | .wset s => symbolOk s
  | .wget s => symbolOk s
  | .ldal _ => true
  | .ldah _ => true
  | .build => true
  | .ser => true
  | .des => true
  | .flat => true
  | .clen s => symbolOk s
  | .cword s _ => symbolOk s
  | .enc s => symbolOk s
  | .putb n v => bitCountOk n && rawValueOk n v
  | .flush => true
  | .dstart => true
  | .dsym => true
  | .getb n => bitCountOk n
  | .nget _ => true
  | .nwlo _ => true
  | .nwhi _ => true

end Sys2Proof
end

