-- ==== Sys2Proof/Decode.lean ====
section
/-! DEFINITION. The decoder of 30_encoding.md R100 to R107, total on all words, and the encoder written from the
same tables. -/

namespace Sys2Proof

/-- The fixed bits of a format (R101, last column). -/
def Format.mask : Format → Word
  | .N => 0xFFFFFFFF#32
  | .B => 0xFFFFFF00#32
  | .S => 0xFFFFFE00#32
  | .SK => 0xFFFFF000#32
  | .I => 0xFFFF0000#32
  | .X => 0xFFFFFC00#32
  | .R => 0xFFE00000#32
  | .RN => 0xFFE0FFFF#32

/-- The operand fields of a word at the positions of R101. -/
structure Fields where
  b : BitVec 8
  s : Sym
  k : BitVec 3
  i : BitVec 16
  x : NodeIdx
  n : BitVec 5
  v : BitVec 16

/-- Every field of `cmd`; a format uses only its own (R101). -/
def fieldsOf (cmd : Word) : Fields where
  b := cmd.extractLsb' 0 8
  s := cmd.extractLsb' 0 9
  k := cmd.extractLsb' 9 3
  i := cmd.extractLsb' 0 16
  x := cmd.extractLsb' 0 10
  n := cmd.extractLsb' 16 5
  v := cmd.extractLsb' 0 16

/-- One row of the opcode map (R103). -/
structure Row where
  opcode : Opcode
  format : Format
  make : Fields → Instr

/-- The row's match value: the opcode in bits 31:24 and every other fixed bit 0 (R101, R103). -/
def Row.matchWord (r : Row) : Word := r.opcode ++ 0#24

/-- The opcode map (R103), row by row. -/
def opcodeTable : List Row :=
  [⟨0x00#8, .N, fun _ => .nop⟩,
   ⟨0x01#8, .N, fun _ => .reset⟩,
   ⟨0x10#8, .N, fun _ => .wclr⟩,
   ⟨0x11#8, .B, fun f => .count f.b⟩,
   ⟨0x12#8, .N, fun _ => .cfin⟩,
   ⟨0x13#8, .S, fun f => .wset f.s⟩,
   ⟨0x14#8, .S, fun f => .wget f.s⟩,
   ⟨0x18#8, .I, fun f => .ldal f.i⟩,
   ⟨0x19#8, .I, fun f => .ldah f.i⟩,
   ⟨0x20#8, .N, fun _ => .build⟩,
   ⟨0x30#8, .N, fun _ => .ser⟩,
   ⟨0x31#8, .N, fun _ => .des⟩] ++
  [⟨0x40#8, .N, fun _ => .flat⟩,
   ⟨0x41#8, .S, fun f => .clen f.s⟩,
   ⟨0x42#8, .SK, fun f => .cword f.s f.k⟩,
   ⟨0x50#8, .S, fun f => .enc f.s⟩,
   ⟨0x51#8, .R, fun f => .putb f.n f.v⟩,
   ⟨0x52#8, .N, fun _ => .flush⟩,
   ⟨0x60#8, .N, fun _ => .dstart⟩,
   ⟨0x61#8, .N, fun _ => .dsym⟩,
   ⟨0x62#8, .RN, fun f => .getb f.n⟩,
   ⟨0x70#8, .X, fun f => .nget f.x⟩,
   ⟨0x71#8, .X, fun f => .nwlo f.x⟩,
   ⟨0x72#8, .X, fun f => .nwhi f.x⟩]

/-- Why a word is ILLEGAL_CMD, in the order the checks are made (R104, R306). -/
inductive Illegal where
  | unassignedOpcode
  | reservedBit
  | operandRange
  deriving DecidableEq, Repr

/-- `rangeOK` (R105), on the fields of the word. -/
def rangeOk (f : Format) (a : Fields) : Bool :=
  match f with
  | .N => true
  | .B => true
  | .S => symbolOk a.s
  | .SK => symbolOk a.s
  | .I => true
  | .X => true
  | .R => bitCountOk a.n && rawValueOk a.n a.v
  | .RN => bitCountOk a.n

/-- The row whose opcode is `op` (R103; no two rows share an opcode). -/
def rowOf (op : Opcode) : Option Row := opcodeTable.find? fun r => r.opcode == op

/-- The decode procedure (R104). Every `error` is the spec's ILLEGAL_CMD (R106), with the check that failed. -/
def decode (cmd : Word) : Except Illegal Instr :=
  match rowOf (cmd.extractLsb' 24 8) with
  | none => .error .unassignedOpcode
  | some r =>
    if cmd &&& r.format.mask = r.matchWord then
      if rangeOk r.format (fieldsOf cmd) then .ok (r.make (fieldsOf cmd)) else .error .operandRange
    else .error .reservedBit

/-- A command's opcode byte (R103). -/
def Instr.opcode : Instr → Opcode
  | .nop => 0x00#8
  | .reset => 0x01#8
  | .wclr => 0x10#8
  | .count _ => 0x11#8
  | .cfin => 0x12#8
  | .wset _ => 0x13#8
  | .wget _ => 0x14#8
  | .ldal _ => 0x18#8
  | .ldah _ => 0x19#8
  | .build => 0x20#8
  | .ser => 0x30#8
  | .des => 0x31#8
  | .flat => 0x40#8
  | .clen _ => 0x41#8
  | .cword _ _ => 0x42#8
  | .enc _ => 0x50#8
  | .putb _ _ => 0x51#8
  | .flush => 0x52#8
  | .dstart => 0x60#8
  | .dsym => 0x61#8
  | .getb _ => 0x62#8
  | .nget _ => 0x70#8
  | .nwlo _ => 0x71#8
  | .nwhi _ => 0x72#8

/-- A command's format (R103). -/
def Instr.format : Instr → Format
  | .nop => .N
  | .reset => .N
  | .wclr => .N
  | .count _ => .B
  | .cfin => .N
  | .wset _ => .S
  | .wget _ => .S
  | .ldal _ => .I
  | .ldah _ => .I
  | .build => .N
  | .ser => .N
  | .des => .N
  | .flat => .N
  | .clen _ => .S
  | .cword _ _ => .SK
  | .enc _ => .S
  | .putb _ _ => .R
  | .flush => .N
  | .dstart => .N
  | .dsym => .N
  | .getb _ => .RN
  | .nget _ => .X
  | .nwlo _ => .X
  | .nwhi _ => .X

/-- Bits 23:0 of a command word: the operand fields at the positions of R101, every other bit 0. -/
def operandBits : Instr → BitVec 24
  | .nop => 0#24
  | .reset => 0#24
  | .wclr => 0#24
  | .count b => 0#16 ++ b
  | .cfin => 0#24
  | .wset s => 0#15 ++ s
  | .wget s => 0#15 ++ s
  | .ldal i => 0#8 ++ i
  | .ldah i => 0#8 ++ i
  | .build => 0#24
  | .ser => 0#24
  | .des => 0#24
  | .flat => 0#24
  | .clen s => 0#15 ++ s
  | .cword s k => 0#12 ++ k ++ s
  | .enc s => 0#15 ++ s
  | .putb n v => 0#3 ++ n ++ v
  | .flush => 0#24
  | .dstart => 0#24
  | .dsym => 0#24
  | .getb n => 0#3 ++ n ++ 0#16
  | .nget x => 0#14 ++ x
  | .nwlo x => 0#14 ++ x
  | .nwhi x => 0#14 ++ x

/-- The word of a command (R100, R101). -/
def encode (i : Instr) : Word := i.opcode ++ operandBits i

/-- What the decoder reads from an opcode-table row's word. -/
def decodeTableWord (nbits w : Nat) : Option Instr :=
  match decode (BitVec.ofNat 32 (w % 2 ^ nbits)) with
  | .ok i => some i
  | .error _ => none

end Sys2Proof
end

