-- ==== Sys2Proof/Config.lean ====
section
/-! DEFINITION. What is fixed for one HTB (00_scope.md R7), the open parameters of the spec, and the free values
(93_implementation_defined.md section 2). An opaque constant has no body: no proof can learn a value of it. -/

namespace Sys2Proof.Config

/-- `NSYM`: symbols 0..256 (R7). -/
def nsym : Nat := 257

/-- `EOS`: the end-of-stream symbol (R7). -/
def eos : Sym := 256#9

/-- `SYM_BITS`: width of the header's leaf field (R7). -/
def symBits : Nat := 9

/-- `EOS_WEIGHT`: the weight CFIN writes (R7, C2). -/
def eosWeight : Word := 1#32

/-- `NODE_CAP`: entries of the node store (R7). -/
def nodeCap : Nat := 513

/-- `MAX_CODE_LEN` (R7, R204). -/
def maxCodeLen : Nat := 256

/-- `STACK_CAP`: traversal stack entries (R7, R47). -/
def stackCap : Nat := 257

/-- `PAD_GRANULE` (R7, R226). -/
def padGranule : Nat := 8

/-- `MAGIC_HI`: marker bits 31..8 (R7). -/
def magicHi : BitVec 24 := 0xFACE82#24

/-- The constant of the ID register, "HTB1" (R46). -/
def idValue : Word := 0x48544231#32

/-- `MAGIC_LOW`, the marker's low byte: an OPEN parameter HTB never reads (R7, R8, U10; log 18). -/
opaque magicLow : BitVec 8

/-- The 64-byte block of the platform's address space that holds the register window: an OPEN parameter (R78, U9; log 18). -/
opaque htbBaseBlock : Nat

/-- `HTB_BASE`, 64-byte aligned (R78). -/
def htbBase : Nat := 64 * htbBaseBlock

/-- Free value: the node store where the spec leaves N unspecified (U1, U3), by draw number (log 3, log 4). -/
opaque freeNodes : Nat → NodeStore

/-- Free value: the code table where the spec leaves CT unspecified (U1, U3), by draw number (log 3, log 5). -/
opaque freeTable : Nat → CodeTable

/-- Free value: CURSOR where the spec leaves it unspecified (U1, U3), by draw number (log 3, log 6). -/
opaque freeCursor : Nat → NodeIdx

/-- Free value: the bits of one code-table entry beyond its length (U2), by draw number and symbol (log 7). -/
opaque freeTail : Nat → Sym → Vector Bool 256

/-- Free value: what a register read returns while BUSY = 1 (U4), by draw number (log 8). -/
opaque freeRead : Nat → Word

end Sys2Proof.Config
end

