-- ==== Sys2Proof/Machine/State.lean ====
section
/-! DEFINITION. The state of HTB (10_state.md R30), of its two bit ports (20_memory.md R80, R82), and of the host's side of
the interface (20_memory.md R85), all plain data. -/

namespace Sys2Proof.Machine

/-- The error codes HTB raises (60_exceptions.md R300). Their numbers are `ErrCode.code`. -/
inductive ErrCode where
  | illegalCmd | truncHeader | truncPayload | truncRaw | hdrBadSymbol | nodeOverflow | noTree | noTable
  | noCode | eosMissing | dupSymbol | countOverflow | decState | degenerateTree | badIndex | ioError
  deriving DecidableEq, Repr

/-- An internal node whose header has been begun and not finished (R183): `left i` still waits for its left subtree,
`right i l` has its left child l and waits for its right subtree. -/
inductive Frame where
  | left (idx : Nat)
  | right (idx : Nat) (leftChild : NodeIdx)
  deriving DecidableEq, Repr

/-- The partial parse of a header (R47 (c), R183): the traversal stack, which holds the pending ancestors, innermost first, and
never more than STACK_CAP of them (R47 (a), R180); the node and leaf counts; inside a leaf's 9-bit field, how many of its bits
are missing and the value of those taken; and whether the header has been deeper than the stack, so that it describes more than
NODE_CAP nodes and no stack is needed any more (R204; log 14). -/
structure Parse where
  frames : List Frame
  n : Nat
  leaves : Nat
  field : Option (Nat × Nat)
  tooDeep : Bool
  deriving DecidableEq, Repr

/-- The partial state of a held command (R47 (c), R84; log 23). `rest` is what is still to give, MSB-first or root branch
first as the command gives it. -/
inductive Job where
  /-- SER: bits of the node being given, then the traversal stack (top first); `count` counts the header bits so far. -/
  | ser (rest : Bits) (stack : List NodeIdx) (count : Nat)
  /-- DES: the partial parse, and INCNT at its start. -/
  | des (parse : Parse) (start : Word)
  | enc (rest : Bits) (len : BitVec 9)
  | putb (rest : Bits)
  /-- FLUSH: pad bits still to give, then the port flush. -/
  | flush (rest : Bits) (pad : Nat)
  /-- DSYM: its position is CURSOR. -/
  | dsym
  /-- GETB: how many bits are missing, and the value of those taken. -/
  | getb (missing : Nat) (value : Nat)
  deriving DecidableEq, Repr

/-- The input bit port (R80): the bits it holds, whether it has signalled End, whether an I/O error is pending. -/
structure InPort where
  bits : Bits
  ended : Bool
  ioErr : Bool
  deriving DecidableEq, Repr

/-- The output bit port (R82, R83): every bit accepted, how many more it takes before it is Full (`none`: no limit), the
stream length at the last flush, whether an I/O error is pending. -/
structure OutPort where
  stream : Bits
  room : Option Nat
  flushed : Nat
  ioErr : Bool
  deriving DecidableEq, Repr

/-- Where the host aims a register access: an offset in HTB's window, or an address of the platform (R78). -/
inductive BusAddr where
  | offset (o : Nat)
  | platform (a : Nat)
  deriving DecidableEq, Repr

/-- What the outside world may do to HTB and its ports (R85), and the two port events of log 22. -/
inductive HostMove where
  /-- Write a register: `width` bits at an address (R86, R87). -/
  | write (addr : BusAddr) (width : Nat) (data : Word)
  /-- Read a register (R77, R87, R88). -/
  | read (addr : BusAddr) (width : Nat)
  | supply (bits : Bits)
  | signalEnd
  /-- Make room for `n` more output bits. -/
  | drain (n : Nat)
  | inputError
  | outputError
  /-- Assert the hardware reset (R340). -/
  | hardReset
  /-- The output port becomes Full (R82). -/
  | stallOutput
  /-- The host re-initialises the input port (R80, R342): it is empty, not ended, with no I/O error pending (log 22). -/
  | reopenInput
  deriving DecidableEq, Repr

/-- The state. The first group is R30's table, in its order. -/
structure State where
  w : WeightTable
  arg : Word
  result : Word
  nodes : NodeStore
  nodecnt : BitVec 10
  root : NodeIdx
  leafcnt : BitVec 9
  treeValid : Bool
  ct : CodeTable
  tableValid : Bool
  decActive : Bool
  decDone : Bool
  cursor : NodeIdx
  err : Bool
  errcode : BitVec 8
  errop : Opcode
  outcnt : Word
  incnt : Word
  busy : Bool
  heldIn : Bool
  heldOut : Bool
  /-- The hidden state of R47, held over a port hold. -/
  job : Option Job
  /-- The input port; it belongs to the port, not to HTB (R30, R342). -/
  inp : InPort
  /-- The output port; likewise. -/
  out : OutPort
  /-- The host's script: the moves still to be made (log 1). -/
  moves : List HostMove
  /-- CMD writes stalled while BUSY = 1, oldest first (R86). -/
  stalled : List Word
  /-- What the last register read gave the host (log 21). -/
  rdata : Word
  /-- How many free values have been drawn (log 3). -/
  draws : Nat
  deriving DecidableEq, Repr

/-- Why the machine has no further step. Each is safe: the model stops where HTB, by the spec, has no step or cannot be. -/
inductive Fault where
  /-- Raised by `advance`: a command is held and the host makes no further move (R352, U7; log 15). Safe. -/
  | heldForever
  /-- Raised by `advance`: HTB is idle and the host makes no further move (R31; log 15). Safe. -/
  | idle
  /-- Raised by SER, FLAT, DSTART, DSYM, NGET, NWLO, NWHI: a node index lies outside the store, a walk
  takes a bit at a node that is not internal, or a traversal meets more nodes than the store has. The tree invariant R37 excludes
  all three (log 17). Safe. -/
  | brokenTree
  deriving DecidableEq, Repr

/-- Why the model gives a step no meaning. -/
inductive Refusal where
  /-- Raised by exec's arm of a command without a meaning. Safe. No arm does. -/
  | notModelled (mnemonic : String)
  /-- Raised by a host access that is not 32 bits wide at a multiple of 4 (R87: "A model refuses it"; log 16). Safe. -/
  | badAccess
  /-- Raised by a host access outside HTB's window (R78; log 16). Safe. -/
  | outsideWindow
  deriving DecidableEq, Repr

/-- The outcome of a step of this machine. -/
abbrev Result := Host.Outcome State Fault Refusal

/-- The state after the hardware reset (R343), with the values of log 2 where the spec gives none, the ports of log 9, and an
empty script. -/
def State.reset : State where
  w := Vector.replicate 257 0#32
  arg := 0#32
  result := 0#32
  nodes := Vector.replicate 513 (.leaf 0#9 0#41)
  nodecnt := 0#10
  root := 0#10
  leafcnt := 0#9
  treeValid := false
  ct := Vector.replicate 257 ⟨false, 0#9, Vector.replicate 256 false⟩
  tableValid := false
  decActive := false
  decDone := false
  cursor := 0#10
  err := false
  errcode := 0#8
  errop := 0#8
  outcnt := 0#32
  incnt := 0#32
  busy := false
  heldIn := false
  heldOut := false
  job := none
  inp := ⟨[], false, false⟩
  out := ⟨[], none, 0, false⟩
  moves := []
  stalled := []
  rdata := 0#32
  draws := 0

end Sys2Proof.Machine
end

