-- ==== Sys2Proof/Machine/Flags.lean ====
section
/-! DEFINITION. The numbers of the error codes (60_exceptions.md R300), the STATUS word (10_state.md R44) and the host's
register map (10_state.md R45). -/

namespace Sys2Proof.Machine

/-- ERRCODE values (R300). -/
def ErrCode.code : ErrCode → BitVec 8
  | .illegalCmd => 0x01#8
  | .truncHeader => 0x02#8
  | .truncPayload => 0x03#8
  | .truncRaw => 0x04#8
  | .hdrBadSymbol => 0x05#8
  | .nodeOverflow => 0x06#8
  | .noTree => 0x07#8
  | .noTable => 0x08#8
  | .noCode => 0x09#8
  | .eosMissing => 0x0A#8
  | .dupSymbol => 0x0B#8
  | .countOverflow => 0x0C#8
  | .decState => 0x0D#8
  | .degenerateTree => 0x0E#8
  | .badIndex => 0x0F#8
  | .ioError => 0x10#8

/-- STATUS bits 7:0: the eight flags, bit 7 first (R44). -/
def statusFlags (s : State) : BitVec 8 :=
  BitVec.ofBool s.heldOut ++ BitVec.ofBool s.heldIn ++ BitVec.ofBool s.busy ++ BitVec.ofBool s.decDone ++
    BitVec.ofBool s.decActive ++ BitVec.ofBool s.tableValid ++ BitVec.ofBool s.treeValid ++ BitVec.ofBool s.err

/-- The STATUS register (R44): reserved 31:24, ERROP, ERRCODE, flags. -/
def statusWord (s : State) : Word := 0#8 ++ s.errop ++ s.errcode ++ statusFlags s

/-- What the register at window offset `o` holds (R45): reads of CMD and of the reserved offsets give 0 (R77, U14). -/
def registerValue (s : State) (o : Nat) : Word :=
  match o with
  | 0x04 => statusWord s
  | 0x08 => s.result
  | 0x0C => s.arg
  | 0x10 => s.nodecnt.setWidth 32
  | 0x14 => s.root.setWidth 32
  | 0x18 => s.leafcnt.setWidth 32
  | 0x1C => s.outcnt
  | 0x20 => s.incnt
  | 0x24 => Config.idValue
  | _ => 0#32

/-- The registers whose value is unspecified while BUSY = 1: RESULT, ARG, NODECNT, ROOT, LEAFCNT, OUTCNT, INCNT
(R88, U4; log 8). -/
def vagueWhileBusy (o : Nat) : Bool :=
  o == 0x08 || o == 0x0C || o == 0x10 || o == 0x14 || o == 0x18 || o == 0x1C || o == 0x20

end Sys2Proof.Machine
end

