-- ==== Sys2Proof/Machine/Ops.lean ====
section
/-! DEFINITION. The operations every command is written with: ending a command, raising an error (60_exceptions.md R304) and
leaving the error state (R309), the common first steps (R305, R306), the bit ports and their holds (20_memory.md R80 to R84). -/

namespace Sys2Proof.Machine

/-- The command ends: BUSY and the hold flags are 0 and no partial state is kept (R43, R47, R86). -/
def complete (s : State) : State :=
  { s with busy := false, heldIn := false, heldOut := false, job := none }

/-- The state after `raise E(code)` in the command with opcode `op` (R304): the effects so far stay, ERR, ERRCODE and ERROP are
written, the command ends. Control goes nowhere and nothing is saved. -/
def errorState (op : Opcode) (e : ErrCode) (s : State) : State :=
  { complete s with err := true, errcode := e.code, errop := op }

/-- `raise E(code)` (R304). -/
def raiseError (op : Opcode) (e : ErrCode) (s : State) : Result := .next (errorState op e s)

/-- Reset, the only way out of the error state (R309): every element of R30 takes its reset value (R340, R341); N, CT and
CURSOR, which have none, take free values (U1; log 3). The ports and the host's side are untouched (R342). -/
def resetBlock (s : State) : State :=
  { State.reset with
    nodes := Config.freeNodes s.draws
    ct := Config.freeTable s.draws
    cursor := Config.freeCursor s.draws
    inp := s.inp
    out := s.out
    moves := s.moves
    stalled := s.stalled
    rdata := s.rdata
    draws := s.draws + 1 }

/-- Steps 0 and 1 of every command rule (R305, R306, R106): ignored while ERR = 1, then ILLEGAL_CMD if an operand is out of
range, then the rule's own body. -/
def command (i : Instr) (body : State → Result) (s : State) : Result :=
  if s.err then .next (complete s)
  else if i.wellFormed then body s
  else raiseError i.opcode .illegalCmd s

/-- `require c else code` (R11), in the command with opcode `op`. -/
def require (c : Bool) (op : Opcode) (e : ErrCode) (body : State → Result) (s : State) : Result :=
  if c then body s else raiseError op e s

/-- The command completes having written RESULT last. -/
def completeWith (v : Word) (s : State) : Result := .next (complete { s with result := v })

/-! ## The input port -/

/-- How a reader of bits ends: with a result and the bits it left, or out of bits in some partial state. -/
inductive Feed (σ ρ : Type) where
  | done (r : ρ) (rest : Bits)
  | dry (st : σ)

/-- Feed bits, first first, to a reader whose one-bit step is `f`; it reads nothing after its result. -/
def feed {σ ρ : Type} (f : σ → Bool → σ ⊕ ρ) : σ → Bits → Feed σ ρ
  | st, [] => .dry st
  | st, b :: bs =>
    match f st b with
    | .inl st' => feed f st' bs
    | .inr r => .done r bs

/-- How a reader ends on the port: with a result; out of bits on an Empty port; at End; at an I/O error (R80, R81). -/
inductive Taken (σ ρ : Type) where
  | done (r : ρ) (s : State)
  | empty (st : σ) (s : State)
  | ended (st : σ) (s : State)
  | failed (st : σ) (s : State)

/-- The bits the input port hands over before any other outcome: none while an I/O error is pending (R85; log 10). -/
def available (s : State) : Bits := if s.inp.ioErr then [] else s.inp.bits

/-- `k` bits are taken and `rest` is left: taken bits are gone from the port and counted in INCNT (R42, R80). -/
def taken (k : Nat) (rest : Bits) (s : State) : State :=
  { s with inp := { s.inp with bits := rest }, incnt := s.incnt + BitVec.ofNat 32 k }

/-- Take bits from the port for the reader `f`, as `InBit()` one by one (R80, R81, R84). DESIGN CHOICE (log 10): a pending I/O
error is met before End, as before any bit, and once reported it is no longer pending. -/
def takeBits {σ ρ : Type} (f : σ → Bool → σ ⊕ ρ) (st : σ) (s : State) : Taken σ ρ :=
  match feed f st (available s) with
  | .done r rest => .done r (taken ((available s).length - rest.length) rest s)
  | .dry st' =>
    if s.inp.ioErr then .failed st' { s with inp := { s.inp with ioErr := false } }
    else if s.inp.ended then .ended st' (taken s.inp.bits.length [] s)
    else .empty st' (taken s.inp.bits.length [] s)

/-- The port is Empty: no bit, no End, no error (R80). -/
def inputEmpty (s : State) : Bool := s.inp.bits.isEmpty && !s.inp.ended && !s.inp.ioErr

/-- The command is held on the Empty input port (R84). -/
def holdIn (j : Job) (s : State) : Result :=
  .next { s with busy := true, heldIn := true, heldOut := false, job := some j }

/-! ## The output port -/

/-- How giving bits ends (R82): all accepted; the port is Full before `rest`; an I/O error. -/
inductive Given where
  | all (s : State)
  | full (rest : Bits) (s : State)
  | failed (s : State)

/-- How many of `n` bits the port accepts before any other outcome (R82, R85). -/
def accepts (o : OutPort) (n : Nat) : Nat :=
  if o.ioErr then 0
  else match o.room with
    | none => n
    | some r => min r n

/-- The port accepts the bits `bs`: appended to the stream, counted in OUTCNT (R42, R82). -/
def accepted (bs : Bits) (s : State) : State :=
  { s with
    out := { s.out with stream := s.out.stream ++ bs, room := s.out.room.map fun r => r - bs.length }
    outcnt := s.outcnt + BitVec.ofNat 32 bs.length }

/-- A reported output I/O error is no longer pending (log 10). -/
def outputErrorTaken (s : State) : State := { s with out := { s.out with ioErr := false } }

/-- Give bits to the output port, first first, as `OutBit` one by one (R82, R84). -/
def giveBits (bits : Bits) (s : State) : Given :=
  let k := accepts s.out bits.length
  let s' := accepted (bits.take k) s
  match bits.drop k with
  | [] => .all s'
  | b :: rest => if s.out.ioErr then .failed (outputErrorTaken s') else .full (b :: rest) s'

/-- The port is Full and no error is pending (R82). -/
def outputFull (s : State) : Bool := s.out.room == some 0 && !s.out.ioErr

/-- The command is held on the Full output port (R84). -/
def holdOut (j : Job) (s : State) : Result :=
  .next { s with busy := true, heldIn := false, heldOut := true, job := some j }

/-- Give `bits` and go on with `next`; held, the command keeps `held rest` (R82, R84). -/
def emit (op : Opcode) (bits : Bits) (held : Bits → Job) (next : State → Result) (s : State) : Result :=
  match giveBits bits s with
  | .all s' => next s'
  | .full rest s' => holdOut (held rest) s'
  | .failed s' => raiseError op .ioError s'

/-- `OutFlush()` (R83): every accepted bit is delivered and none is added; it holds or fails as OutBit does (log 12). -/
def flushPort (op : Opcode) (held : Job) (next : State → Result) (s : State) : Result :=
  if s.out.ioErr then raiseError op .ioError (outputErrorTaken s)
  else if s.out.room == some 0 then holdOut held s
  else next { s with out := { s.out with flushed := s.out.stream.length } }

end Sys2Proof.Machine
end

