-- ==== Sys2Proof/Machine/Operands.lean ====
section
/-! DEFINITION. Reading and writing the entries commands name by their operands (20_memory.md R71), bit fields
(00_scope.md R10, 20_memory.md R73), and the packings of CWORD and NGET. -/

namespace Sys2Proof.Machine

/-- The MSB-first n-bit field of v (R10). -/
def msbBits (n v : Nat) : Bits := (List.range n).map fun j => v.testBit (n - 1 - j)

/-- One more bit of a field taken MSB-first (R11 `InBits`). -/
def pushBit (v : Nat) (b : Bool) : Nat := 2 * v + b.toNat

/-- The value of a bit string read MSB-first (R10, R11). -/
def bitsValue (bs : Bits) : Nat := bs.foldl pushBit 0

/-- `W[s]` (R32). -/
def weight (w : WeightTable) (s : Nat) : Word := w[s]?.getD 0#32

/-- `W[s] <- v` (R32). -/
def setWeight (s : Nat) (v : Word) (st : State) : State := { st with w := st.w.setIfInBounds s v }

/-- `N[i]`, or `none` outside the store (R36, R71). -/
def nodeAt (n : NodeStore) (i : NodeIdx) : Option Node := n[i.toNat]?

/-- Go on with `N[i]`; an index outside the store is excluded by R37 (log 17). -/
def withNode (i : NodeIdx) (body : Node → State → Result) (s : State) : Result :=
  match nodeAt s.nodes i with
  | some nd => body nd s
  | none => .fault .brokenTree

/-- The preconditions of NGET, NWLO and NWHI, in order (R262): a tree, then an index in use. -/
def inspectNode (op : Opcode) (x : NodeIdx) (body : Node → State → Result) : State → Result :=
  fun s => require s.treeValid op .noTree
    (fun s => require (decide (x.toNat < s.nodecnt.toNat)) op .badIndex (withNode x body) s) s

/-- `wt` of a node (R12). -/
def nodeWeight : Node → Weight
  | .leaf _ wt => wt
  | .internal _ _ wt => wt

/-- The packing of a node in RESULT (R265). -/
def packNode : Node → Word
  | .leaf sym _ => 0x400000#23 ++ sym
  | .internal l r _ => 0#2 ++ l ++ r ++ 0#10

/-- `CT[s]` (R38); an absent entry is invalid. -/
def codeEntry (ct : CodeTable) (s : Sym) : CodeEntry := ct[s.toNat]?.getD ⟨false, 0#9, Vector.replicate 256 false⟩

/-- The code of an entry: `bits[0 .. len-1]` (R38, R123). -/
def entryCode (e : CodeEntry) : Bits := e.bits.toList.take e.len.toNat

/-- The preconditions of CLEN, CWORD and ENC, in order (R205, R221): a table, then a code for the symbol. -/
def requireCode (op : Opcode) (sym : Sym) (body : CodeEntry → State → Result) : State → Result :=
  fun s => require s.tableValid op .noTable
    (fun s => require (codeEntry s.ct sym).valid op .noCode (body (codeEntry s.ct sym)) s) s

/-- Code bit p, or 0 at and beyond the length (R206, R207). -/
def codeBit (e : CodeEntry) (p : Nat) : Bool := decide (p < e.len.toNat) && e.bits[p]?.getD false

/-- Word k of a code, code bit `32k + j` at bit `31 - j` (R206, R207). -/
def codeWord (e : CodeEntry) (k : Nat) : Word :=
  BitVec.ofNat 32 (bitsValue ((List.range 32).map fun j => codeBit e (32 * k + j)))

/-- The 256-bit field that holds the path p: p, then a tail that is free (U2; log 7). -/
def codeField (p : Bits) (tail : Vector Bool 256) : Vector Bool 256 :=
  ⟨⟨(p ++ tail.toList).take 256⟩, by simp⟩

/-- The shared branch convention (R15, R350): bit 0 for left, 1 for right. -/
def branchBit (right : Bool) : Bool := right

/-- The child that a bit of a code selects: the inverse of `branchBit` (R15, R243). -/
def branchTo (b : Bool) (left right : NodeIdx) : NodeIdx := if b = branchBit true then right else left

end Sys2Proof.Machine
end

