-- ==== Sys2Proof/Machine/Build.lean ====
section
/-! DEFINITION. The tree builder (41_build.md). -/

namespace Sys2Proof.Machine

/-- An element of the build queue: a node's weight and its index (R163). -/
abbrev QueueEntry := Weight × Nat

/-- The symbols with a non-zero weight, ascending (R161). -/
def presentSymbols (w : WeightTable) : List Nat := (List.range Config.nsym).filter fun s => weight w s != 0#32

/-- The leaves, in ascending symbol order (R161). -/
def leafNodes (w : WeightTable) : List Node :=
  (presentSymbols w).map fun s => .leaf (BitVec.ofNat 9 s) ((weight w s).setWidth 41)

/-- The key order of the queue: (weight, index), lexicographic (R163). -/
def lighter (a b : QueueEntry) : Bool := decide (a.1 < b.1) || (a.1 == b.1 && decide (a.2 < b.2))

/-- The element of least key, and the others (R162 `min(Q)`, `Q \ {a}`). -/
def extractMin : List QueueEntry → Option (QueueEntry × List QueueEntry)
  | [] => none
  | x :: xs =>
    match extractMin xs with
    | none => some (x, [])
    | some (m, rest) => if lighter x m then some (x, m :: rest) else some (m, x :: rest)

/-- The merge loop (R162, R164) over the nodes made so far and the queue: the first extracted is the left child, the second the
right, the new node takes the next index. `fuel` bounds the merges; the queue loses one element in each. -/
def mergeLoop : Nat → List Node → List QueueEntry → List Node
  | 0, nodes, _ => nodes
  | fuel + 1, nodes, queue =>
    match extractMin queue with
    | none => nodes
    | some (a, q1) =>
      match extractMin q1 with
      | none => nodes
      | some (b, q2) =>
        mergeLoop fuel (nodes ++ [.internal (BitVec.ofNat 10 a.2) (BitVec.ofNat 10 b.2) (a.1 + b.1)])
          ((a.1 + b.1, nodes.length) :: q2)

/-- The queue at the start of the merges: the leaves (R162). -/
def leafQueue (leaves : List Node) : List QueueEntry := leaves.zipIdx.map fun p => (nodeWeight p.1, p.2)

/-- All nodes BUILD makes from a weight table, in index order (R161 to R164). It is a function of W alone (R168). -/
def builtNodes (w : WeightTable) : List Node :=
  mergeLoop (leafNodes w).length (leafNodes w) (leafQueue (leafNodes w))

/-- Write a list of nodes at indices 0, 1, …; the entries above keep their values (R162). -/
def storeNodes (made : List Node) (n : NodeStore) : NodeStore :=
  ⟨⟨(made ++ n.toList.drop made.length).take 513⟩, by simp; omega⟩

/-- BUILD (R162). -/
def execBuild : State → Result :=
  command .build fun s =>
    require (weight s.w Config.eos.toNat != 0#32) Instr.build.opcode .eosMissing
      (fun s =>
        let made := builtNodes s.w
        completeWith (BitVec.ofNat 32 (made.length - 1))
          { s with
            nodes := storeNodes made s.nodes
            nodecnt := BitVec.ofNat 10 made.length
            root := BitVec.ofNat 10 (made.length - 1)
            leafcnt := BitVec.ofNat 9 (leafNodes s.w).length
            treeValid := true
            tableValid := false
            decActive := false
            decDone := false }) s

end Sys2Proof.Machine
end

