-- ==== Sys2Proof/Machine/CodeTable.lean ====
section
/-! DEFINITION. The code-table flattener (43_codetable.md). -/

namespace Sys2Proof.Machine

/-- How FLAT's traversal ends: the table, a symbol met twice (R202), or a broken tree (log 17). -/
inductive FlatEnd where
  | table (ct : CodeTable)
  | duplicate
  | broken

/-- Every entry's valid bit cleared, the rest of the entry kept (R201). -/
def clearValid (ct : CodeTable) : CodeTable :=
  ⟨⟨ct.toList.map fun e => { e with valid := false }⟩, by simp⟩

/-- FLAT's traversal (R201): a stack of nodes with the path to each, left before right. `draw` numbers the free tails (log 7).
`fuel` bounds the nodes visited (R37; log 17). -/
def flatVisit (nodes : NodeStore) (draw : Nat) : Nat → List (NodeIdx × Bits) → CodeTable → FlatEnd
  | _, [], ct => .table ct
  | 0, _ :: _, _ => .broken
  | fuel + 1, (i, p) :: stack, ct =>
    match nodeAt nodes i with
    | none => .broken
    | some (.leaf sym _) =>
      if (codeEntry ct sym).valid then .duplicate
      else flatVisit nodes draw fuel stack
        (ct.setIfInBounds sym.toNat ⟨true, BitVec.ofNat 9 p.length, codeField p (Config.freeTail draw sym)⟩)
    | some (.internal l r _) =>
      flatVisit nodes draw fuel ((l, p ++ [branchBit false]) :: (r, p ++ [branchBit true]) :: stack) ct

/-- FLAT (R201). After DUP_SYMBOL the table is invalid and CT is unspecified (R202, U3; log 5). -/
def execFlat : State → Result :=
  command .flat fun s =>
    require s.treeValid Instr.flat.opcode .noTree
      (fun s =>
        match flatVisit s.nodes s.draws Config.nodeCap [(s.root, [])] (clearValid s.ct) with
        | .table ct =>
          completeWith (s.leafcnt.setWidth 32) { s with ct := ct, tableValid := true, draws := s.draws + 1 }
        | .duplicate =>
          raiseError Instr.flat.opcode .dupSymbol
            { s with ct := Config.freeTable s.draws, tableValid := false, draws := s.draws + 1 }
        | .broken => .fault .brokenTree) s

/-- CLEN s (R205): RESULT becomes the code's length. -/
def execClen (sym : Sym) : State → Result :=
  command (.clen sym) (requireCode (Instr.clen sym).opcode sym fun e s => completeWith (e.len.setWidth 32) s)

/-- CWORD s, k (R206): RESULT becomes 32 bits of the code. -/
def execCword (sym : Sym) (k : BitVec 3) : State → Result :=
  command (.cword sym k)
    (requireCode (Instr.cword sym k).opcode sym fun e s => completeWith (codeWord e k.toNat) s)

end Sys2Proof.Machine
end

