-- ==== Sys2Proof/Machine/Control.lean ====
section
/-! DEFINITION. The control and inspection commands (46_control.md). -/

namespace Sys2Proof.Machine

/-- NOP (R260). -/
def execNop : State → Result := command .nop fun s => .next (complete s)

/-- RESET (R261, R341): executed whatever ERR is (R305). -/
def execReset (s : State) : Result := .next (resetBlock s)

/-- NGET x (R262): RESULT becomes the packed node. -/
def execNget (x : NodeIdx) : State → Result :=
  command (.nget x) (inspectNode (Instr.nget x).opcode x fun nd s => completeWith (packNode nd) s)

/-- NWLO x (R263): RESULT becomes the weight's bits 31:0. -/
def execNwlo (x : NodeIdx) : State → Result :=
  command (.nwlo x)
    (inspectNode (Instr.nwlo x).opcode x fun nd s => completeWith ((nodeWeight nd).extractLsb' 0 32) s)

/-- NWHI x (R264): RESULT becomes the weight's bits 40:32. -/
def execNwhi (x : NodeIdx) : State → Result :=
  command (.nwhi x)
    (inspectNode (Instr.nwhi x).opcode x fun nd s =>
      completeWith (((nodeWeight nd).extractLsb' 32 9).setWidth 32) s)

end Sys2Proof.Machine
end

