-- ==== Sys2Proof/Machine/Decoder.lean ====
section
/-! DEFINITION. The streaming bit decoder (45_decoder.md). -/

namespace Sys2Proof.Machine

/-- DSTART (R241). -/
def execDstart : State → Result :=
  command .dstart fun s =>
    require s.treeValid Instr.dstart.opcode .noTree
      (fun s =>
        withNode s.root
          (fun nd s =>
            require (match nd with | .leaf sym _ => sym == Config.eos | .internal _ _ _ => true)
              Instr.dstart.opcode .degenerateTree
              (fun s => .next (complete { s with cursor := s.root, decActive := true, decDone := false })) s) s) s

/-- One bit of the walk (R243) from an Internal node: step to the child, and stop there if it is a Leaf, with its symbol. A
child outside the store is excluded by R37 (log 17). -/
def walkBit (nodes : NodeStore) (c : NodeIdx) (b : Bool) : NodeIdx ⊕ Option Sym :=
  match nodeAt nodes c with
  | some (.internal l r _) =>
    match nodeAt nodes (branchTo b l r) with
    | some (.leaf sym _) => .inr (some sym)
    | some (.internal _ _ _) => .inl (branchTo b l r)
    | none => .inr none
  | _ => .inr none

/-- DSYM has reached a Leaf with symbol `sym` (R242). -/
def dsymFinish (sym : Sym) (s : State) : Result :=
  completeWith (sym.setWidth 32)
    { s with
      cursor := s.root
      decActive := if sym = Config.eos then false else s.decActive
      decDone := if sym = Config.eos then true else s.decDone }

/-- DSYM fails in the walk (R243): CURSOR is unspecified (U3; log 6). -/
def dsymFail (e : ErrCode) (s : State) : Result :=
  raiseError Instr.dsym.opcode e { s with cursor := Config.freeCursor s.draws, draws := s.draws + 1 }

/-- The walk from CURSOR (R243): a Leaf is tested for before a bit is taken (C5). -/
def dsymWalk (s : State) : Result :=
  withNode s.cursor
    (fun nd s =>
      match nd with
      | .leaf sym _ => dsymFinish sym s
      | .internal _ _ _ =>
        match takeBits (walkBit s.nodes) s.cursor s with
        | .done (some sym) s' => dsymFinish sym s'
        | .done none _ => .fault .brokenTree
        | .empty c s' => holdIn .dsym { s' with cursor := c }
        | .ended _ s' => dsymFail .truncPayload s'
        | .failed _ s' => dsymFail .ioError s') s

/-- DSYM (R242). -/
def execDsym : State → Result :=
  command .dsym fun s => require s.decActive Instr.dsym.opcode .decState dsymWalk s

/-- One bit of GETB's field (R245, R81): `missing` bits are wanted and `value` holds those taken. -/
def rawBit (st : Nat × Nat) (b : Bool) : (Nat × Nat) ⊕ Nat :=
  if st.1 ≤ 1 then .inr (pushBit st.2 b) else .inl (st.1 - 1, pushBit st.2 b)

/-- GETB takes the bits it still wants (R245). -/
def getbTake (op : Opcode) (missing value : Nat) (s : State) : Result :=
  match takeBits rawBit (missing, value) s with
  | .done v s' => completeWith (BitVec.ofNat 32 v) s'
  | .empty st s' => holdIn (.getb st.1 st.2) s'
  | .ended _ s' => raiseError op .truncRaw s'
  | .failed _ s' => raiseError op .ioError s'

/-- GETB n (R245). -/
def execGetb (n : BitVec 5) : State → Result :=
  command (.getb n) (getbTake (Instr.getb n).opcode n.toNat 0)

end Sys2Proof.Machine
end

