-- ==== Sys2Proof/Machine/Encoder.lean ====
section
/-! DEFINITION. The streaming bit encoder (44_encoder.md). -/

namespace Sys2Proof.Machine

/-- ENC gives the rest of a code (R221). -/
def encGive (op : Opcode) (rest : Bits) (len : BitVec 9) : State → Result :=
  emit op rest (fun rest => .enc rest len) (completeWith (len.setWidth 32))

/-- ENC s (R221). -/
def execEnc (sym : Sym) : State → Result :=
  command (.enc sym)
    (requireCode (Instr.enc sym).opcode sym fun e => encGive (Instr.enc sym).opcode (entryCode e) e.len)

/-- PUTB gives the rest of its bits (R223); RESULT is unchanged. -/
def putbGive (op : Opcode) (rest : Bits) : State → Result :=
  emit op rest .putb fun s => .next (complete s)

/-- PUTB n, v (R223). -/
def execPutb (n : BitVec 5) (v : BitVec 16) : State → Result :=
  command (.putb n v) (putbGive (Instr.putb n v).opcode (msbBits n.toNat v.toNat))

/-- How many pad bits bring OUTCNT to a multiple of the granule (R226). -/
def padCount (outcnt : Word) : Nat :=
  (Config.padGranule - outcnt.toNat % Config.padGranule) % Config.padGranule

/-- FLUSH gives the rest of its pad bits, then flushes the port (R226). -/
def flushGive (rest : Bits) (pad : Nat) : State → Result :=
  emit Instr.flush.opcode rest (fun rest => .flush rest pad)
    (flushPort Instr.flush.opcode (.flush [] pad) (completeWith (BitVec.ofNat 32 pad)))

/-- FLUSH (R226). -/
def execFlush : State → Result :=
  command .flush fun s => flushGive (List.replicate (padCount s.outcnt) false) (padCount s.outcnt) s

end Sys2Proof.Machine
end

