-- ==== Sys2Proof/Machine/TreeCodec.lean ====
section
/-! DEFINITION. The tree serializer and deserializer (42_treecodec.md). -/

namespace Sys2Proof.Machine

/-- SER's traversal (R181): pop a node, give its header bits, visit left before right. `fuel` bounds the nodes visited; a tree
has at most NODE_CAP of them (R37; log 17). -/
def serVisit : Nat → List NodeIdx → Nat → State → Result
  | _, [], count, s => completeWith (BitVec.ofNat 32 count) s
  | 0, _ :: _, _, _ => .fault .brokenTree
  | fuel + 1, i :: stack, count, s =>
    match nodeAt s.nodes i with
    | none => .fault .brokenTree
    | some (.leaf sym _) =>
      emit Instr.ser.opcode (true :: msbBits Config.symBits sym.toNat) (fun rest => .ser rest stack (count + 10))
        (serVisit fuel stack (count + 10)) s
    | some (.internal l r _) =>
      emit Instr.ser.opcode [false] (fun rest => .ser rest (l :: r :: stack) (count + 1))
        (serVisit fuel (l :: r :: stack) (count + 1)) s

/-- SER (R181). -/
def execSer : State → Result :=
  command .ser fun s =>
    require s.treeValid Instr.ser.opcode .noTree (fun s => serVisit Config.nodeCap [s.root] 0 s) s

/-- A held SER goes on (R84). -/
def resumeSer (rest : Bits) (stack : List NodeIdx) (count : Nat) : State → Result :=
  emit Instr.ser.opcode rest (fun rest => .ser rest stack count) (serVisit Config.nodeCap stack count)

/-- How a parse ends (R183, R184). -/
inductive ParseEnd where
  | tree (root : Nat) (n leaves : Nat) (nodes : NodeStore)
  | nodeOverflow
  | badSymbol

/-- The subtree at `idx` is complete: hand it to the innermost pending node, writing each Internal whose right subtree this
completes (R183). Either some node still waits, or the whole tree is complete. -/
def closeSubtree : Nat → List Frame → NodeStore → (List Frame × NodeStore) ⊕ (Nat × NodeStore)
  | idx, [], nodes => .inr (idx, nodes)
  | idx, .left i :: frames, nodes => .inl (.right i (BitVec.ofNat 10 idx) :: frames, nodes)
  | idx, .right i l :: frames, nodes =>
    closeSubtree i frames (nodes.setIfInBounds i (.internal l (BitVec.ofNat 10 idx) 0#41))

/-- An Internal node is begun (R183): it takes the next index and waits on the traversal stack. With STACK_CAP nodes waiting
already, the header describes more than NODE_CAP nodes and cannot be completed: the stack is given up and only nodes are counted
(R47 (a), R204; log 14). -/
def beginInternal (p : Parse) : Parse :=
  if p.tooDeep || p.frames.length == Config.stackCap then ⟨[], p.n + 1, p.leaves, none, true⟩
  else ⟨.left p.n :: p.frames, p.n + 1, p.leaves, none, false⟩

/-- A leaf's field is complete with value v (R183): the range check, the Leaf with weight 0 (R186), then `closeSubtree`, unless
the header is too deep to be completed (log 14). The leaf's index is the last one allocated. -/
def closeLeaf (p : Parse) (v : Nat) (nodes : NodeStore) : (Parse × NodeStore) ⊕ ParseEnd :=
  let nodes1 := nodes.setIfInBounds (p.n - 1) (.leaf (BitVec.ofNat 9 v) 0#41)
  if 256 < v then .inr .badSymbol
  else if p.tooDeep then .inl (⟨[], p.n, p.leaves + 1, none, true⟩, nodes1)
  else
    match closeSubtree (p.n - 1) p.frames nodes1 with
    | .inl (frames, nodes') => .inl (⟨frames, p.n, p.leaves + 1, none, false⟩, nodes')
    | .inr (root, nodes') => .inr (.tree root p.n (p.leaves + 1) nodes')

/-- One bit of the header (R183, R184): a shape bit, after which the capacity is checked and the node is allocated in
pre-order; or a bit of a leaf's field. -/
def parseBit (st : Parse × NodeStore) (b : Bool) : (Parse × NodeStore) ⊕ ParseEnd :=
  let p := st.1
  match p.field with
  | none =>
    if p.n = Config.nodeCap then .inr .nodeOverflow
    else if b then .inl ({ p with n := p.n + 1, field := some (Config.symBits, 0) }, st.2)
    else .inl (beginInternal p, st.2)
  | some (missing, v) =>
    if missing ≤ 1 then closeLeaf p (pushBit v b) st.2
    else .inl ({ p with field := some (missing - 1, pushBit v b) }, st.2)

/-- The parse before its first bit. -/
def Parse.start : Parse := ⟨[], 0, 0, none, false⟩

/-- DES fails (R187): N is unspecified (U3; log 4), the tree registers and flags stay as DES cleared them. -/
def desFail (e : ErrCode) (s : State) : Result :=
  raiseError Instr.des.opcode e { s with nodes := Config.freeNodes s.draws, draws := s.draws + 1 }

/-- DES takes bits from where the parse stands (R183, R185, R187). -/
def desTake (p : Parse) (start : Word) (s : State) : Result :=
  match takeBits parseBit (p, s.nodes) s with
  | .done (.tree root n leaves nodes) s' =>
    completeWith (s'.incnt - start)
      { s' with
        nodes := nodes
        nodecnt := BitVec.ofNat 10 n
        root := BitVec.ofNat 10 root
        leafcnt := BitVec.ofNat 9 leaves
        treeValid := true }
  | .done .nodeOverflow s' => desFail .nodeOverflow s'
  | .done .badSymbol s' => desFail .hdrBadSymbol s'
  | .empty st s' => holdIn (.des st.1 start) { s' with nodes := st.2 }
  | .ended _ s' => desFail .truncHeader s'
  | .failed _ s' => desFail .ioError s'

/-- What DES clears before it takes a bit (R185). -/
def desClear (s : State) : State :=
  { s with
    treeValid := false
    tableValid := false
    decActive := false
    decDone := false
    nodecnt := 0#10
    root := 0#10
    leafcnt := 0#9 }

/-- DES (R185). -/
def execDes : State → Result :=
  command .des fun s => desTake Parse.start s.incnt (desClear s)

end Sys2Proof.Machine
end

