-- ==== Sys2Proof/Machine/Weights.lean ====
section
/-! DEFINITION. The weight table commands (40_weights.md). -/

namespace Sys2Proof.Machine

/-- WCLR (R141): every weight becomes 0. -/
def execWclr : State → Result :=
  command .wclr fun s => .next (complete { s with w := Vector.replicate 257 0#32 })

/-- COUNT b (R142): one more occurrence of byte b, or COUNT_OVERFLOW at 2^32 - 1. -/
def execCount (b : BitVec 8) : State → Result :=
  command (.count b) fun s =>
    require (weight s.w b.toNat != 0xFFFFFFFF#32) (Instr.count b).opcode .countOverflow
      (fun s => .next (complete (setWeight b.toNat (weight s.w b.toNat + 1#32) s))) s

/-- CFIN (R143): the EOS weight becomes EOS_WEIGHT. -/
def execCfin : State → Result :=
  command .cfin fun s => .next (complete (setWeight Config.eos.toNat Config.eosWeight s))

/-- WSET s (R144): W[s] becomes ARG. -/
def execWset (sym : Sym) : State → Result :=
  command (.wset sym) fun s => .next (complete (setWeight sym.toNat s.arg s))

/-- WGET s (R145): RESULT becomes W[s]. -/
def execWget (sym : Sym) : State → Result :=
  command (.wget sym) fun s => completeWith (weight s.w sym.toNat) s

/-- LDAL i (R146): the low half of ARG. -/
def execLdal (i : BitVec 16) : State → Result :=
  command (.ldal i) fun s => .next (complete { s with arg := s.arg.extractLsb' 16 16 ++ i })

/-- LDAH i (R147): the high half of ARG. -/
def execLdah (i : BitVec 16) : State → Result :=
  command (.ldah i) fun s => .next (complete { s with arg := i ++ s.arg.extractLsb' 0 16 })

end Sys2Proof.Machine
end

