-- ==== Sys2Proof/Machine/Dispatch.lean ====
section
/-! DEFINITION. One arm per command: its meaning (the rule each follows is in the meaning's docstring). -/

namespace Sys2Proof.Machine

def exec (i : Instr) (s : State) : Host.Outcome State Fault Refusal :=
  match i with
  | .nop => Sys2Proof.Machine.execNop s
  | .reset => Sys2Proof.Machine.execReset s
  | .wclr => Sys2Proof.Machine.execWclr s
  | .count b => Sys2Proof.Machine.execCount b s
  | .cfin => Sys2Proof.Machine.execCfin s
  | .wset sym => Sys2Proof.Machine.execWset sym s
  | .wget sym => Sys2Proof.Machine.execWget sym s
  | .ldal imm => Sys2Proof.Machine.execLdal imm s
  | .ldah imm => Sys2Proof.Machine.execLdah imm s
  | .build => Sys2Proof.Machine.execBuild s
  | .ser => Sys2Proof.Machine.execSer s
  | .des => Sys2Proof.Machine.execDes s
  | .flat => Sys2Proof.Machine.execFlat s
  | .clen sym => Sys2Proof.Machine.execClen sym s
  | .cword sym k => Sys2Proof.Machine.execCword sym k s
  | .enc sym => Sys2Proof.Machine.execEnc sym s
  | .putb n v => Sys2Proof.Machine.execPutb n v s
  | .flush => Sys2Proof.Machine.execFlush s
  | .dstart => Sys2Proof.Machine.execDstart s
  | .dsym => Sys2Proof.Machine.execDsym s
  | .getb n => Sys2Proof.Machine.execGetb n s
  | .nget x => Sys2Proof.Machine.execNget x s
  | .nwlo x => Sys2Proof.Machine.execNwlo x s
  | .nwhi x => Sys2Proof.Machine.execNwhi x s

end Sys2Proof.Machine
end

