-- ==== Sys2Proof/Machine/Agents.lean ====
section
/-! DEFINITION. What moves the machine: accepting a command word (20_memory.md R86), going on with a held command (R84), the
host's moves (R85), and which of them comes next (log 1, log 13). -/

namespace Sys2Proof.Machine

/-- HTB takes a command word: BUSY = 1 until it ends (R43, R86). -/
def begun (s : State) : State := { s with busy := true }

/-- A word that decodes to no command (R106): ILLEGAL_CMD, with the word's own opcode byte, or ignored while ERR = 1 (R305). -/
def illegalWord (cmd : Word) (s : State) : Result :=
  if s.err then .next (complete s) else raiseError (cmd.extractLsb' 24 8) .illegalCmd s

/-- Accept a command word while BUSY = 0 and execute it (R86). -/
def accept (cmd : Word) (s : State) : Result :=
  match decode cmd with
  | .ok i => exec i (begun s)
  | .error _ => illegalWord cmd (begun s)

/-- A held command goes on from its partial state (R84). -/
def resume (j : Job) (s : State) : Result :=
  match j with
  | .ser rest stack count => resumeSer rest stack count s
  | .des p start => desTake p start s
  | .enc rest len => encGive (Instr.enc 0#9).opcode rest len s
  | .putb rest => putbGive (Instr.putb 0#5 0#16).opcode rest s
  | .flush rest pad => flushGive rest pad s
  | .dsym => dsymWalk s
  | .getb missing value => getbTake (Instr.getb 0#5).opcode missing value s

/-- The commands that are held on the input port; the others are held on the output port (R84). -/
def Job.takesInput : Job → Bool
  | .ser _ _ _ => false
  | .des _ _ => true
  | .enc _ _ => false
  | .putb _ => false
  | .flush _ _ => false
  | .dsym => true
  | .getb _ _ => true

/-- The port a held command waits on cannot serve it yet (R84). -/
def stillHeld (j : Job) (s : State) : Bool := if Job.takesInput j then inputEmpty s else outputFull s

/-- The window offset a host access aims at, or `none` outside HTB's 64 bytes (R45, R78). -/
def windowOffset : BusAddr → Option Nat
  | .offset o => if o < 64 then some o else none
  | .platform a => if Config.htbBase ≤ a ∧ a < Config.htbBase + 64 then some (a - Config.htbBase) else none

/-- Go on with the window offset of a legal access; refuse any other (R87; log 16). -/
def access (addr : BusAddr) (width : Nat) (body : Nat → Result) : Result :=
  match windowOffset addr with
  | none => .refused .outsideWindow
  | some o => if width = 32 ∧ o % 4 = 0 then body o else .refused .badAccess

/-- A register write (R77, R86): CMD accepts or stalls the word, every other register ignores it. -/
def writeRegister (o : Nat) (data : Word) (s : State) : Result :=
  if o = 0 then
    if s.busy then .next { s with stalled := s.stalled ++ [data] } else accept data s
  else .next s

/-- A register read (R77, R88): no effect on HTB; while BUSY = 1 some registers give a free value (log 8). -/
def readRegister (o : Nat) (s : State) : Result :=
  if s.busy && vagueWhileBusy o then .next { s with rdata := Config.freeRead s.draws, draws := s.draws + 1 }
  else .next { s with rdata := registerValue s o }

/-- The output port makes room for n more bits (R85). -/
def drained (n : Nat) (s : State) : State := { s with out := { s.out with room := s.out.room.map fun r => r + n } }

/-- The host supplies bits; after End the port takes no more (R80; log 11). -/
def supplied (bs : Bits) (s : State) : State :=
  if s.inp.ended then s else { s with inp := { s.inp with bits := s.inp.bits ++ bs } }

/-- One move of the host (R85). DESIGN CHOICE (log 22): re-initialising the input port, which is outside HTB (R80, R342), also
drops a pending input I/O error. -/
def hostMove (m : HostMove) (s : State) : Result :=
  match m with
  | .write addr width data => access addr width fun o => writeRegister o data s
  | .read addr width => access addr width fun o => readRegister o s
  | .supply bs => .next (supplied bs s)
  | .signalEnd => .next { s with inp := { s.inp with ended := true } }
  | .drain n => .next (drained n s)
  | .inputError => .next { s with inp := { s.inp with ioErr := true } }
  | .outputError => .next { s with out := { s.out with ioErr := true } }
  | .hardReset => .next (resetBlock s)
  | .stallOutput => .next { s with out := { s.out with room := some 0 } }
  | .reopenInput => .next { s with inp := ⟨[], false, false⟩ }

/-- The host makes its next move; with none left the machine has no step (R352; log 15). -/
def hostTurn (s : State) : Result :=
  match s.moves with
  | m :: ms => hostMove m { s with moves := ms }
  | [] => .fault (if s.job.isSome then .heldForever else .idle)

/-- One step of the whole: HTB goes on if its command is not held; else, held, the host moves; else, idle, the oldest stalled
CMD write is accepted (R86); else the host moves (log 1, log 13). -/
def advance (s : State) : Result :=
  match s.job with
  | some j => if stillHeld j s then hostTurn s else resume j s
  | none =>
    match s.stalled with
    | cmd :: rest => accept cmd { s with stalled := rest }
    | [] => hostTurn s

/-- Idle, with `cmd` the host's next move: stalled writes become moves again, after it (log 1). -/
def withNextCommand (cmd : Word) (s : State) : State :=
  { complete s with
    moves := .write (.offset 0) 32 cmd :: (s.stalled.map fun c => .write (.offset 0) 32 c) ++ s.moves
    stalled := [] }

end Sys2Proof.Machine
end

