-- ==== Sys2Proof/Machine/Step.lean ====
section
/-! DEFINITION. The step, and how a command word is put where the step takes its next command. -/

namespace Sys2Proof.Machine

/-- One step (`advance`). -/
def step (s : State) : Host.Outcome State Fault Refusal := advance s

/-- `s` with the command word `w` as the host's next CMD write (log 1). -/
def State.withFetchWord (s : State) (nbits w : Nat) : State :=
  withNextCommand (BitVec.ofNat 32 (w % 2 ^ nbits)) s

end Sys2Proof.Machine
end

