-- ==== Sys2Proof/Machine/WireFormat.lean ====
section
/-! DEFINITION. The wire format of 30_encoding.md section 5 as functions of a tree, and the byte packing of 20_memory.md R74.
No command calls these: they are what the commands' bit streams are compared with. -/

namespace Sys2Proof.Machine

/-- A strict binary tree with a symbol at every leaf: the shape a node store represents (R36, R37 (c)). -/
inductive Tree where
  | leaf (sym : Sym)
  | node (left right : Tree)
  deriving DecidableEq, Repr

/-- The header of a tree (R120): pre-order, 0 for an internal node, 1 and the 9-bit symbol for a leaf. -/
def Tree.header : Tree → Bits
  | .leaf sym => true :: msbBits Config.symBits sym.toNat
  | .node l r => false :: (l.header ++ r.header)

/-- The header's bits node by node, in pre-order (R120). -/
def Tree.nodeBits : Tree → List Bits
  | .leaf sym => [true :: msbBits Config.symBits sym.toNat]
  | .node l r => [false] :: (l.nodeBits ++ r.nodeBits)

/-- The depth of the deepest leaf (R204). -/
def Tree.depth : Tree → Nat
  | .leaf _ => 0
  | .node l r => max l.depth r.depth + 1

/-- The number of nodes. -/
def Tree.size : Tree → Nat
  | .leaf _ => 1
  | .node l r => l.size + r.size + 1

/-- The symbols at the leaves, left to right. -/
def Tree.leaves : Tree → List Sym
  | .leaf sym => [sym]
  | .node l r => l.leaves ++ r.leaves

/-- Every leaf's symbol with its code: the branch bits from the root to it (R200). -/
def Tree.codes : Tree → List (Sym × Bits)
  | .leaf sym => [(sym, [])]
  | .node l r =>
    (l.codes.map fun c => (c.1, branchBit false :: c.2)) ++ (r.codes.map fun c => (c.1, branchBit true :: c.2))

/-- The marker `{MAGIC_HI, MAGIC_LOW}` (R124). -/
def markerWord : Word := Config.magicHi ++ Config.magicLow

/-- The payload of a byte sequence (R123): each byte's code, then the EOS code. -/
def payload (ct : CodeTable) (input : List (BitVec 8)) : Bits :=
  (input.flatMap fun x => entryCode (codeEntry ct (x.setWidth 9))) ++ entryCode (codeEntry ct Config.eos)

/-- The zero bits FLUSH adds after n bits (R124, R226). -/
def padBits (n : Nat) : Bits :=
  List.replicate ((Config.padGranule - n % Config.padGranule) % Config.padGranule) false

/-- The stream before its pad (R124): marker, header, payload. -/
def unpaddedStream (t : Tree) (ct : CodeTable) (input : List (BitVec 8)) : Bits :=
  msbBits 32 markerWord.toNat ++ t.header ++ payload ct input

/-- The whole stream as the host assembles it (R124). -/
def wholeStream (t : Tree) (ct : CodeTable) (input : List (BitVec 8)) : Bits :=
  unpaddedStream t ct input ++ padBits (unpaddedStream t ct input).length

/-- A bit stream as bytes (R74): stream bit 8k+j is bit 7-j of byte k. A last group of fewer than 8 bits is no byte. -/
def streamBytes : Bits → List (BitVec 8)
  | b7 :: b6 :: b5 :: b4 :: b3 :: b2 :: b1 :: b0 :: rest =>
    BitVec.ofNat 8 (bitsValue [b7, b6, b5, b4, b3, b2, b1, b0]) :: streamBytes rest
  | _ => []

/-- Bytes as a bit stream (R74). -/
def bytesStream (bs : List (BitVec 8)) : Bits := bs.flatMap fun x => msbBits 8 x.toNat

end Sys2Proof.Machine
end

