-- ==== Sys2Proof/Safety.lean ====
section
/-! DEFINITION. What the spec says of every state it allows: the tree invariant (10_state.md R37), the code table invariant
(R39), how the flags hang together (R40, R43, R48, R310), and what a held command keeps (R47). -/

namespace Sys2Proof.Machine

/-- The store holds the tree `t` with its root at an index; the list is the indices it occupies, in pre-order (R36, R37). -/
inductive Spans (nodes : NodeStore) : NodeIdx → Tree → List NodeIdx → Prop where
  | leaf {i : NodeIdx} {sym : Sym} {wt : Weight} (h : nodeAt nodes i = some (.leaf sym wt)) :
      Spans nodes i (.leaf sym) [i]
  | node {i l r : NodeIdx} {wt : Weight} {tl tr : Tree} {il ir : List NodeIdx}
      (h : nodeAt nodes i = some (.internal l r wt)) (hl : Spans nodes l tl il) (hr : Spans nodes r tr ir) :
      Spans nodes i (.node tl tr) (i :: il ++ ir)

/-- The store holds the tree `t` with its root at index `i`. -/
def HoldsTree (nodes : NodeStore) (i : NodeIdx) (t : Tree) : Prop := ∃ is, Spans nodes i t is

/-- The weight at a node index of a store, 0 outside it. -/
def weightOfNode (n : NodeStore) (i : NodeIdx) : Nat := ((nodeAt n i).map fun nd => (nodeWeight nd).toNat).getD 0

/-- Node x waits in the build queue when node m is made: it is made already and is no child of a node made already (R162). -/
def WaitsAt (n : NodeStore) (m x : Nat) : Prop :=
  x < m ∧ ∀ (i : NodeIdx) (l r : NodeIdx) (wt : Weight), i.toNat < m → nodeAt n i = some (.internal l r wt) →
    l.toNat ≠ x ∧ r.toNat ≠ x

/-- The key order of the build queue, (weight, index) lexicographic (R163). -/
def ComesBefore (n : NodeStore) (x y : NodeIdx) : Prop :=
  weightOfNode n x < weightOfNode n y ∨ (weightOfNode n x = weightOfNode n y ∧ x.toNat < y.toNat)

/-- Every leaf's symbol is one (R37 (d)). -/
def LegalSymbols (t : Tree) : Prop := ∀ sym ∈ t.leaves, sym.toNat ≤ 256

/-- The registers describe the tree `t` (R37): it stands at ROOT, its indices are exactly 0..NODECNT-1, each once ((a), (b)),
its leaves are LEAFCNT many ((e)) and hold symbols ((d)). Strictness ((c)) is the type of `Tree`. -/
def DescribesTree (s : State) (t : Tree) : Prop :=
  ∃ is, Spans s.nodes s.root t is ∧ (is.map BitVec.toNat).Perm (List.range s.nodecnt.toNat) ∧
    t.leaves.length = s.leafcnt.toNat ∧ LegalSymbols t

/-- The tree invariant (R37). -/
def TreeInvariant (s : State) : Prop := s.treeValid = true → ∃ t, DescribesTree s t

/-- The code table holds exactly the codes of the tree `t` (R39). -/
def HoldsCodes (ct : CodeTable) (t : Tree) : Prop :=
  (∀ sym : Sym, (codeEntry ct sym).valid = true ↔ sym ∈ t.leaves) ∧
    ∀ c ∈ t.codes, (codeEntry ct c.1).len.toNat = c.2.length ∧ entryCode (codeEntry ct c.1) = c.2

/-- The code table invariant (R39). -/
def TableInvariant (s : State) : Prop :=
  s.tableValid = true → ∀ t, DescribesTree s t → HoldsCodes s.ct t

/-- What a held command's port is, and what it had checked before it was held (R84, R181, R185, R221, R242). -/
def JobAllowed (s : State) : Job → Prop
  | .ser _ _ _ => s.treeValid = true
  | .des _ _ => s.treeValid = false
  | .enc _ _ => s.tableValid = true
  | .putb _ => True
  | .flush _ _ => True
  | .dsym => s.decActive = true
  | .getb _ _ => True

/-- How the flags hang together: BUSY and the hold flags say whether and where a command is held (R43, R84); a held command has
raised no error (R310) and has its precondition; ERRCODE and ERROP are 0 without an error and ERRCODE is a code of R300 with one
(R41); the decoder is armed or done, never both (R240), and has a tree (R242); a code table has a tree (R48). -/
structure FlagInvariant (s : State) : Prop where
  busy : s.busy = s.job.isSome
  heldIn : s.heldIn = s.job.any Job.takesInput
  heldOut : s.heldOut = s.job.any fun j => !Job.takesInput j
  heldNoError : s.job.isSome = true → s.err = false
  job : ∀ j, s.job = some j → JobAllowed s j
  noError : s.err = false → s.errcode = 0#8 ∧ s.errop = 0#8
  error : s.err = true → 1 ≤ s.errcode.toNat ∧ s.errcode.toNat ≤ 16
  armedOrDone : ¬(s.decActive = true ∧ s.decDone = true)
  armedTree : s.decActive = true → s.treeValid = true
  doneTree : s.decDone = true → s.treeValid = true
  tableTree : s.tableValid = true → s.treeValid = true

/-- The traversal stack of R181, top first, has room for these subtrees and for all that their visits push: one entry more for
each level of a subtree (R47 (a), R204). -/
def StackFits (ts : List Tree) : Prop := ∀ k t, ts[k]? = some t → ts.length - k + t.depth ≤ Config.stackCap

/-- What a held command keeps (R47): SER's stack holds disjoint subtrees of the tree, so no more nodes than the store, and fits
STACK_CAP; DES's parse is one that some bits lead to, and its stack fits STACK_CAP; DSYM's CURSOR stands on an internal node of the
tree. -/
def HeldWork (s : State) : Job → Prop
  | .ser _ stack _ => stack.length ≤ Config.stackCap ∧ ∃ ts : List Tree, List.Forall₂ (HoldsTree s.nodes) stack ts ∧
      (ts.map Tree.size).sum ≤ Config.nodeCap ∧ StackFits ts
  | .des p _ => p.frames.length ≤ Config.stackCap ∧
      ∃ bits nodes, feed parseBit (Parse.start, nodes) bits = .dry (p, s.nodes)
  | .dsym => ∃ l r, HoldsTree s.nodes s.cursor (.node l r)
  | .enc _ _ => True
  | .putb _ => True
  | .flush _ _ => True
  | .getb _ _ => True

/-- Between commands an armed decoder stands at ROOT (R40); an error leaves CURSOR unspecified (R243). -/
def CursorInvariant (s : State) : Prop :=
  s.decActive = true → s.err = false → s.job ≠ some .dsym → s.cursor = s.root

/-- Everything above, together. -/
structure Invariant (s : State) : Prop where
  flags : FlagInvariant s
  tree : TreeInvariant s
  table : TableInvariant s
  cursor : CursorInvariant s
  held : ∀ j, s.job = some j → HeldWork s j

/-- The output port takes `n` bits without a hold or an error (R82). -/
def OutputTakes (s : State) (n : Nat) : Prop := s.out.ioErr = false ∧ ∀ r, s.out.room = some r → n ≤ r

/-- The input port hands over these bits first, without an error (R80). -/
def InputGives (s : State) (bits rest : Bits) : Prop := s.inp.ioErr = false ∧ s.inp.bits = bits ++ rest

/-- The safe outcomes of a step: it is not a broken tree. -/
def NotBroken (r : Result) : Prop := r ≠ .fault .brokenTree

end Sys2Proof.Machine
end

