-- ==== Sys2Proof/Certificates/Slice0/Obligations.lean ====
section
/-! DEFINITION. The statements about the model, each from the spec's rules. -/

open Sys2Proof Sys2Proof.Machine

/-! ## Encoding -/

/-- Decoding the encoding of a well-formed command gives it back, with every operand at every value its field admits
(R101 to R105). -/
def Obligations.DecodeInvertsEncode : Prop :=
  ∀ i : Instr, i.wellFormed = true → decode (encode i) = .ok i

/-- A word that decodes is the encoding of a well-formed command: no two words mean the same command (R104, R105). -/
def Obligations.EncodeInvertsDecode : Prop :=
  ∀ (w : Word) (i : Instr), decode w = .ok i → encode i = w ∧ i.wellFormed = true

/-- The example words of R111, one for each format. -/
def Obligations.ExampleWordsDecode : Prop :=
  decode 0x20000000#32 = .ok .build ∧ decode 0x11000041#32 = .ok (.count 0x41#8) ∧
    decode 0x50000100#32 = .ok (.enc 256#9) ∧ decode 0x42000241#32 = .ok (.cword 65#9 1#3) ∧
    decode 0x180003E8#32 = .ok (.ldal 0x03E8#16) ∧ decode 0x70000004#32 = .ok (.nget 4#10) ∧
    decode 0x5110FACE#32 = .ok (.putb 16#5 0xFACE#16) ∧ decode 0x62100000#32 = .ok (.getb 16#5)

/-- No two rows of the opcode map share an opcode; 232 opcode bytes are reserved, 0x80 to 0xFF among them; a word with a reserved
opcode is illegal; with opcode 0x00 only the word 0 is a command (R104, R107). -/
def Obligations.ReservedOpcodesAreIllegal : Prop :=
  (opcodeTable.map Row.opcode).Nodup ∧ opcodeTable.length + 232 = 256 ∧
    (∀ op : Opcode, 0x80 ≤ op.toNat → op ∉ opcodeTable.map Row.opcode) ∧
    (∀ w : Word, w.extractLsb' 24 8 ∉ opcodeTable.map Row.opcode → decode w = .error .unassignedOpcode) ∧
    ∀ w : Word, w.extractLsb' 24 8 = 0#8 → w ≠ 0#32 → decode w = .error .reservedBit

/-! ## Steps, errors, reset -/

/-- A step takes a command word: the oldest stalled CMD write, or else the host's next move when that is a CMD write, or the word
put in place by withFetchWord; whatever the word, it is accepted as R86 says, and one that decodes to a command is that command
executed with BUSY = 1 (R86, R90). Idle, with no CMD write stalled, a step is the host's next move, whichever it is. With a command
held, a step goes on with it once its port can serve it, and until then is the host's next move (R84, R85, R352). The script, the
stalled queue, their order and the stop at the end of the script are the model's own (log 1, log 13, log 15). -/
def Obligations.StepRunsTheDecodedCommand : Prop :=
  ∀ s : State,
    (∀ w : Word,
      (∀ rest, s.job = none → s.stalled = w :: rest →
        step s = accept w { s with stalled := rest } ∧
          ∀ i, decode w = .ok i → step s = exec i (begun { s with stalled := rest })) ∧
      (∀ ms, s.job = none → s.stalled = [] → s.busy = false → s.moves = .write (.offset 0) 32 w :: ms →
        step s = accept w { s with moves := ms } ∧
          ∀ i, decode w = .ok i → step s = exec i (begun { s with moves := ms })) ∧
      ∀ t, t = { complete s with
          moves := (s.stalled.map fun c => .write (.offset 0) 32 c) ++ s.moves
          stalled := [] } →
        step (s.withFetchWord 32 w.toNat) = accept w t ∧
          ∀ i, decode w = .ok i → step (s.withFetchWord 32 w.toNat) = exec i (begun t)) ∧
    (s.job = none → s.stalled = [] →
      (∀ m ms, s.moves = m :: ms → step s = hostMove m { s with moves := ms }) ∧
        (s.moves = [] → step s = .fault .idle)) ∧
    ∀ j, s.job = some j →
      (stillHeld j s = false → step s = resume j s) ∧
        (stillHeld j s = true →
          (∀ m ms, s.moves = m :: ms → step s = hostMove m { s with moves := ms }) ∧
            (s.moves = [] → step s = .fault .heldForever))

/-- A word that decodes to no command raises ILLEGAL_CMD with its own opcode byte and has no other effect; while ERR = 1 it is
ignored (R106). -/
def Obligations.IllegalWordRaisesIllegalCmd : Prop :=
  ∀ (w : Word) (e : Illegal) (s : State), decode w = .error e →
    (s.err = false →
      accept w s = .next { complete s with err := true, errcode := 0x01#8, errop := w.extractLsb' 24 8 }) ∧
      (s.err = true → accept w s = .next (complete s))

/-- While ERR = 1 every word but the RESET word completes at once without effect: no error field, no port, no RESULT, nothing
else changes (R305). -/
def Obligations.WordsAreIgnoredWhileErr : Prop :=
  ∀ (w : Word) (s : State), s.err = true → w ≠ 0x01000000#32 → accept w s = .next (complete s)

/-- Raising an error writes ERR, ERRCODE and ERROP, ends the command, and changes nothing else (R304). A command with an operand
out of range raises ILLEGAL_CMD before any other check (R105, R306). The sixteen errors have the numbers of R300. -/
def Obligations.RaiseWritesTheErrorFields : Prop :=
  (∀ (i : Instr) (s : State), s.err = false → i.wellFormed = false → exec i s = raiseError i.opcode .illegalCmd s) ∧
    (∀ (op : Opcode) (e : ErrCode) (s : State),
      raiseError op e s = .next
        { s with
          err := true
          errcode := e.code
          errop := op
          busy := false
          heldIn := false
          heldOut := false
          job := none }) ∧
    ErrCode.code .illegalCmd = 0x01#8 ∧ ErrCode.code .truncHeader = 0x02#8 ∧ ErrCode.code .truncPayload = 0x03#8 ∧
    ErrCode.code .truncRaw = 0x04#8 ∧ ErrCode.code .hdrBadSymbol = 0x05#8 ∧ ErrCode.code .nodeOverflow = 0x06#8 ∧
    ErrCode.code .noTree = 0x07#8 ∧ ErrCode.code .noTable = 0x08#8 ∧ ErrCode.code .noCode = 0x09#8 ∧
    ErrCode.code .eosMissing = 0x0A#8 ∧ ErrCode.code .dupSymbol = 0x0B#8 ∧ ErrCode.code .countOverflow = 0x0C#8 ∧
    ErrCode.code .decState = 0x0D#8 ∧ ErrCode.code .degenerateTree = 0x0E#8 ∧ ErrCode.code .badIndex = 0x0F#8 ∧
    ErrCode.code .ioError = 0x10#8

/-- RESET, whatever ERR is, and the hardware reset at any time both leave the reset values and an idle block, and do not touch the
ports; STATUS then reads 0 (R340 to R343, R261). N, CT and CURSOR, which the rules leave unspecified, take free values (log 3):
nothing is said of them. That the host's side stays too is the model's: the script and the last value read are its own fields
(log 1, log 21), and that stalled CMD writes survive is log 19. -/
def Obligations.ResetRestoresTheResetValues : Prop :=
  ∀ s : State, ∃ t, exec .reset s = .next t ∧ hostMove .hardReset s = .next t ∧ accept 0x01000000#32 s = .next t ∧
    (∀ j, weight t.w j = 0#32) ∧ t.arg = 0#32 ∧ t.result = 0#32 ∧ t.nodecnt = 0#10 ∧ t.root = 0#10 ∧
    t.leafcnt = 0#9 ∧ t.treeValid = false ∧ t.tableValid = false ∧ t.decActive = false ∧ t.decDone = false ∧
    t.err = false ∧ t.errcode = 0#8 ∧ t.errop = 0#8 ∧ t.outcnt = 0#32 ∧ t.incnt = 0#32 ∧ t.busy = false ∧
    t.heldIn = false ∧ t.heldOut = false ∧ t.job = none ∧ statusWord t = 0#32 ∧ t.inp = s.inp ∧ t.out = s.out ∧
    t.moves = s.moves ∧ t.stalled = s.stalled ∧ t.rdata = s.rdata

/-- NOP changes nothing (R260). -/
def Obligations.NopChangesNothing : Prop :=
  decode 0x00000000#32 = .ok .nop ∧ ∀ s : State, exec .nop s = .next (complete s)

/-! ## Host-visible registers -/

/-- The STATUS layout, which no register write changes (R44). -/
def Obligations.StatusHasItsLayout : Prop :=
  ∀ s : State, registerValue s 0x04 = statusWord s ∧ (statusWord s).getLsbD 0 = s.err ∧
    (statusWord s).getLsbD 1 = s.treeValid ∧ (statusWord s).getLsbD 2 = s.tableValid ∧
    (statusWord s).getLsbD 3 = s.decActive ∧ (statusWord s).getLsbD 4 = s.decDone ∧
    (statusWord s).getLsbD 5 = s.busy ∧ (statusWord s).getLsbD 6 = s.heldIn ∧ (statusWord s).getLsbD 7 = s.heldOut ∧
    (statusWord s).extractLsb' 8 8 = s.errcode ∧ (statusWord s).extractLsb' 16 8 = s.errop ∧
    (statusWord s).extractLsb' 24 8 = 0#8 ∧ ∀ d, writeRegister 0x04 d s = .next s

/-- The register map: each offset's content, CMD and the reserved offsets read 0, writes to anything but CMD are ignored (R45). -/
def Obligations.RegisterMapHasItsContents : Prop :=
  ∀ s : State, registerValue s 0x00 = 0#32 ∧ registerValue s 0x04 = statusWord s ∧ registerValue s 0x08 = s.result ∧
    registerValue s 0x0C = s.arg ∧ (registerValue s 0x10).toNat = s.nodecnt.toNat ∧
    (registerValue s 0x14).toNat = s.root.toNat ∧ (registerValue s 0x18).toNat = s.leafcnt.toNat ∧
    registerValue s 0x1C = s.outcnt ∧ registerValue s 0x20 = s.incnt ∧ registerValue s 0x24 = 0x48544231#32 ∧
    (∀ o, 0x28 ≤ o → o ≤ 0x3C → registerValue s o = 0#32) ∧
    ∀ o d, 0 < o → o < 64 → o % 4 = 0 → hostMove (.write (.offset o) 32 d) s = .next s

/-- ID reads the constant 0x48544231, the bytes of "HTB1", in every state, busy or not (R46). -/
def Obligations.IdReadsTheConstant : Prop :=
  ∀ s : State, ∃ t, hostMove (.read (.offset 0x24) 32) s = .next t ∧ t.rdata = 0x48544231#32 ∧
    t.rdata.extractLsb' 24 8 = 0x48#8 ∧ t.rdata.extractLsb' 16 8 = 0x54#8 ∧ t.rdata.extractLsb' 8 8 = 0x42#8 ∧
    t.rdata.extractLsb' 0 8 = 0x31#8

/-- A legal register read changes nothing of HTB and its ports; idle, and for STATUS always, it gives the register's value
(R77, R88). What it gives of the other registers while BUSY = 1 is free (log 8), and where the host finds it is the model's own
(log 21). An access that is not 32 bits wide at a multiple of 4 is refused (R87). -/
def Obligations.ReadsAreExactAndBadAccessesRefused : Prop :=
  ∀ (s : State) (o : Nat), o < 64 →
    (o % 4 = 0 → ∃ v d, hostMove (.read (.offset o) 32) s = .next { s with rdata := v, draws := d } ∧
      (s.busy = false ∨ o = 0x04 → v = registerValue s o)) ∧
    ∀ (width : Nat) (d : Word), width ≠ 32 ∨ o % 4 ≠ 0 →
      hostMove (.write (.offset o) width d) s = .refused .badAccess ∧
        hostMove (.read (.offset o) width) s = .refused .badAccess

/-- A CMD write while BUSY = 1 is stalled, behind those stalled before it, and changes nothing else (R85, R86). The queue that
holds it is the model's own (log 1). -/
def Obligations.CmdWriteIsStalledWhileBusy : Prop :=
  ∀ (s : State) (w : Word), s.busy = true →
    hostMove (.write (.offset 0) 32 w) s = .next { s with stalled := s.stalled ++ [w] }

/-! ## Weights -/

/-- WCLR: every weight 0, nothing else (R141). -/
def Obligations.WclrClearsEveryWeight : Prop :=
  decode 0x10000000#32 = .ok .wclr ∧ ∀ s : State, s.err = false → ∃ w', exec .wclr s = .next (complete { s with w := w' }) ∧
    (∀ j, weight w' j = 0#32) ∧ ((∀ j, j < 257 → weight s.w j = 0#32) → w' = s.w)

/-- COUNT: W[b] + 1 with no wrap and every other weight kept; at 2^32 - 1 COUNT_OVERFLOW and W kept (R142, R148). -/
def Obligations.CountAddsOneOrOverflows : Prop :=
  ∀ (s : State) (b : BitVec 8), s.err = false →
    ((weight s.w b.toNat).toNat < 2 ^ 32 - 1 → ∃ w', exec (.count b) s = .next (complete { s with w := w' }) ∧
      (weight w' b.toNat).toNat = (weight s.w b.toNat).toNat + 1 ∧
      ∀ j, j ≠ b.toNat → weight w' j = weight s.w j) ∧
    ((weight s.w b.toNat).toNat = 2 ^ 32 - 1 → exec (.count b) s = .next (errorState 0x11#8 .countOverflow s))

/-- CFIN: W[256] becomes 1, every other weight kept, whatever W[256] was; twice is once (R143). -/
def Obligations.CfinFixesTheEosWeight : Prop :=
  decode 0x12000000#32 = .ok .cfin ∧ ∀ s : State, s.err = false → ∃ w', exec .cfin s = .next (complete { s with w := w' }) ∧
    weight w' 256 = 1#32 ∧ (∀ j, j ≠ 256 → weight w' j = weight s.w j) ∧
    exec .cfin (complete { s with w := w' }) = .next (complete { s with w := w' })

/-- WSET: W[s] becomes ARG, every other weight kept; WGET: RESULT becomes W[s]; a symbol above 256 is ILLEGAL_CMD
(R144, R145). -/
def Obligations.WsetWritesAndWgetReads : Prop :=
  ∀ (s : State) (sym : Sym), s.err = false →
    (sym.toNat ≤ 256 →
      (∃ w', exec (.wset sym) s = .next (complete { s with w := w' }) ∧ weight w' sym.toNat = s.arg ∧
        ∀ j, j ≠ sym.toNat → weight w' j = weight s.w j) ∧
      exec (.wget sym) s = .next (complete { s with result := weight s.w sym.toNat })) ∧
    (256 < sym.toNat →
      exec (.wset sym) s = .next (errorState 0x13#8 .illegalCmd s) ∧
        exec (.wget sym) s = .next (errorState 0x14#8 .illegalCmd s))

/-- LDAL: the low half of ARG, the high half kept; with LDAH in either order it loads a 32-bit value (R146). -/
def Obligations.LdalLoadsTheLowHalf : Prop :=
  ∀ (s : State) (i hi : BitVec 16), s.err = false →
    decode (0x1800#16 ++ i) = .ok (.ldal i) ∧
      exec (.ldal i) s = .next (complete { s with arg := s.arg.extractLsb' 16 16 ++ i }) ∧
      exec (.ldah hi) (complete { s with arg := s.arg.extractLsb' 16 16 ++ i }) = .next (complete { s with arg := hi ++ i }) ∧
      exec (.ldal i) (complete { s with arg := hi ++ s.arg.extractLsb' 0 16 }) = .next (complete { s with arg := hi ++ i })

/-- LDAH: the high half of ARG, the low half kept; with LDAL in either order it loads a 32-bit value (R147). -/
def Obligations.LdahLoadsTheHighHalf : Prop :=
  ∀ (s : State) (i lo : BitVec 16), s.err = false →
    decode (0x1900#16 ++ i) = .ok (.ldah i) ∧
      exec (.ldah i) s = .next (complete { s with arg := i ++ s.arg.extractLsb' 0 16 }) ∧
      exec (.ldal lo) (complete { s with arg := i ++ s.arg.extractLsb' 0 16 }) = .next (complete { s with arg := i ++ lo }) ∧
      exec (.ldah i) (complete { s with arg := s.arg.extractLsb' 16 16 ++ lo }) = .next (complete { s with arg := i ++ lo })

/-! ## The builder -/

/-- Extracting from the queue takes its element of least key (weight, index) and leaves the others (R162, R163). -/
def Obligations.ExtractMinTakesTheLightest : Prop :=
  ∀ queue : List QueueEntry,
    (extractMin queue = none ↔ queue = []) ∧
      ∀ m rest, extractMin queue = some (m, rest) → (m :: rest).Perm queue ∧
        ∀ x ∈ rest, m.1.toNat < x.1.toNat ∨ (m.1.toNat = x.1.toNat ∧ m.2 ≤ x.2)

/-- BUILD with L weights not 0, EOS's among them: NODECNT = 2L - 1 ≤ 513, ROOT = 2L - 2, LEAFCNT = L, 1 ≤ L ≤ 257; RESULT is
ROOT; the flags are as R48 says; entries from NODECNT on, and everything else, are kept (R162, R165). -/
def Obligations.BuildCountsItsNodes : Prop :=
  ∀ s : State, s.err = false → weight s.w 256 ≠ 0#32 →
    1 ≤ (presentSymbols s.w).length ∧ (presentSymbols s.w).length ≤ 257 ∧
      2 * (presentSymbols s.w).length - 1 ≤ 513 ∧
      ∃ n', exec .build s = .next (complete { s with
          nodes := n'
          nodecnt := BitVec.ofNat 10 (2 * (presentSymbols s.w).length - 1)
          root := BitVec.ofNat 10 (2 * (presentSymbols s.w).length - 2)
          leafcnt := BitVec.ofNat 9 (presentSymbols s.w).length
          treeValid := true
          tableValid := false
          decActive := false
          decDone := false
          result := BitVec.ofNat 32 (2 * (presentSymbols s.w).length - 2) }) ∧
        (∀ i : NodeIdx, 2 * (presentSymbols s.w).length - 1 ≤ i.toNat → nodeAt n' i = nodeAt s.nodes i) ∧
        ∀ k sym, (presentSymbols s.w)[k]? = some sym →
          nodeAt n' (BitVec.ofNat 10 k) = some (.leaf (BitVec.ofNat 9 sym) ((weight s.w sym).setWidth 41))

/-- Every merge of BUILD takes the two first nodes of the queue, the first as the left child and the second as the right, and the
new node has the next index and the summed weight (R162, R163, R164). -/
def Obligations.BuildMergesTheTwoLightest : Prop :=
  ∀ s : State, s.err = false → weight s.w 256 ≠ 0#32 → ∃ t, exec .build s = .next t ∧
    ∀ m, (presentSymbols s.w).length ≤ m → m < 2 * (presentSymbols s.w).length - 1 → ∃ l r wt,
      nodeAt t.nodes (BitVec.ofNat 10 m) = some (.internal l r wt) ∧
        wt.toNat = weightOfNode t.nodes l + weightOfNode t.nodes r ∧
        WaitsAt t.nodes m l.toNat ∧ WaitsAt t.nodes m r.toNat ∧ ComesBefore t.nodes l r ∧
        ∀ x : NodeIdx, WaitsAt t.nodes m x.toNat → x ≠ l → x ≠ r → ComesBefore t.nodes r x

/-- BUILD makes a tree that satisfies R37, whose leaves are exactly the symbols with a weight not 0, each once (R161, R37). -/
def Obligations.BuildMakesATree : Prop :=
  ∀ s : State, s.err = false → weight s.w 256 ≠ 0#32 → ∃ t T, exec .build s = .next t ∧ t.treeValid = true ∧
    DescribesTree t T ∧ T.leaves.Perm ((presentSymbols s.w).map fun sym => BitVec.ofNat 9 sym)

/-- After BUILD every node weight is the sum of the table weights of the leaves under it, at most 257 * (2^32 - 1), which is
less than 2^41: it never overflows (R166). -/
def Obligations.BuildSumsWeightsExactly : Prop :=
  ∀ s : State, s.err = false → weight s.w 256 ≠ 0#32 → ∃ t, exec .build s = .next t ∧
    ∀ (i : NodeIdx) (T : Tree), i.toNat < t.nodecnt.toNat → HoldsTree t.nodes i T →
      weightOfNode t.nodes i = (T.leaves.map fun sym => (weight s.w sym.toNat).toNat).sum ∧
        weightOfNode t.nodes i ≤ 257 * (2 ^ 32 - 1)

/-- BUILD is a function of W alone: two states with the same W get the same NODECNT, ROOT, LEAFCNT and N[0 .. NODECNT-1]
(R168). With no EOS weight it raises EOS_MISSING and changes nothing else (R162). -/
def Obligations.BuildDependsOnWeightsOnly : Prop :=
  (∀ s s' : State, s.err = false → s'.err = false → weight s.w 256 ≠ 0#32 → s.w = s'.w → ∃ t t',
    exec .build s = .next t ∧ exec .build s' = .next t' ∧ t.nodecnt = t'.nodecnt ∧ t.root = t'.root ∧
      t.leafcnt = t'.leafcnt ∧ ∀ i : NodeIdx, i.toNat < t.nodecnt.toNat → nodeAt t.nodes i = nodeAt t'.nodes i) ∧
    ∀ s : State, s.err = false → weight s.w 256 = 0#32 →
      exec .build s = .next (errorState 0x20#8 .eosMissing s)

/-! ## The tree codec -/

/-- A tree with L leaves has 2L - 1 nodes and a header of 11L - 1 bits, and the header says where it ends: from a stream that
begins with a header, the tree and what follows it are determined (R121). -/
def Obligations.HeaderIsSelfDelimiting : Prop :=
  ∀ T : Tree, T.size = 2 * T.leaves.length - 1 ∧ T.header.length = 11 * T.leaves.length - 1 ∧
    (T.header.length = T.size + 9 * T.leaves.length) ∧
    ∀ (T' : Tree) (rest rest' : Bits), T.header ++ rest = T'.header ++ rest' → T = T' ∧ rest = rest'

/-- SER on a port that takes them gives exactly the header's bits; RESULT counts them; nothing else changes. Without a tree it
raises NO_TREE (R181, R182). -/
def Obligations.SerGivesTheHeader : Prop :=
  ∀ s : State, s.err = false →
    (s.treeValid = false → exec .ser s = .next (errorState 0x30#8 .noTree s)) ∧
    ∀ T : Tree, s.treeValid = true → HoldsTree s.nodes s.root T → T.size ≤ 513 → OutputTakes s T.header.length →
      exec .ser s = .next (complete { accepted T.header s with result := BitVec.ofNat 32 T.header.length })

/-- DES on a port that gives a header takes exactly its bits and leaves the rest; it stores the tree in pre-order with ROOT 0
and every weight 0, keeps the entries above, counts nodes, leaves and bits, and writes the flags of R48 (R183, R185, R186,
R189). -/
def Obligations.DesReadsTheHeader : Prop :=
  ∀ (s : State) (T : Tree) (rest : Bits), s.err = false → InputGives s T.header rest → T.size ≤ 513 → LegalSymbols T →
    ∃ n', exec .des s = .next (complete { taken T.header.length rest s with
        nodes := n'
        nodecnt := BitVec.ofNat 10 T.size
        root := 0#10
        leafcnt := BitVec.ofNat 9 T.leaves.length
        treeValid := true
        tableValid := false
        decActive := false
        decDone := false
        result := BitVec.ofNat 32 T.header.length }) ∧
      Spans n' 0#10 T ((List.range T.size).map fun k => BitVec.ofNat 10 k) ∧
      (∀ i : NodeIdx, i.toNat < T.size → weightOfNode n' i = 0) ∧
      ∀ i : NodeIdx, T.size ≤ i.toNat → nodeAt n' i = nodeAt s.nodes i

/-- DES at End inside a header: TRUNC_HEADER; the bits stay taken and counted, the tree is gone, RESULT is kept; N is free
(R187, log 4). Said of every bit string that leaves the parse unfinished, and of every unfinished beginning of a tree's header that
completes no field above 256 and takes no 514th shape bit: End at a shape bit or inside a field, in a header that could only go on to
an error as well (log 14). -/
def Obligations.DesDetectsATruncatedHeader : Prop :=
  ∀ s : State, s.err = false → s.inp.ioErr = false → s.inp.ended = true →
    ((∃ st, feed parseBit (Parse.start, s.nodes) s.inp.bits = .dry st) ∨
      ∃ (T : Tree) (more : Bits), T.header = s.inp.bits ++ more ∧ more ≠ [] ∧
        s.inp.bits.length ≤ (T.nodeBits.take 513).flatten.length ∧
        ∀ k v, 256 < v → v < 512 → T.nodeBits[k]? = some (true :: msbBits 9 v) →
          s.inp.bits.length < (T.nodeBits.take (k + 1)).flatten.length) →
    ∃ n' d, exec .des s = .next (errorState 0x31#8 .truncHeader
      { desClear (taken s.inp.bits.length [] s) with nodes := n', draws := d })

/-- Wherever a header stands between two nodes, DES refuses a leaf field of 257..511 after its 9 bits, and with 513 nodes taken it
refuses the shape bit of the 514th (R183, R184, R187). Every header of more than 513 nodes with legal symbols comes to that bit, and
meets no error before it, however many of its nodes are pending (log 14). N is free (log 4). -/
def Obligations.DesRefusesBadHeaders : Prop :=
  ∀ (s : State) (rest : Bits), s.err = false →
    (∀ (bits : Bits) (p : Parse) (nodes : NodeStore),
      feed parseBit (Parse.start, s.nodes) bits = .dry (p, nodes) → p.field = none →
      (p.n < 513 → ∀ v, 256 < v → v < 512 → InputGives s (bits ++ true :: msbBits 9 v) rest → ∃ n' d,
        exec .des s = .next (errorState 0x31#8 .hdrBadSymbol
          { desClear (taken (bits.length + 10) rest s) with nodes := n', draws := d })) ∧
      (p.n = 513 → ∀ b, InputGives s (bits ++ [b]) rest → ∃ n' d,
        exec .des s = .next (errorState 0x31#8 .nodeOverflow
          { desClear (taken (bits.length + 1) rest s) with nodes := n', draws := d }))) ∧
    ∀ (T : Tree) (b : Bool), LegalSymbols T → 513 < T.size →
      InputGives s ((T.nodeBits.take 513).flatten ++ [b]) rest → ∃ n' d,
        exec .des s = .next (errorState 0x31#8 .nodeOverflow
          { desClear (taken ((T.nodeBits.take 513).flatten.length + 1) rest s) with nodes := n', draws := d })

/-- SER followed by DES over the same bits gives a tree of the same shape with the same symbols (R188). -/
def Obligations.SerThenDesKeepsTheTree : Prop :=
  ∀ (s r : State) (T : Tree) (rest : Bits), s.err = false → s.treeValid = true → DescribesTree s T →
    OutputTakes s T.header.length → r.err = false → ∃ s', exec .ser s = .next s' ∧
      ∃ sent, s'.out.stream = s.out.stream ++ sent ∧
        (InputGives r sent rest → ∃ r', exec .des r = .next r' ∧ r'.treeValid = true ∧ DescribesTree r' T ∧
          r'.inp.bits = rest)

/-! ## The code table -/

/-- FLAT on a tree with no symbol twice writes exactly its codes and sets TABLE_VALID; RESULT is LEAFCNT; entries without a leaf
only lose their valid bit; nothing else changes (R201, R39). That those entries keep their length and bits, and that the bits beyond
a code's length are free, is log 7. -/
def Obligations.FlatWritesTheCodes : Prop :=
  ∀ (s : State) (T : Tree), s.err = false → s.treeValid = true → HoldsTree s.nodes s.root T → T.size ≤ 513 →
    LegalSymbols T → T.leaves.Nodup →
    ∃ ct' d, exec .flat s = .next (complete { s with
        ct := ct'
        tableValid := true
        result := s.leafcnt.setWidth 32
        draws := d }) ∧
      HoldsCodes ct' T ∧
      ∀ sym : Sym, sym ∉ T.leaves → codeEntry ct' sym = { codeEntry s.ct sym with valid := false }

/-- FLAT on a tree with a symbol twice raises DUP_SYMBOL: no valid table, the tree and RESULT kept; CT is free (R202, log 5).
Without a tree it raises NO_TREE (R201). -/
def Obligations.FlatRefusesDuplicates : Prop :=
  ∀ s : State, s.err = false →
    (s.treeValid = false → exec .flat s = .next (errorState 0x40#8 .noTree s)) ∧
    ∀ T : Tree, s.treeValid = true → HoldsTree s.nodes s.root T → T.size ≤ 513 → LegalSymbols T → ¬T.leaves.Nodup →
      ∃ ct' d, exec .flat s = .next (errorState 0x40#8 .dupSymbol { s with ct := ct', tableValid := false, draws := d })

/-- After FLAT without error no valid code is a prefix of another symbol's (R203). -/
def Obligations.CodesArePrefixFree : Prop :=
  ∀ (s t : State) (T : Tree), s.err = false → s.treeValid = true → DescribesTree s T → exec .flat s = .next t →
    t.err = false → ∀ a b : Sym, a ≠ b → (codeEntry t.ct a).valid = true → (codeEntry t.ct b).valid = true →
      ¬entryCode (codeEntry t.ct a) <+: entryCode (codeEntry t.ct b)

/-- CLEN and CWORD on a symbol with a code write RESULT and nothing else; NO_TABLE comes before NO_CODE (R205, R206, R306). -/
def Obligations.ClenAndCwordRead : Prop :=
  ∀ (s : State) (sym : Sym) (k : BitVec 3), s.err = false → sym.toNat ≤ 256 →
    (s.tableValid = true → (codeEntry s.ct sym).valid = true →
      exec (.clen sym) s = .next (complete { s with result := (codeEntry s.ct sym).len.setWidth 32 }) ∧
        exec (.cword sym k) s = .next (complete { s with result := codeWord (codeEntry s.ct sym) k.toNat })) ∧
    (s.tableValid = false → exec (.clen sym) s = .next (errorState 0x41#8 .noTable s) ∧
      exec (.cword sym k) s = .next (errorState 0x42#8 .noTable s)) ∧
    (s.tableValid = true → (codeEntry s.ct sym).valid = false →
      exec (.clen sym) s = .next (errorState 0x41#8 .noCode s) ∧
        exec (.cword sym k) s = .next (errorState 0x42#8 .noCode s))

/-- Code bit p stands at bit 31 - (p mod 32) of word p div 32; positions at or after the length read 0 (R207). -/
def Obligations.CwordPacksMsbFirst : Prop :=
  ∀ (e : CodeEntry) (p : Nat), p < 256 →
    (codeWord e (p / 32)).getLsbD (31 - p % 32) = if p < e.len.toNat then e.bits[p]?.getD false else false

/-! ## The encoder -/

/-- ENC gives the symbol's code, root branch first, and RESULT is its length; without a table or a code it raises NO_TABLE or
NO_CODE and gives nothing (R221). -/
def Obligations.EncGivesTheCode : Prop :=
  ∀ (s : State) (sym : Sym), s.err = false → sym.toNat ≤ 256 →
    (s.tableValid = true → (codeEntry s.ct sym).valid = true →
      OutputTakes s (entryCode (codeEntry s.ct sym)).length →
      exec (.enc sym) s = .next (complete { accepted (entryCode (codeEntry s.ct sym)) s with
        result := (codeEntry s.ct sym).len.setWidth 32 })) ∧
    (s.tableValid = false → exec (.enc sym) s = .next (errorState 0x50#8 .noTable s)) ∧
    (s.tableValid = true → (codeEntry s.ct sym).valid = false →
      exec (.enc sym) s = .next (errorState 0x50#8 .noCode s))

/-- PUTB gives the n-bit field MSB-first and changes nothing else; n or v out of range is ILLEGAL_CMD (R223, R105). -/
def Obligations.PutbGivesTheField : Prop :=
  ∀ (s : State) (n : BitVec 5) (v : BitVec 16), s.err = false →
    (1 ≤ n.toNat → n.toNat ≤ 16 → v.toNat < 2 ^ n.toNat → OutputTakes s n.toNat →
      ∃ bits, exec (.putb n v) s = .next (complete (accepted bits s)) ∧ bits.length = n.toNat ∧
        ∀ j, j < n.toNat → bits[j]? = some (v.getLsbD (n.toNat - 1 - j))) ∧
    (n.toNat = 0 ∨ 16 < n.toNat ∨ 2 ^ n.toNat ≤ v.toNat →
      exec (.putb n v) s = .next (errorState 0x51#8 .illegalCmd s))

/-- FLUSH gives the least number of zero bits that brings OUTCNT to a multiple of 8, then flushes the port; RESULT is that
number; nothing else changes (R226). What the flush leaves in the port's record is the model's own (log 12). -/
def Obligations.FlushPadsToAByte : Prop :=
  ∀ s : State, s.err = false → s.out.ioErr = false →
    ∃ p, p < 8 ∧ (s.outcnt.toNat + p) % 8 = 0 ∧ ((∀ r, s.out.room = some r → p < r) →
      ∃ t, exec .flush s = .next t ∧ t = complete { accepted (List.replicate p false) s with
          out := { (accepted (List.replicate p false) s).out with flushed := s.out.stream.length + p }
          result := BitVec.ofNat 32 p } ∧ t.outcnt.toNat % 8 = 0)

/-! ## The decoder -/

/-- DSTART arms the decoder at ROOT on any tree but a lone literal leaf, which is DEGENERATE_TREE; without a tree it is NO_TREE
(R241). -/
def Obligations.DstartArmsTheDecoder : Prop :=
  ∀ (s : State) (nd : Node), s.err = false →
    (s.treeValid = false → exec .dstart s = .next (errorState 0x60#8 .noTree s)) ∧
    (s.treeValid = true → nodeAt s.nodes s.root = some nd →
      ((∀ sym wt, nd = .leaf sym wt → sym = 256#9) →
        exec .dstart s = .next (complete { s with cursor := s.root, decActive := true, decDone := false })) ∧
      (∀ sym wt, nd = .leaf sym wt → sym ≠ 256#9 →
        exec .dstart s = .next (errorState 0x60#8 .degenerateTree s)))

/-- DSYM on a port that gives a symbol's code takes exactly the code and returns the symbol, with CURSOR at ROOT; EOS ends the
decode. On a lone leaf no bit is taken, whatever the port would answer. Unarmed it is DEC_STATE (R242, R243). -/
def Obligations.DsymDecodesACode : Prop :=
  ∀ (s : State) (T : Tree), s.err = false →
    (s.decActive = false → exec .dsym s = .next (errorState 0x61#8 .decState s)) ∧
    (s.decActive = true → HoldsTree s.nodes s.cursor T → ∀ c ∈ T.codes,
      (∀ rest, InputGives s c.2 rest →
        exec .dsym s = .next (complete { taken c.2.length rest s with
          result := c.1.setWidth 32
          cursor := s.root
          decActive := decide (c.1 ≠ 256#9)
          decDone := if c.1 = 256#9 then true else s.decDone })) ∧
      (c.2 = [] → exec .dsym s = .next (complete { s with
          result := c.1.setWidth 32
          cursor := s.root
          decActive := decide (c.1 ≠ 256#9)
          decDone := if c.1 = 256#9 then true else s.decDone })))

/-- DSYM at End before a leaf: TRUNC_PAYLOAD; the bits stay taken and counted, RESULT and the decoder flags are kept; CURSOR is
free (R243, log 6). -/
def Obligations.DsymDetectsATruncatedPayload : Prop :=
  ∀ (s : State) (T : Tree), s.err = false → s.decActive = true → HoldsTree s.nodes s.cursor T →
    s.inp.ioErr = false → s.inp.ended = true → (∀ c ∈ T.codes, ¬c.2 <+: s.inp.bits) →
    ∃ c d, exec .dsym s = .next (errorState 0x61#8 .truncPayload
      { taken s.inp.bits.length [] s with cursor := c, draws := d })

/-- GETB takes n bits MSB-first into RESULT; with fewer bits before End, TRUNC_RAW, and they stay taken; n out of range is
ILLEGAL_CMD (R245, R81). -/
def Obligations.GetbReadsTheField : Prop :=
  ∀ (s : State) (n : BitVec 5), s.err = false →
    (1 ≤ n.toNat → n.toNat ≤ 16 →
      (∀ field rest, InputGives s field rest → field.length = n.toNat → ∃ v : Word,
        exec (.getb n) s = .next (complete { taken n.toNat rest s with result := v }) ∧
          (∀ j, j < n.toNat → field[j]? = some (v.getLsbD (n.toNat - 1 - j))) ∧ v.toNat < 2 ^ n.toNat) ∧
      (s.inp.ioErr = false → s.inp.ended = true → s.inp.bits.length < n.toNat →
        exec (.getb n) s = .next (errorState 0x62#8 .truncRaw (taken s.inp.bits.length [] s)))) ∧
    (n.toNat = 0 ∨ 16 < n.toNat → exec (.getb n) s = .next (errorState 0x62#8 .illegalCmd s))

/-! ## Inspection -/

/-- NGET, NWLO and NWHI on a node in use write RESULT and nothing else; NO_TREE comes before BAD_INDEX (R262, R263, R264,
R306). -/
def Obligations.InspectionReadsNodes : Prop :=
  ∀ (s : State) (x : NodeIdx) (nd : Node), s.err = false →
    (s.treeValid = true → x.toNat < s.nodecnt.toNat → nodeAt s.nodes x = some nd →
      exec (.nget x) s = .next (complete { s with result := packNode nd }) ∧
        exec (.nwlo x) s = .next (complete { s with result := (nodeWeight nd).extractLsb' 0 32 }) ∧
        exec (.nwhi x) s = .next (complete { s with result := ((nodeWeight nd).extractLsb' 32 9).setWidth 32 })) ∧
    (s.treeValid = false → exec (.nget x) s = .next (errorState 0x70#8 .noTree s) ∧
      exec (.nwlo x) s = .next (errorState 0x71#8 .noTree s) ∧
      exec (.nwhi x) s = .next (errorState 0x72#8 .noTree s)) ∧
    (s.treeValid = true → s.nodecnt.toNat ≤ x.toNat → exec (.nget x) s = .next (errorState 0x70#8 .badIndex s) ∧
      exec (.nwlo x) s = .next (errorState 0x71#8 .badIndex s) ∧
      exec (.nwhi x) s = .next (errorState 0x72#8 .badIndex s))

/-- The packing of a node, field by field (R265). -/
def Obligations.NodesArePacked : Prop :=
  (∀ (sym : Sym) (wt : Weight), packNode (.leaf sym wt) = 0x80000000#32 ||| sym.setWidth 32 ∧
    (packNode (.leaf sym wt)).extractLsb' 0 9 = sym ∧ (packNode (.leaf sym wt)).extractLsb' 9 23 = 0x400000#23) ∧
  ∀ (l r : NodeIdx) (wt : Weight),
    packNode (.internal l r wt) = (l.setWidth 32 <<< 20) ||| (r.setWidth 32 <<< 10) ∧
      (packNode (.internal l r wt)).extractLsb' 30 2 = 0#2 ∧ (packNode (.internal l r wt)).extractLsb' 20 10 = l ∧
      (packNode (.internal l r wt)).extractLsb' 10 10 = r ∧ (packNode (.internal l r wt)).extractLsb' 0 10 = 0#10

/-! ## Ports and holds -/

/-- A pending I/O error ends the command that next gives or takes with IO_ERROR, with nothing given or taken and RESULT kept
(R80, R82, R300). That the error is met before any bit, and by one command only, is the model's choice (log 10); N after DES
and CURSOR after DSYM are free (log 4, log 6). -/
def Obligations.PortErrorsAbort : Prop :=
  ∀ s : State, s.err = false →
    (s.out.ioErr = true →
      (∀ n v, (Instr.putb n v).wellFormed = true →
        exec (.putb n v) s = .next (errorState 0x51#8 .ioError (outputErrorTaken s))) ∧
      exec .flush s = .next (errorState 0x52#8 .ioError (outputErrorTaken s)) ∧
      (∀ sym, sym.toNat ≤ 256 → s.tableValid = true → (codeEntry s.ct sym).valid = true →
        (codeEntry s.ct sym).len ≠ 0#9 →
        exec (.enc sym) s = .next (errorState 0x50#8 .ioError (outputErrorTaken s))) ∧
      (s.treeValid = true → (∃ nd, nodeAt s.nodes s.root = some nd) →
        exec .ser s = .next (errorState 0x30#8 .ioError (outputErrorTaken s)))) ∧
    (s.inp.ioErr = true →
      (∀ n, (Instr.getb n).wellFormed = true →
        exec (.getb n) s = .next (errorState 0x62#8 .ioError { s with inp := { s.inp with ioErr := false } })) ∧
      (∃ n' d, exec .des s = .next (errorState 0x31#8 .ioError
        { desClear s with inp := { s.inp with ioErr := false }, nodes := n', draws := d })) ∧
      (s.decActive = true → (∃ l r wt, nodeAt s.nodes s.cursor = some (.internal l r wt)) → ∃ c d,
        exec .dsym s = .next (errorState 0x61#8 .ioError
          { s with inp := { s.inp with ioErr := false }, cursor := c, draws := d })))

/-- Every command that takes from a port that runs Empty is held, with BUSY and HELD_IN 1 and the bits there were taken and counted:
GETB, DES inside a header, DSYM before a leaf, where CURSOR stands on the node those bits lead to. Every command that gives to a port
that runs Full is held, with BUSY and HELD_OUT 1 and the bits that fit given and counted: PUTB, SER, ENC, and FLUSH in its pad or, its
pad given, at the port flush (log 12). None raises an error, and RESULT and all else are kept (R43, R84, R181, R185, R221, R223, R226,
R243, R245). What the held command keeps, with DES the nodes it has made, is in the model's form (log 23). -/
def Obligations.EmptyAndFullPortsHold : Prop :=
  ∀ s : State, s.err = false →
    (s.inp.ioErr = false → s.inp.ended = false →
      (∀ n, (Instr.getb n).wellFormed = true → s.inp.bits.length < n.toNat → ∃ j,
        exec (.getb n) s = .next { taken s.inp.bits.length [] s with
          busy := true
          heldIn := true
          heldOut := false
          job := some j } ∧ Job.takesInput j = true) ∧
      (∀ p nodes, feed parseBit (Parse.start, s.nodes) s.inp.bits = .dry (p, nodes) → ∃ j,
        exec .des s = .next { desClear (taken s.inp.bits.length [] s) with
          nodes := nodes
          busy := true
          heldIn := true
          heldOut := false
          job := some j } ∧ Job.takesInput j = true) ∧
      ∀ T, s.decActive = true → HoldsTree s.nodes s.cursor T → (∀ c ∈ T.codes, ¬c.2 <+: s.inp.bits) → ∃ j c T',
        exec .dsym s = .next { taken s.inp.bits.length [] s with
          cursor := c
          busy := true
          heldIn := true
          heldOut := false
          job := some j } ∧ Job.takesInput j = true ∧ HoldsTree s.nodes c T' ∧
          ∀ sym rest, (sym, rest) ∈ T'.codes ↔ (sym, s.inp.bits ++ rest) ∈ T.codes) ∧
    ∀ r, s.out.ioErr = false → s.out.room = some r →
      (∀ n v, (Instr.putb n v).wellFormed = true → r < n.toNat → ∃ j,
        exec (.putb n v) s = .next { accepted ((msbBits n.toNat v.toNat).take r) s with
          busy := true
          heldIn := false
          heldOut := true
          job := some j } ∧ Job.takesInput j = false) ∧
      (∀ T, s.treeValid = true → HoldsTree s.nodes s.root T → T.size ≤ 513 → r < T.header.length → ∃ j,
        exec .ser s = .next { accepted (T.header.take r) s with
          busy := true
          heldIn := false
          heldOut := true
          job := some j } ∧ Job.takesInput j = false) ∧
      (∀ sym, sym.toNat ≤ 256 → s.tableValid = true → (codeEntry s.ct sym).valid = true →
        r < (entryCode (codeEntry s.ct sym)).length → ∃ j,
        exec (.enc sym) s = .next { accepted ((entryCode (codeEntry s.ct sym)).take r) s with
          busy := true
          heldIn := false
          heldOut := true
          job := some j } ∧ Job.takesInput j = false) ∧
      ∃ p, p < 8 ∧ (s.outcnt.toNat + p) % 8 = 0 ∧ (r ≤ p → ∃ j,
        exec .flush s = .next { accepted (List.replicate r false) s with
          busy := true
          heldIn := false
          heldOut := true
          job := some j } ∧ Job.takesInput j = false)

/-- The host's moves on the input port: supplied bits come behind those there are, and do not arrive after End; End, once signalled,
stays through every command and every move but the port's re-initialisation, and so do the bits, none added; an I/O error is
pending (R80, R85, log 11; what re-initialising leaves is log 22). A command held on the input port and then supplied ends as if all
the bits had been there at once (R84, R187). If the port signals End instead, DES raises TRUNC_HEADER, DSYM TRUNC_PAYLOAD and GETB
TRUNC_RAW, and at an I/O error each raises IO_ERROR; what it had taken stays taken, and nothing but the error and what the rules leave
unspecified changes (R187, R243, R245). That the error is then no longer pending is log 10; N after DES and CURSOR after DSYM are free
(log 4, log 6). -/
def Obligations.HeldInputCommandsGoOn : Prop :=
  (∀ s : State,
    (∀ bs, hostMove (.supply bs) s = .next (supplied bs s) ∧
      (s.inp.ended = false → supplied bs s = { s with inp := { s.inp with bits := s.inp.bits ++ bs } }) ∧
      (s.inp.ended = true → supplied bs s = s)) ∧
    hostMove .signalEnd s = .next { s with inp := { s.inp with ended := true } } ∧
    hostMove .inputError s = .next { s with inp := { s.inp with ioErr := true } } ∧
    hostMove .reopenInput s = .next { s with inp := ⟨[], false, false⟩ } ∧
    ∀ t, s.inp.ended = true →
      ((∃ i, exec i s = .next t) ∨ (∃ j, resume j s = .next t) ∨ ∃ m, m ≠ .reopenInput ∧ hostMove m s = .next t) →
      t.inp.ended = true ∧ ∃ used, s.inp.bits = used ++ t.inp.bits) ∧
  (∀ (i : Instr) (s h : State) (j : Job) (more : Bits), (i = .des ∨ i = .dsym ∨ ∃ n, i = .getb n) →
    exec i s = .next h → h.job = some j →
    exec i { s with inp := { s.inp with bits := s.inp.bits ++ more } } = resume j (supplied more h)) ∧
  ∀ (h : State) (j : Job), ((∃ i s, exec i s = .next h) ∨ ∃ j' s, resume j' s = .next h) → h.job = some j →
    (∀ p start, j = .des p start →
      (∃ n' d, resume j { h with inp := { h.inp with ended := true } } = .next (errorState 0x31#8 .truncHeader
        { h with inp := { h.inp with ended := true }, nodes := n', draws := d })) ∧
      ∃ n' d, resume j { h with inp := { h.inp with ioErr := true } } = .next (errorState 0x31#8 .ioError
        { h with nodes := n', draws := d })) ∧
    (j = .dsym →
      (∃ c d, resume j { h with inp := { h.inp with ended := true } } = .next (errorState 0x61#8 .truncPayload
        { h with inp := { h.inp with ended := true }, cursor := c, draws := d })) ∧
      ∃ c d, resume j { h with inp := { h.inp with ioErr := true } } = .next (errorState 0x61#8 .ioError
        { h with cursor := c, draws := d })) ∧
    ∀ missing value, j = .getb missing value →
      resume j { h with inp := { h.inp with ended := true } } = .next (errorState 0x62#8 .truncRaw
        { h with inp := { h.inp with ended := true } }) ∧
      resume j { h with inp := { h.inp with ioErr := true } } = .next (errorState 0x62#8 .ioError h)

/-- The host's moves on the output port: draining makes room, an I/O error is pending, a port becomes Full (R82, R85, log 22). A
command held on the output port and then given room ends as if the room had been there at once (R84). At an I/O error instead it
raises IO_ERROR with its own opcode, the bits accepted before it stay in the stream and in OUTCNT, and nothing but the error changes
(R181, R221, R223, R226); that the error is then no longer pending is log 10. That FLUSH, its pad given, is held at the port flush
exactly while the port takes no bit is log 12. -/
def Obligations.HeldOutputCommandsGoOn : Prop :=
  (∀ s : State,
    (∀ n, hostMove (.drain n) s = .next (drained n s) ∧
      (∀ r, s.out.room = some r → drained n s = { s with out := { s.out with room := some (r + n) } }) ∧
      (s.out.room = none → drained n s = s)) ∧
    hostMove .outputError s = .next { s with out := { s.out with ioErr := true } } ∧
    hostMove .stallOutput s = .next { s with out := { s.out with room := some 0 } }) ∧
  (∀ (i : Instr) (s h : State) (j : Job) (r n : Nat),
    (i = .flush ∨ (∃ sym, i = .enc sym) ∨ (∃ k v, i = .putb k v) ∨ (i = .ser ∧ TreeInvariant s)) →
    s.out.room = some r → exec i s = .next h → h.job = some j →
    exec i { s with out := { s.out with room := some (r + n) } } = resume j (drained n h)) ∧
  ∀ (h : State) (j : Job), ((∃ i s, exec i s = .next h) ∨ ∃ j' s, resume j' s = .next h) → h.job = some j →
    (∀ rest stack count, j = .ser rest stack count →
      resume j { h with out := { h.out with ioErr := true } } = .next (errorState 0x30#8 .ioError h)) ∧
    (∀ rest len, j = .enc rest len →
      resume j { h with out := { h.out with ioErr := true } } = .next (errorState 0x50#8 .ioError h)) ∧
    (∀ rest, j = .putb rest →
      resume j { h with out := { h.out with ioErr := true } } = .next (errorState 0x51#8 .ioError h)) ∧
    ∀ rest pad, j = .flush rest pad →
      resume j { h with out := { h.out with ioErr := true } } = .next (errorState 0x52#8 .ioError h)

/-! ## Rules about all commands -/

/-- Only the commands with a RESULT line write RESULT; every other command, and every command that ends in an error, leaves it
unchanged; RESET writes 0 (R34). The same of a held command that goes on, from a state without an error, as every held command's
is (StepKeepsTheFlagInvariant); and a command leaves RESULT unchanged while it is held. -/
def Obligations.OnlyResultCommandsWriteResult : Prop :=
  (∀ s t : State, exec .reset s = .next t → t.result = 0#32) ∧
    (∀ (i : Instr) (s t : State), i ≠ .reset → exec i s = .next t →
      ((∀ sym k n x, i ≠ .wget sym ∧ i ≠ .build ∧ i ≠ .ser ∧ i ≠ .des ∧ i ≠ .flat ∧ i ≠ .clen sym ∧ i ≠ .cword sym k ∧
          i ≠ .enc sym ∧ i ≠ .flush ∧ i ≠ .dsym ∧ i ≠ .getb n ∧ i ≠ .nget x ∧ i ≠ .nwlo x ∧ i ≠ .nwhi x) ∨
        t.err = true ∨ t.job.isSome = true) → t.result = s.result) ∧
    ∀ (j : Job) (s t : State), s.err = false → resume j s = .next t →
      ((∃ rest, j = .putb rest) ∨ t.err = true ∨ t.job.isSome = true) → t.result = s.result

/-- W and ARG: only WCLR, COUNT, CFIN, WSET and RESET change W, only LDAL, LDAH and RESET change ARG, and a held command that goes
on changes neither (R32, R33, R48). No command but RESET changes the model's own fields of the host's side either: the script, the
stalled CMD writes (R86) and the last value read (log 1, log 21). -/
def Obligations.OnlyLoadersWriteWeightsAndArg : Prop :=
  (∀ (i : Instr) (s t : State), i ≠ .reset → exec i s = .next t →
    ((∀ b sym, i ≠ .wclr ∧ i ≠ .count b ∧ i ≠ .cfin ∧ i ≠ .wset sym) → t.w = s.w) ∧
      ((∀ v, i ≠ .ldal v ∧ i ≠ .ldah v) → t.arg = s.arg) ∧
      t.moves = s.moves ∧ t.stalled = s.stalled ∧ t.rdata = s.rdata) ∧
    ∀ (j : Job) (s t : State), resume j s = .next t →
      t.w = s.w ∧ t.arg = s.arg ∧ t.moves = s.moves ∧ t.stalled = s.stalled ∧ t.rdata = s.rdata

/-- Only BUILD, DES and RESET change the tree, only FLAT and these the code table, only DSTART, DSYM and these the decoder's
state; of held commands that go on, only DES changes the tree, only DSYM the decoder's state, and none the code table (R35, R36, R38,
R40, R48). That CURSOR is kept by every command that R48 does not list with it, where R40 calls it ROOT or unspecified between
commands, is the model's reading (log 24). -/
def Obligations.OnlyTheirCommandsWriteTreeTableDecoder : Prop :=
  (∀ (i : Instr) (s t : State), i ≠ .reset → i ≠ .build → i ≠ .des → exec i s = .next t →
    (t.treeValid = s.treeValid ∧ t.nodes = s.nodes ∧ t.nodecnt = s.nodecnt ∧ t.root = s.root ∧ t.leafcnt = s.leafcnt) ∧
      (i ≠ .flat → t.ct = s.ct ∧ t.tableValid = s.tableValid) ∧
      (i ≠ .dstart → i ≠ .dsym → t.decActive = s.decActive ∧ t.decDone = s.decDone ∧ t.cursor = s.cursor)) ∧
    ∀ (j : Job) (s t : State), resume j s = .next t →
      ((∀ p start, j ≠ .des p start) → t.treeValid = s.treeValid ∧ t.nodes = s.nodes ∧ t.nodecnt = s.nodecnt ∧
        t.root = s.root ∧ t.leafcnt = s.leafcnt) ∧
      (t.ct = s.ct ∧ t.tableValid = s.tableValid) ∧
      (j ≠ .dsym → t.decActive = s.decActive ∧ t.decDone = s.decDone ∧ t.cursor = s.cursor)

/-- Bits are appended to the output stream and taken from the front of the input port, and OUTCNT and INCNT count exactly them,
whichever command or held command runs and however it ends (R42, R77, R91). -/
def Obligations.CountersCountTheStreams : Prop :=
  ∀ s t : State, ((∃ i, i ≠ .reset ∧ exec i s = .next t) ∨ ∃ j, resume j s = .next t) →
    (∃ given, t.out.stream = s.out.stream ++ given ∧ t.outcnt = s.outcnt + BitVec.ofNat 32 given.length) ∧
      ∃ used, s.inp.bits = used ++ t.inp.bits ∧ t.incnt = s.incnt + BitVec.ofNat 32 used.length

/-- No command but RESET leaves the error state, and none changes the first error (R41, R309). -/
def Obligations.TheFirstErrorStays : Prop :=
  ∀ (i : Instr) (s t : State), i ≠ .reset → exec i s = .next t → s.err = true →
    t.err = true ∧ t.errcode = s.errcode ∧ t.errop = s.errop

/-! ## Invariants -/

/-- The reset state satisfies every invariant (R37, R39, R40, R43, R343). -/
def Obligations.ResetStateIsInvariant : Prop := Invariant State.reset

/-- The flags hang together after every step (R40, R43, R48, R240, R242, R300, R310). -/
def Obligations.StepKeepsTheFlagInvariant : Prop :=
  ∀ s t : State, FlagInvariant s → step s = .next t → FlagInvariant t

/-- The tree invariant, the code table invariant and what goes with them hold after every step (R37, R39, R47). -/
def Obligations.StepKeepsTheInvariant : Prop :=
  ∀ s t : State, Invariant s → step s = .next t → Invariant t

/-- No step from a state of the invariants ends in the model's fault `brokenTree` (log 17): no command reads a node at an index
outside the 513-entry store, no walk takes a bit at a node that is not internal, and no traversal visits more than NODE_CAP nodes
(R71, R204). That fault is all it speaks of; that the tree's indices are those below NODECNT is the tree invariant itself (R37,
StepKeepsTheInvariant). -/
def Obligations.NoStepLeavesTheTree : Prop :=
  ∀ s : State, Invariant s → NotBroken (step s)
end

