-- ==== Sys2Proof/Laws/State.lean ====
section
/-! SUPPORT. One lemma per field per update: what each named update of the state leaves in each field. -/

namespace Sys2Proof.Machine

@[simp] theorem complete_w (s : State) : (complete s).w = s.w := rfl
@[simp] theorem complete_arg (s : State) : (complete s).arg = s.arg := rfl
@[simp] theorem complete_result (s : State) : (complete s).result = s.result := rfl
@[simp] theorem complete_nodes (s : State) : (complete s).nodes = s.nodes := rfl
@[simp] theorem complete_nodecnt (s : State) : (complete s).nodecnt = s.nodecnt := rfl
@[simp] theorem complete_root (s : State) : (complete s).root = s.root := rfl
@[simp] theorem complete_leafcnt (s : State) : (complete s).leafcnt = s.leafcnt := rfl
@[simp] theorem complete_treeValid (s : State) : (complete s).treeValid = s.treeValid := rfl
@[simp] theorem complete_ct (s : State) : (complete s).ct = s.ct := rfl
@[simp] theorem complete_tableValid (s : State) : (complete s).tableValid = s.tableValid := rfl
@[simp] theorem complete_decActive (s : State) : (complete s).decActive = s.decActive := rfl
@[simp] theorem complete_decDone (s : State) : (complete s).decDone = s.decDone := rfl
@[simp] theorem complete_cursor (s : State) : (complete s).cursor = s.cursor := rfl
@[simp] theorem complete_err (s : State) : (complete s).err = s.err := rfl
@[simp] theorem complete_errcode (s : State) : (complete s).errcode = s.errcode := rfl
@[simp] theorem complete_errop (s : State) : (complete s).errop = s.errop := rfl
@[simp] theorem complete_outcnt (s : State) : (complete s).outcnt = s.outcnt := rfl
@[simp] theorem complete_incnt (s : State) : (complete s).incnt = s.incnt := rfl
@[simp] theorem complete_busy (s : State) : (complete s).busy = false := rfl
@[simp] theorem complete_heldIn (s : State) : (complete s).heldIn = false := rfl
@[simp] theorem complete_heldOut (s : State) : (complete s).heldOut = false := rfl
@[simp] theorem complete_job (s : State) : (complete s).job = none := rfl
@[simp] theorem complete_inp (s : State) : (complete s).inp = s.inp := rfl
@[simp] theorem complete_out (s : State) : (complete s).out = s.out := rfl
@[simp] theorem complete_moves (s : State) : (complete s).moves = s.moves := rfl
@[simp] theorem complete_stalled (s : State) : (complete s).stalled = s.stalled := rfl
@[simp] theorem complete_rdata (s : State) : (complete s).rdata = s.rdata := rfl
@[simp] theorem complete_draws (s : State) : (complete s).draws = s.draws := rfl

@[simp] theorem begun_w (s : State) : (begun s).w = s.w := rfl
@[simp] theorem begun_arg (s : State) : (begun s).arg = s.arg := rfl
@[simp] theorem begun_result (s : State) : (begun s).result = s.result := rfl
@[simp] theorem begun_nodes (s : State) : (begun s).nodes = s.nodes := rfl
@[simp] theorem begun_nodecnt (s : State) : (begun s).nodecnt = s.nodecnt := rfl
@[simp] theorem begun_root (s : State) : (begun s).root = s.root := rfl
@[simp] theorem begun_leafcnt (s : State) : (begun s).leafcnt = s.leafcnt := rfl
@[simp] theorem begun_treeValid (s : State) : (begun s).treeValid = s.treeValid := rfl
@[simp] theorem begun_ct (s : State) : (begun s).ct = s.ct := rfl
@[simp] theorem begun_tableValid (s : State) : (begun s).tableValid = s.tableValid := rfl
@[simp] theorem begun_decActive (s : State) : (begun s).decActive = s.decActive := rfl
@[simp] theorem begun_decDone (s : State) : (begun s).decDone = s.decDone := rfl
@[simp] theorem begun_cursor (s : State) : (begun s).cursor = s.cursor := rfl
@[simp] theorem begun_err (s : State) : (begun s).err = s.err := rfl
@[simp] theorem begun_errcode (s : State) : (begun s).errcode = s.errcode := rfl
@[simp] theorem begun_errop (s : State) : (begun s).errop = s.errop := rfl
@[simp] theorem begun_outcnt (s : State) : (begun s).outcnt = s.outcnt := rfl
@[simp] theorem begun_incnt (s : State) : (begun s).incnt = s.incnt := rfl
@[simp] theorem begun_busy (s : State) : (begun s).busy = true := rfl
@[simp] theorem begun_heldIn (s : State) : (begun s).heldIn = s.heldIn := rfl
@[simp] theorem begun_heldOut (s : State) : (begun s).heldOut = s.heldOut := rfl
@[simp] theorem begun_job (s : State) : (begun s).job = s.job := rfl
@[simp] theorem begun_inp (s : State) : (begun s).inp = s.inp := rfl
@[simp] theorem begun_out (s : State) : (begun s).out = s.out := rfl
@[simp] theorem begun_moves (s : State) : (begun s).moves = s.moves := rfl
@[simp] theorem begun_stalled (s : State) : (begun s).stalled = s.stalled := rfl
@[simp] theorem begun_rdata (s : State) : (begun s).rdata = s.rdata := rfl
@[simp] theorem begun_draws (s : State) : (begun s).draws = s.draws := rfl

@[simp] theorem errorState_w (op : Opcode) (e : ErrCode) (s : State) : (errorState op e s).w = s.w := rfl
@[simp] theorem errorState_arg (op : Opcode) (e : ErrCode) (s : State) : (errorState op e s).arg = s.arg := rfl
@[simp] theorem errorState_result (op : Opcode) (e : ErrCode) (s : State) : (errorState op e s).result = s.result := rfl
@[simp] theorem errorState_nodes (op : Opcode) (e : ErrCode) (s : State) : (errorState op e s).nodes = s.nodes := rfl
@[simp] theorem errorState_nodecnt (op : Opcode) (e : ErrCode) (s : State) : (errorState op e s).nodecnt = s.nodecnt := rfl
@[simp] theorem errorState_root (op : Opcode) (e : ErrCode) (s : State) : (errorState op e s).root = s.root := rfl
@[simp] theorem errorState_leafcnt (op : Opcode) (e : ErrCode) (s : State) : (errorState op e s).leafcnt = s.leafcnt := rfl
@[simp] theorem errorState_treeValid (op : Opcode) (e : ErrCode) (s : State) : (errorState op e s).treeValid = s.treeValid := rfl
@[simp] theorem errorState_ct (op : Opcode) (e : ErrCode) (s : State) : (errorState op e s).ct = s.ct := rfl
@[simp] theorem errorState_tableValid (op : Opcode) (e : ErrCode) (s : State) : (errorState op e s).tableValid = s.tableValid := rfl
@[simp] theorem errorState_decActive (op : Opcode) (e : ErrCode) (s : State) : (errorState op e s).decActive = s.decActive := rfl
@[simp] theorem errorState_decDone (op : Opcode) (e : ErrCode) (s : State) : (errorState op e s).decDone = s.decDone := rfl
@[simp] theorem errorState_cursor (op : Opcode) (e : ErrCode) (s : State) : (errorState op e s).cursor = s.cursor := rfl
@[simp] theorem errorState_err (op : Opcode) (e : ErrCode) (s : State) : (errorState op e s).err = true := rfl
@[simp] theorem errorState_errcode (op : Opcode) (e : ErrCode) (s : State) : (errorState op e s).errcode = e.code := rfl
@[simp] theorem errorState_errop (op : Opcode) (e : ErrCode) (s : State) : (errorState op e s).errop = op := rfl
@[simp] theorem errorState_outcnt (op : Opcode) (e : ErrCode) (s : State) : (errorState op e s).outcnt = s.outcnt := rfl
@[simp] theorem errorState_incnt (op : Opcode) (e : ErrCode) (s : State) : (errorState op e s).incnt = s.incnt := rfl
@[simp] theorem errorState_busy (op : Opcode) (e : ErrCode) (s : State) : (errorState op e s).busy = false := rfl
@[simp] theorem errorState_heldIn (op : Opcode) (e : ErrCode) (s : State) : (errorState op e s).heldIn = false := rfl
@[simp] theorem errorState_heldOut (op : Opcode) (e : ErrCode) (s : State) : (errorState op e s).heldOut = false := rfl
@[simp] theorem errorState_job (op : Opcode) (e : ErrCode) (s : State) : (errorState op e s).job = none := rfl
@[simp] theorem errorState_inp (op : Opcode) (e : ErrCode) (s : State) : (errorState op e s).inp = s.inp := rfl
@[simp] theorem errorState_out (op : Opcode) (e : ErrCode) (s : State) : (errorState op e s).out = s.out := rfl
@[simp] theorem errorState_moves (op : Opcode) (e : ErrCode) (s : State) : (errorState op e s).moves = s.moves := rfl
@[simp] theorem errorState_stalled (op : Opcode) (e : ErrCode) (s : State) : (errorState op e s).stalled = s.stalled := rfl
@[simp] theorem errorState_rdata (op : Opcode) (e : ErrCode) (s : State) : (errorState op e s).rdata = s.rdata := rfl
@[simp] theorem errorState_draws (op : Opcode) (e : ErrCode) (s : State) : (errorState op e s).draws = s.draws := rfl

@[simp] theorem resetBlock_w (s : State) : (resetBlock s).w = Vector.replicate 257 0#32 := rfl
@[simp] theorem resetBlock_arg (s : State) : (resetBlock s).arg = 0#32 := rfl
@[simp] theorem resetBlock_result (s : State) : (resetBlock s).result = 0#32 := rfl
@[simp] theorem resetBlock_nodes (s : State) : (resetBlock s).nodes = Config.freeNodes s.draws := rfl
@[simp] theorem resetBlock_nodecnt (s : State) : (resetBlock s).nodecnt = 0#10 := rfl
@[simp] theorem resetBlock_root (s : State) : (resetBlock s).root = 0#10 := rfl
@[simp] theorem resetBlock_leafcnt (s : State) : (resetBlock s).leafcnt = 0#9 := rfl
@[simp] theorem resetBlock_treeValid (s : State) : (resetBlock s).treeValid = false := rfl
@[simp] theorem resetBlock_ct (s : State) : (resetBlock s).ct = Config.freeTable s.draws := rfl
@[simp] theorem resetBlock_tableValid (s : State) : (resetBlock s).tableValid = false := rfl
@[simp] theorem resetBlock_decActive (s : State) : (resetBlock s).decActive = false := rfl
@[simp] theorem resetBlock_decDone (s : State) : (resetBlock s).decDone = false := rfl
@[simp] theorem resetBlock_cursor (s : State) : (resetBlock s).cursor = Config.freeCursor s.draws := rfl
@[simp] theorem resetBlock_err (s : State) : (resetBlock s).err = false := rfl
@[simp] theorem resetBlock_errcode (s : State) : (resetBlock s).errcode = 0#8 := rfl
@[simp] theorem resetBlock_errop (s : State) : (resetBlock s).errop = 0#8 := rfl
@[simp] theorem resetBlock_outcnt (s : State) : (resetBlock s).outcnt = 0#32 := rfl
@[simp] theorem resetBlock_incnt (s : State) : (resetBlock s).incnt = 0#32 := rfl
@[simp] theorem resetBlock_busy (s : State) : (resetBlock s).busy = false := rfl
@[simp] theorem resetBlock_heldIn (s : State) : (resetBlock s).heldIn = false := rfl
@[simp] theorem resetBlock_heldOut (s : State) : (resetBlock s).heldOut = false := rfl
@[simp] theorem resetBlock_job (s : State) : (resetBlock s).job = none := rfl
@[simp] theorem resetBlock_inp (s : State) : (resetBlock s).inp = s.inp := rfl
@[simp] theorem resetBlock_out (s : State) : (resetBlock s).out = s.out := rfl
@[simp] theorem resetBlock_moves (s : State) : (resetBlock s).moves = s.moves := rfl
@[simp] theorem resetBlock_stalled (s : State) : (resetBlock s).stalled = s.stalled := rfl
@[simp] theorem resetBlock_rdata (s : State) : (resetBlock s).rdata = s.rdata := rfl
@[simp] theorem resetBlock_draws (s : State) : (resetBlock s).draws = s.draws + 1 := rfl

@[simp] theorem setWeight_w (i : Nat) (v : Word) (s : State) : (setWeight i v s).w = s.w.setIfInBounds i v := rfl
@[simp] theorem setWeight_arg (i : Nat) (v : Word) (s : State) : (setWeight i v s).arg = s.arg := rfl
@[simp] theorem setWeight_result (i : Nat) (v : Word) (s : State) : (setWeight i v s).result = s.result := rfl
@[simp] theorem setWeight_nodes (i : Nat) (v : Word) (s : State) : (setWeight i v s).nodes = s.nodes := rfl
@[simp] theorem setWeight_nodecnt (i : Nat) (v : Word) (s : State) : (setWeight i v s).nodecnt = s.nodecnt := rfl
@[simp] theorem setWeight_root (i : Nat) (v : Word) (s : State) : (setWeight i v s).root = s.root := rfl
@[simp] theorem setWeight_leafcnt (i : Nat) (v : Word) (s : State) : (setWeight i v s).leafcnt = s.leafcnt := rfl
@[simp] theorem setWeight_treeValid (i : Nat) (v : Word) (s : State) : (setWeight i v s).treeValid = s.treeValid := rfl
@[simp] theorem setWeight_ct (i : Nat) (v : Word) (s : State) : (setWeight i v s).ct = s.ct := rfl
@[simp] theorem setWeight_tableValid (i : Nat) (v : Word) (s : State) : (setWeight i v s).tableValid = s.tableValid := rfl
@[simp] theorem setWeight_decActive (i : Nat) (v : Word) (s : State) : (setWeight i v s).decActive = s.decActive := rfl
@[simp] theorem setWeight_decDone (i : Nat) (v : Word) (s : State) : (setWeight i v s).decDone = s.decDone := rfl
@[simp] theorem setWeight_cursor (i : Nat) (v : Word) (s : State) : (setWeight i v s).cursor = s.cursor := rfl
@[simp] theorem setWeight_err (i : Nat) (v : Word) (s : State) : (setWeight i v s).err = s.err := rfl
@[simp] theorem setWeight_errcode (i : Nat) (v : Word) (s : State) : (setWeight i v s).errcode = s.errcode := rfl
@[simp] theorem setWeight_errop (i : Nat) (v : Word) (s : State) : (setWeight i v s).errop = s.errop := rfl
@[simp] theorem setWeight_outcnt (i : Nat) (v : Word) (s : State) : (setWeight i v s).outcnt = s.outcnt := rfl
@[simp] theorem setWeight_incnt (i : Nat) (v : Word) (s : State) : (setWeight i v s).incnt = s.incnt := rfl
@[simp] theorem setWeight_busy (i : Nat) (v : Word) (s : State) : (setWeight i v s).busy = s.busy := rfl
@[simp] theorem setWeight_heldIn (i : Nat) (v : Word) (s : State) : (setWeight i v s).heldIn = s.heldIn := rfl
@[simp] theorem setWeight_heldOut (i : Nat) (v : Word) (s : State) : (setWeight i v s).heldOut = s.heldOut := rfl
@[simp] theorem setWeight_job (i : Nat) (v : Word) (s : State) : (setWeight i v s).job = s.job := rfl
@[simp] theorem setWeight_inp (i : Nat) (v : Word) (s : State) : (setWeight i v s).inp = s.inp := rfl
@[simp] theorem setWeight_out (i : Nat) (v : Word) (s : State) : (setWeight i v s).out = s.out := rfl
@[simp] theorem setWeight_moves (i : Nat) (v : Word) (s : State) : (setWeight i v s).moves = s.moves := rfl
@[simp] theorem setWeight_stalled (i : Nat) (v : Word) (s : State) : (setWeight i v s).stalled = s.stalled := rfl
@[simp] theorem setWeight_rdata (i : Nat) (v : Word) (s : State) : (setWeight i v s).rdata = s.rdata := rfl
@[simp] theorem setWeight_draws (i : Nat) (v : Word) (s : State) : (setWeight i v s).draws = s.draws := rfl

@[simp] theorem taken_w (k : Nat) (rest : Bits) (s : State) : (taken k rest s).w = s.w := rfl
@[simp] theorem taken_arg (k : Nat) (rest : Bits) (s : State) : (taken k rest s).arg = s.arg := rfl
@[simp] theorem taken_result (k : Nat) (rest : Bits) (s : State) : (taken k rest s).result = s.result := rfl
@[simp] theorem taken_nodes (k : Nat) (rest : Bits) (s : State) : (taken k rest s).nodes = s.nodes := rfl
@[simp] theorem taken_nodecnt (k : Nat) (rest : Bits) (s : State) : (taken k rest s).nodecnt = s.nodecnt := rfl
@[simp] theorem taken_root (k : Nat) (rest : Bits) (s : State) : (taken k rest s).root = s.root := rfl
@[simp] theorem taken_leafcnt (k : Nat) (rest : Bits) (s : State) : (taken k rest s).leafcnt = s.leafcnt := rfl
@[simp] theorem taken_treeValid (k : Nat) (rest : Bits) (s : State) : (taken k rest s).treeValid = s.treeValid := rfl
@[simp] theorem taken_ct (k : Nat) (rest : Bits) (s : State) : (taken k rest s).ct = s.ct := rfl
@[simp] theorem taken_tableValid (k : Nat) (rest : Bits) (s : State) : (taken k rest s).tableValid = s.tableValid := rfl
@[simp] theorem taken_decActive (k : Nat) (rest : Bits) (s : State) : (taken k rest s).decActive = s.decActive := rfl
@[simp] theorem taken_decDone (k : Nat) (rest : Bits) (s : State) : (taken k rest s).decDone = s.decDone := rfl
@[simp] theorem taken_cursor (k : Nat) (rest : Bits) (s : State) : (taken k rest s).cursor = s.cursor := rfl
@[simp] theorem taken_err (k : Nat) (rest : Bits) (s : State) : (taken k rest s).err = s.err := rfl
@[simp] theorem taken_errcode (k : Nat) (rest : Bits) (s : State) : (taken k rest s).errcode = s.errcode := rfl
@[simp] theorem taken_errop (k : Nat) (rest : Bits) (s : State) : (taken k rest s).errop = s.errop := rfl
@[simp] theorem taken_outcnt (k : Nat) (rest : Bits) (s : State) : (taken k rest s).outcnt = s.outcnt := rfl
@[simp] theorem taken_incnt (k : Nat) (rest : Bits) (s : State) : (taken k rest s).incnt = s.incnt + BitVec.ofNat 32 k := rfl
@[simp] theorem taken_busy (k : Nat) (rest : Bits) (s : State) : (taken k rest s).busy = s.busy := rfl
@[simp] theorem taken_heldIn (k : Nat) (rest : Bits) (s : State) : (taken k rest s).heldIn = s.heldIn := rfl
@[simp] theorem taken_heldOut (k : Nat) (rest : Bits) (s : State) : (taken k rest s).heldOut = s.heldOut := rfl
@[simp] theorem taken_job (k : Nat) (rest : Bits) (s : State) : (taken k rest s).job = s.job := rfl
@[simp] theorem taken_inp (k : Nat) (rest : Bits) (s : State) : (taken k rest s).inp = ⟨rest, s.inp.ended, s.inp.ioErr⟩ := rfl
@[simp] theorem taken_out (k : Nat) (rest : Bits) (s : State) : (taken k rest s).out = s.out := rfl
@[simp] theorem taken_moves (k : Nat) (rest : Bits) (s : State) : (taken k rest s).moves = s.moves := rfl
@[simp] theorem taken_stalled (k : Nat) (rest : Bits) (s : State) : (taken k rest s).stalled = s.stalled := rfl
@[simp] theorem taken_rdata (k : Nat) (rest : Bits) (s : State) : (taken k rest s).rdata = s.rdata := rfl
@[simp] theorem taken_draws (k : Nat) (rest : Bits) (s : State) : (taken k rest s).draws = s.draws := rfl

@[simp] theorem accepted_w (bs : Bits) (s : State) : (accepted bs s).w = s.w := rfl
@[simp] theorem accepted_arg (bs : Bits) (s : State) : (accepted bs s).arg = s.arg := rfl
@[simp] theorem accepted_result (bs : Bits) (s : State) : (accepted bs s).result = s.result := rfl
@[simp] theorem accepted_nodes (bs : Bits) (s : State) : (accepted bs s).nodes = s.nodes := rfl
@[simp] theorem accepted_nodecnt (bs : Bits) (s : State) : (accepted bs s).nodecnt = s.nodecnt := rfl
@[simp] theorem accepted_root (bs : Bits) (s : State) : (accepted bs s).root = s.root := rfl
@[simp] theorem accepted_leafcnt (bs : Bits) (s : State) : (accepted bs s).leafcnt = s.leafcnt := rfl
@[simp] theorem accepted_treeValid (bs : Bits) (s : State) : (accepted bs s).treeValid = s.treeValid := rfl
@[simp] theorem accepted_ct (bs : Bits) (s : State) : (accepted bs s).ct = s.ct := rfl
@[simp] theorem accepted_tableValid (bs : Bits) (s : State) : (accepted bs s).tableValid = s.tableValid := rfl
@[simp] theorem accepted_decActive (bs : Bits) (s : State) : (accepted bs s).decActive = s.decActive := rfl
@[simp] theorem accepted_decDone (bs : Bits) (s : State) : (accepted bs s).decDone = s.decDone := rfl
@[simp] theorem accepted_cursor (bs : Bits) (s : State) : (accepted bs s).cursor = s.cursor := rfl
@[simp] theorem accepted_err (bs : Bits) (s : State) : (accepted bs s).err = s.err := rfl
@[simp] theorem accepted_errcode (bs : Bits) (s : State) : (accepted bs s).errcode = s.errcode := rfl
@[simp] theorem accepted_errop (bs : Bits) (s : State) : (accepted bs s).errop = s.errop := rfl
@[simp] theorem accepted_outcnt (bs : Bits) (s : State) : (accepted bs s).outcnt = s.outcnt + BitVec.ofNat 32 bs.length := rfl
@[simp] theorem accepted_incnt (bs : Bits) (s : State) : (accepted bs s).incnt = s.incnt := rfl
@[simp] theorem accepted_busy (bs : Bits) (s : State) : (accepted bs s).busy = s.busy := rfl
@[simp] theorem accepted_heldIn (bs : Bits) (s : State) : (accepted bs s).heldIn = s.heldIn := rfl
@[simp] theorem accepted_heldOut (bs : Bits) (s : State) : (accepted bs s).heldOut = s.heldOut := rfl
@[simp] theorem accepted_job (bs : Bits) (s : State) : (accepted bs s).job = s.job := rfl
@[simp] theorem accepted_inp (bs : Bits) (s : State) : (accepted bs s).inp = s.inp := rfl
@[simp] theorem accepted_out (bs : Bits) (s : State) : (accepted bs s).out = ⟨s.out.stream ++ bs, s.out.room.map fun r => r - bs.length, s.out.flushed, s.out.ioErr⟩ := rfl
@[simp] theorem accepted_moves (bs : Bits) (s : State) : (accepted bs s).moves = s.moves := rfl
@[simp] theorem accepted_stalled (bs : Bits) (s : State) : (accepted bs s).stalled = s.stalled := rfl
@[simp] theorem accepted_rdata (bs : Bits) (s : State) : (accepted bs s).rdata = s.rdata := rfl
@[simp] theorem accepted_draws (bs : Bits) (s : State) : (accepted bs s).draws = s.draws := rfl

@[simp] theorem outputErrorTaken_w (s : State) : (outputErrorTaken s).w = s.w := rfl
@[simp] theorem outputErrorTaken_arg (s : State) : (outputErrorTaken s).arg = s.arg := rfl
@[simp] theorem outputErrorTaken_result (s : State) : (outputErrorTaken s).result = s.result := rfl
@[simp] theorem outputErrorTaken_nodes (s : State) : (outputErrorTaken s).nodes = s.nodes := rfl
@[simp] theorem outputErrorTaken_nodecnt (s : State) : (outputErrorTaken s).nodecnt = s.nodecnt := rfl
@[simp] theorem outputErrorTaken_root (s : State) : (outputErrorTaken s).root = s.root := rfl
@[simp] theorem outputErrorTaken_leafcnt (s : State) : (outputErrorTaken s).leafcnt = s.leafcnt := rfl
@[simp] theorem outputErrorTaken_treeValid (s : State) : (outputErrorTaken s).treeValid = s.treeValid := rfl
@[simp] theorem outputErrorTaken_ct (s : State) : (outputErrorTaken s).ct = s.ct := rfl
@[simp] theorem outputErrorTaken_tableValid (s : State) : (outputErrorTaken s).tableValid = s.tableValid := rfl
@[simp] theorem outputErrorTaken_decActive (s : State) : (outputErrorTaken s).decActive = s.decActive := rfl
@[simp] theorem outputErrorTaken_decDone (s : State) : (outputErrorTaken s).decDone = s.decDone := rfl
@[simp] theorem outputErrorTaken_cursor (s : State) : (outputErrorTaken s).cursor = s.cursor := rfl
@[simp] theorem outputErrorTaken_err (s : State) : (outputErrorTaken s).err = s.err := rfl
@[simp] theorem outputErrorTaken_errcode (s : State) : (outputErrorTaken s).errcode = s.errcode := rfl
@[simp] theorem outputErrorTaken_errop (s : State) : (outputErrorTaken s).errop = s.errop := rfl
@[simp] theorem outputErrorTaken_outcnt (s : State) : (outputErrorTaken s).outcnt = s.outcnt := rfl
@[simp] theorem outputErrorTaken_incnt (s : State) : (outputErrorTaken s).incnt = s.incnt := rfl
@[simp] theorem outputErrorTaken_busy (s : State) : (outputErrorTaken s).busy = s.busy := rfl
@[simp] theorem outputErrorTaken_heldIn (s : State) : (outputErrorTaken s).heldIn = s.heldIn := rfl
@[simp] theorem outputErrorTaken_heldOut (s : State) : (outputErrorTaken s).heldOut = s.heldOut := rfl
@[simp] theorem outputErrorTaken_job (s : State) : (outputErrorTaken s).job = s.job := rfl
@[simp] theorem outputErrorTaken_inp (s : State) : (outputErrorTaken s).inp = s.inp := rfl
@[simp] theorem outputErrorTaken_out (s : State) : (outputErrorTaken s).out = ⟨s.out.stream, s.out.room, s.out.flushed, false⟩ := rfl
@[simp] theorem outputErrorTaken_moves (s : State) : (outputErrorTaken s).moves = s.moves := rfl
@[simp] theorem outputErrorTaken_stalled (s : State) : (outputErrorTaken s).stalled = s.stalled := rfl
@[simp] theorem outputErrorTaken_rdata (s : State) : (outputErrorTaken s).rdata = s.rdata := rfl
@[simp] theorem outputErrorTaken_draws (s : State) : (outputErrorTaken s).draws = s.draws := rfl

@[simp] theorem desClear_w (s : State) : (desClear s).w = s.w := rfl
@[simp] theorem desClear_arg (s : State) : (desClear s).arg = s.arg := rfl
@[simp] theorem desClear_result (s : State) : (desClear s).result = s.result := rfl
@[simp] theorem desClear_nodes (s : State) : (desClear s).nodes = s.nodes := rfl
@[simp] theorem desClear_nodecnt (s : State) : (desClear s).nodecnt = 0#10 := rfl
@[simp] theorem desClear_root (s : State) : (desClear s).root = 0#10 := rfl
@[simp] theorem desClear_leafcnt (s : State) : (desClear s).leafcnt = 0#9 := rfl
@[simp] theorem desClear_treeValid (s : State) : (desClear s).treeValid = false := rfl
@[simp] theorem desClear_ct (s : State) : (desClear s).ct = s.ct := rfl
@[simp] theorem desClear_tableValid (s : State) : (desClear s).tableValid = false := rfl
@[simp] theorem desClear_decActive (s : State) : (desClear s).decActive = false := rfl
@[simp] theorem desClear_decDone (s : State) : (desClear s).decDone = false := rfl
@[simp] theorem desClear_cursor (s : State) : (desClear s).cursor = s.cursor := rfl
@[simp] theorem desClear_err (s : State) : (desClear s).err = s.err := rfl
@[simp] theorem desClear_errcode (s : State) : (desClear s).errcode = s.errcode := rfl
@[simp] theorem desClear_errop (s : State) : (desClear s).errop = s.errop := rfl
@[simp] theorem desClear_outcnt (s : State) : (desClear s).outcnt = s.outcnt := rfl
@[simp] theorem desClear_incnt (s : State) : (desClear s).incnt = s.incnt := rfl
@[simp] theorem desClear_busy (s : State) : (desClear s).busy = s.busy := rfl
@[simp] theorem desClear_heldIn (s : State) : (desClear s).heldIn = s.heldIn := rfl
@[simp] theorem desClear_heldOut (s : State) : (desClear s).heldOut = s.heldOut := rfl
@[simp] theorem desClear_job (s : State) : (desClear s).job = s.job := rfl
@[simp] theorem desClear_inp (s : State) : (desClear s).inp = s.inp := rfl
@[simp] theorem desClear_out (s : State) : (desClear s).out = s.out := rfl
@[simp] theorem desClear_moves (s : State) : (desClear s).moves = s.moves := rfl
@[simp] theorem desClear_stalled (s : State) : (desClear s).stalled = s.stalled := rfl
@[simp] theorem desClear_rdata (s : State) : (desClear s).rdata = s.rdata := rfl
@[simp] theorem desClear_draws (s : State) : (desClear s).draws = s.draws := rfl

@[simp] theorem drained_w (n : Nat) (s : State) : (drained n s).w = s.w := rfl
@[simp] theorem drained_arg (n : Nat) (s : State) : (drained n s).arg = s.arg := rfl
@[simp] theorem drained_result (n : Nat) (s : State) : (drained n s).result = s.result := rfl
@[simp] theorem drained_nodes (n : Nat) (s : State) : (drained n s).nodes = s.nodes := rfl
@[simp] theorem drained_nodecnt (n : Nat) (s : State) : (drained n s).nodecnt = s.nodecnt := rfl
@[simp] theorem drained_root (n : Nat) (s : State) : (drained n s).root = s.root := rfl
@[simp] theorem drained_leafcnt (n : Nat) (s : State) : (drained n s).leafcnt = s.leafcnt := rfl
@[simp] theorem drained_treeValid (n : Nat) (s : State) : (drained n s).treeValid = s.treeValid := rfl
@[simp] theorem drained_ct (n : Nat) (s : State) : (drained n s).ct = s.ct := rfl
@[simp] theorem drained_tableValid (n : Nat) (s : State) : (drained n s).tableValid = s.tableValid := rfl
@[simp] theorem drained_decActive (n : Nat) (s : State) : (drained n s).decActive = s.decActive := rfl
@[simp] theorem drained_decDone (n : Nat) (s : State) : (drained n s).decDone = s.decDone := rfl
@[simp] theorem drained_cursor (n : Nat) (s : State) : (drained n s).cursor = s.cursor := rfl
@[simp] theorem drained_err (n : Nat) (s : State) : (drained n s).err = s.err := rfl
@[simp] theorem drained_errcode (n : Nat) (s : State) : (drained n s).errcode = s.errcode := rfl
@[simp] theorem drained_errop (n : Nat) (s : State) : (drained n s).errop = s.errop := rfl
@[simp] theorem drained_outcnt (n : Nat) (s : State) : (drained n s).outcnt = s.outcnt := rfl
@[simp] theorem drained_incnt (n : Nat) (s : State) : (drained n s).incnt = s.incnt := rfl
@[simp] theorem drained_busy (n : Nat) (s : State) : (drained n s).busy = s.busy := rfl
@[simp] theorem drained_heldIn (n : Nat) (s : State) : (drained n s).heldIn = s.heldIn := rfl
@[simp] theorem drained_heldOut (n : Nat) (s : State) : (drained n s).heldOut = s.heldOut := rfl
@[simp] theorem drained_job (n : Nat) (s : State) : (drained n s).job = s.job := rfl
@[simp] theorem drained_inp (n : Nat) (s : State) : (drained n s).inp = s.inp := rfl
@[simp] theorem drained_out (n : Nat) (s : State) : (drained n s).out = ⟨s.out.stream, s.out.room.map fun r => r + n, s.out.flushed, s.out.ioErr⟩ := rfl
@[simp] theorem drained_moves (n : Nat) (s : State) : (drained n s).moves = s.moves := rfl
@[simp] theorem drained_stalled (n : Nat) (s : State) : (drained n s).stalled = s.stalled := rfl
@[simp] theorem drained_rdata (n : Nat) (s : State) : (drained n s).rdata = s.rdata := rfl
@[simp] theorem drained_draws (n : Nat) (s : State) : (drained n s).draws = s.draws := rfl

end Sys2Proof.Machine
end

