-- ==== Sys2Proof/Laws/Ops.lean ====
section
/-! SUPPORT. What the shared operations can do: the common first steps of a command, readers of bits, the two ports. -/

namespace Sys2Proof.Machine

/-! ## Ending a command, and its first steps -/

theorem complete_complete (s : State) : complete (complete s) = complete s := rfl

theorem complete_begun (s : State) : complete (begun s) = complete s := rfl

theorem raiseError_eq (op : Opcode) (e : ErrCode) (s : State) : raiseError op e s = .next (errorState op e s) := rfl

theorem command_ignored {i : Instr} {body : State → Result} {s : State} (h : s.err = true) :
    command i body s = .next (complete s) := by simp [command, h]

theorem command_runs {i : Instr} {body : State → Result} {s : State} (h : s.err = false)
    (hw : i.wellFormed = true) : command i body s = body s := by simp [command, h, hw]

theorem command_illegal {i : Instr} {body : State → Result} {s : State} (h : s.err = false)
    (hw : i.wellFormed = false) : command i body s = raiseError i.opcode .illegalCmd s := by
  simp [command, h, hw]

/-- Everything a command can do before its body runs. -/
theorem command_cases (i : Instr) (body : State → Result) (s : State) :
    (s.err = true ∧ command i body s = .next (complete s)) ∨
      (s.err = false ∧ i.wellFormed = false ∧ command i body s = .next (errorState i.opcode .illegalCmd s)) ∨
      (s.err = false ∧ i.wellFormed = true ∧ command i body s = body s) := by
  cases h : s.err
  · cases hw : i.wellFormed
    · exact .inr (.inl ⟨rfl, rfl, command_illegal h hw⟩)
    · exact .inr (.inr ⟨rfl, rfl, command_runs h hw⟩)
  · exact .inl ⟨rfl, command_ignored h⟩

theorem require_holds {c : Bool} {op : Opcode} {e : ErrCode} {body : State → Result} {s : State} (h : c = true) :
    require c op e body s = body s := by simp [require, h]

theorem require_fails {c : Bool} {op : Opcode} {e : ErrCode} {body : State → Result} {s : State} (h : c = false) :
    require c op e body s = .next (errorState op e s) := by simp [require, h, raiseError]

/-! ## Readers of bits -/

section Feed

variable {σ ρ : Type} {f : σ → Bool → σ ⊕ ρ}

@[simp] theorem feed_nil (st : σ) : feed f st [] = .dry st := rfl

/-- Feeding in two parts: a reader that is dry after the first goes on with the second (R84). -/
theorem feed_append_of_dry {st st' : σ} {xs : Bits} (ys : Bits) (h : feed f st xs = .dry st') :
    feed f st (xs ++ ys) = feed f st' ys := by
  induction xs generalizing st with
  | nil => cases h; rfl
  | cons b bs ih =>
    simp only [List.cons_append, feed] at h ⊢
    cases hb : f st b with
    | inl st1 => rw [hb] at h; exact ih h
    | inr r => rw [hb] at h; cases h

/-- A reader that has its result reads nothing more (R189). -/
theorem feed_append_of_done {st : σ} {r : ρ} {xs rest : Bits} (ys : Bits) (h : feed f st xs = .done r rest) :
    feed f st (xs ++ ys) = .done r (rest ++ ys) := by
  induction xs generalizing st with
  | nil => cases h
  | cons b bs ih =>
    simp only [List.cons_append, feed] at h ⊢
    cases hb : f st b with
    | inl st1 => rw [hb] at h; exact ih h
    | inr r1 => rw [hb] at h; cases h; rfl

/-- What a reader leaves is an end of what it was fed, and it has read at least one bit. -/
theorem feed_done_suffix {st : σ} {r : ρ} {xs rest : Bits} (h : feed f st xs = .done r rest) :
    ∃ used, xs = used ++ rest ∧ used ≠ [] := by
  induction xs generalizing st with
  | nil => cases h
  | cons b bs ih =>
    simp only [feed] at h
    cases hb : f st b with
    | inl st1 =>
      rw [hb] at h
      obtain ⟨used, hu, -⟩ := ih h
      exact ⟨b :: used, by simp [hu], by simp⟩
    | inr r1 => rw [hb] at h; cases h; exact ⟨[b], rfl, by simp⟩

/-- A property that every one-bit step keeps holds of a dry reader. -/
theorem feed_dry_invariant {P : σ → Prop} (step : ∀ st b st', P st → f st b = .inl st' → P st')
    {st st' : σ} {xs : Bits} (hp : P st) (h : feed f st xs = .dry st') : P st' := by
  induction xs generalizing st with
  | nil => cases h; exact hp
  | cons b bs ih =>
    simp only [feed] at h
    cases hb : f st b with
    | inl st1 => rw [hb] at h; exact ih (step _ _ _ hp hb) h
    | inr r => rw [hb] at h; cases h

/-- A property that every one-bit step keeps holds where a reader's result was made. -/
theorem feed_done_invariant {P : σ → Prop} (step : ∀ st b st', P st → f st b = .inl st' → P st')
    {st : σ} {r : ρ} {xs rest : Bits} (hp : P st) (h : feed f st xs = .done r rest) :
    ∃ st' b, P st' ∧ f st' b = .inr r := by
  induction xs generalizing st with
  | nil => cases h
  | cons b bs ih =>
    simp only [feed] at h
    cases hb : f st b with
    | inl st1 => rw [hb] at h; exact ih (step _ _ _ hp hb) h
    | inr r1 => rw [hb] at h; cases h; exact ⟨st, b, hp, hb⟩

/-- Everything taking bits from the port can do (R80, R81). -/
theorem takeBits_cases (f : σ → Bool → σ ⊕ ρ) (st : σ) (s : State) :
    (∃ r used rest, s.inp.ioErr = false ∧ s.inp.bits = used ++ rest ∧ used ≠ [] ∧
        feed f st s.inp.bits = .done r rest ∧ takeBits f st s = .done r (taken used.length rest s)) ∨
      (∃ st', s.inp.ioErr = false ∧ s.inp.ended = true ∧ feed f st s.inp.bits = .dry st' ∧
        takeBits f st s = .ended st' (taken s.inp.bits.length [] s)) ∨
      (∃ st', s.inp.ioErr = false ∧ s.inp.ended = false ∧ feed f st s.inp.bits = .dry st' ∧
        takeBits f st s = .empty st' (taken s.inp.bits.length [] s)) ∨
      (s.inp.ioErr = true ∧ takeBits f st s = .failed st { s with inp := { s.inp with ioErr := false } }) := by
  cases hio : s.inp.ioErr
  · cases hf : feed f st s.inp.bits with
    | done r rest =>
      obtain ⟨used, hu, hne⟩ := feed_done_suffix hf
      refine .inl ⟨r, used, rest, rfl, hu, hne, rfl, ?_⟩
      have hl : s.inp.bits.length - rest.length = used.length := by simp [hu]
      simp [takeBits, available, hio, hf, hl]
    | dry st' =>
      cases he : s.inp.ended
      · exact .inr (.inr (.inl ⟨st', rfl, rfl, rfl, by simp [takeBits, available, hio, hf, he]⟩))
      · exact .inr (.inl ⟨st', rfl, rfl, rfl, by simp [takeBits, available, hio, hf, he]⟩)
  · exact .inr (.inr (.inr ⟨rfl, by simp [takeBits, available, hio]⟩))

theorem takeBits_done {st : σ} {r : ρ} {used rest : Bits} {s : State} (hio : s.inp.ioErr = false)
    (hb : s.inp.bits = used ++ rest) (hf : feed f st (used ++ rest) = .done r rest) :
    takeBits f st s = .done r (taken used.length rest s) := by
  simp [takeBits, available, hio, hb, hf]

theorem takeBits_ended {st st' : σ} {s : State} (hio : s.inp.ioErr = false) (he : s.inp.ended = true)
    (hf : feed f st s.inp.bits = .dry st') : takeBits f st s = .ended st' (taken s.inp.bits.length [] s) := by
  simp [takeBits, available, hio, he, hf]

theorem takeBits_empty {st st' : σ} {s : State} (hio : s.inp.ioErr = false) (he : s.inp.ended = false)
    (hf : feed f st s.inp.bits = .dry st') : takeBits f st s = .empty st' (taken s.inp.bits.length [] s) := by
  simp [takeBits, available, hio, he, hf]

theorem takeBits_failed {st : σ} {s : State} (hio : s.inp.ioErr = true) :
    takeBits f st s = .failed st { s with inp := { s.inp with ioErr := false } } := by
  simp [takeBits, available, hio]

end Feed

/-- Taking twice counts and leaves as taking once. -/
theorem taken_taken (j k : Nat) (r r' : Bits) (s : State) : taken k r' (taken j r s) = taken (j + k) r' s := by
  simp [taken, BitVec.ofNat_add, BitVec.add_assoc]

/-! ## The output port -/

theorem accepts_le (o : OutPort) (n : Nat) : accepts o n ≤ n := by
  unfold accepts
  split
  · omega
  · split
    · omega
    · exact Nat.min_le_right _ _

theorem accepted_nil (s : State) : accepted [] s = s := by
  cases s with
  | mk w a r n nc rt lc tv c tb da dd cu er ec eo oc ic bu hi ho j inp out m st rd dr =>
    cases out with
    | mk stream room fl io => cases room <;> simp [accepted]

/-- Giving in two parts is giving the whole (R82, R91). -/
theorem accepted_accepted (xs ys : Bits) (s : State) : accepted ys (accepted xs s) = accepted (xs ++ ys) s := by
  simp only [accepted, List.append_assoc, List.length_append, BitVec.ofNat_add, BitVec.add_assoc]
  congr 2
  cases s.out.room with
  | none => rfl
  | some r => simp [Nat.sub_sub]

/-- Everything giving bits to the port can do (R82, R84). -/
theorem giveBits_cases (bits : Bits) (s : State) :
    giveBits bits s = .all (accepted bits s) ∨
      (∃ given b rest, bits = given ++ b :: rest ∧ s.out.ioErr = false ∧ s.out.room = some given.length ∧
        giveBits bits s = .full (b :: rest) (accepted given s)) ∨
      (s.out.ioErr = true ∧ bits ≠ [] ∧ giveBits bits s = .failed (outputErrorTaken s)) := by
  cases hd : bits.drop (accepts s.out bits.length) with
  | nil =>
    have hlen : accepts s.out bits.length = bits.length :=
      Nat.le_antisymm (accepts_le _ _) (List.drop_eq_nil_iff.mp hd)
    exact .inl (by simp [giveBits, hlen])
  | cons b rest =>
    have hsplit : bits = bits.take (accepts s.out bits.length) ++ b :: rest := by
      rw [← hd, List.take_append_drop]
    have hlt : accepts s.out bits.length < bits.length := by
      by_contra hge
      rw [List.drop_eq_nil_of_le (by omega)] at hd
      cases hd
    cases hio : s.out.ioErr
    · refine .inr (.inl ⟨_, b, rest, hsplit, rfl, ?_, by simp [giveBits, hd, hio]⟩)
      have hmin : (bits.take (accepts s.out bits.length)).length = accepts s.out bits.length := by
        simp; omega
      rw [hmin]
      cases hr : s.out.room with
      | none => simp [accepts, hio, hr] at hlt
      | some r =>
        simp [accepts, hio, hr] at hlt ⊢
        omega
    · refine .inr (.inr ⟨rfl, by rintro rfl; simp at hd, ?_⟩)
      have hz : ∀ n, accepts s.out n = 0 := by simp [accepts, hio]
      rw [hz, List.drop_zero] at hd
      simp only [giveBits, hz, hd, List.drop_zero, List.take_zero, hio, accepted_nil, if_true]

/-- A port that has room and no error takes all bits (R82). -/
theorem giveBits_all {bits : Bits} {s : State} (hio : s.out.ioErr = false)
    (hroom : ∀ r, s.out.room = some r → bits.length ≤ r) : giveBits bits s = .all (accepted bits s) := by
  have hk : accepts s.out bits.length = bits.length := by
    cases hr : s.out.room with
    | none => simp [accepts, hio, hr]
    | some r => simp [accepts, hio, hr, hroom r hr]
  simp [giveBits, hk]

theorem emit_all {op : Opcode} {bits : Bits} {held : Bits → Job} {next : State → Result} {s : State}
    (hio : s.out.ioErr = false) (hroom : ∀ r, s.out.room = some r → bits.length ≤ r) :
    emit op bits held next s = next (accepted bits s) := by
  simp [emit, giveBits_all hio hroom]

/-- Everything `emit` can do: go on, be held with bits left, or raise IO_ERROR. -/
theorem emit_cases (op : Opcode) (bits : Bits) (held : Bits → Job) (next : State → Result) (s : State) :
    emit op bits held next s = next (accepted bits s) ∨
      (∃ given b rest, bits = given ++ b :: rest ∧ s.out.ioErr = false ∧ s.out.room = some given.length ∧
        emit op bits held next s = holdOut (held (b :: rest)) (accepted given s)) ∨
      (s.out.ioErr = true ∧ bits ≠ [] ∧
        emit op bits held next s = .next (errorState op .ioError (outputErrorTaken s))) := by
  rcases giveBits_cases bits s with h | ⟨g, b, rest, hb, hio, hr, h⟩ | ⟨hio, hne, h⟩
  · exact .inl (by simp [emit, h])
  · exact .inr (.inl ⟨g, b, rest, hb, hio, hr, by simp [emit, h]⟩)
  · exact .inr (.inr ⟨hio, hne, by simp [emit, h, raiseError]⟩)

end Sys2Proof.Machine
end

