-- ==== Sys2Proof/Laws/Operands.lean ====
section
/-! SUPPORT. What reading and writing operands gives: weights, nodes, code entries, bit fields. -/

namespace Sys2Proof.Machine

/-! ## Bit fields -/

@[simp] theorem msbBits_length (n v : Nat) : (msbBits n v).length = n := by simp [msbBits]

/-- Bit j of a field sent MSB-first (R10). -/
theorem msbBits_getElem? {n v j : Nat} (h : j < n) : (msbBits n v)[j]? = some (v.testBit (n - 1 - j)) := by
  simp [msbBits, h]

theorem foldl_pushBit (bs : Bits) (v : Nat) : bs.foldl pushBit v = v * 2 ^ bs.length + bitsValue bs := by
  induction bs generalizing v with
  | nil => simp [bitsValue]
  | cons b bs ih =>
    have h : bitsValue (b :: bs) = bs.foldl pushBit (pushBit 0 b) := rfl
    rw [List.foldl_cons, h, ih (pushBit v b), ih (pushBit 0 b), List.length_cons, pow_succ]
    simp only [pushBit]
    ring

@[simp] theorem bitsValue_nil : bitsValue [] = 0 := rfl

theorem bitsValue_cons (b : Bool) (bs : Bits) : bitsValue (b :: bs) = b.toNat * 2 ^ bs.length + bitsValue bs := by
  have h := foldl_pushBit bs (pushBit 0 b)
  simpa [bitsValue, pushBit] using h

theorem bitsValue_lt (bs : Bits) : bitsValue bs < 2 ^ bs.length := by
  induction bs with
  | nil => simp
  | cons b bs ih =>
    rw [bitsValue_cons, List.length_cons, pow_succ]
    have := Bool.toNat_le b
    nlinarith

theorem msbBits_succ (n v : Nat) : msbBits (n + 1) v = v.testBit n :: msbBits n v := by
  simp only [msbBits, List.range_succ_eq_map, List.map_cons, List.map_map]
  congr 1
  apply List.map_congr_left
  intro j _
  simp only [Function.comp_apply]
  congr 1
  omega

/-- Reading back what was sent MSB-first gives the field's value (R10, R73). -/
theorem bitsValue_msbBits (n v : Nat) : bitsValue (msbBits n v) = v % 2 ^ n := by
  induction n with
  | zero => simp [msbBits, Nat.mod_one]
  | succ n ih =>
    rw [msbBits_succ, bitsValue_cons, ih, msbBits_length, Nat.toNat_testBit, pow_succ, Nat.mod_mul]
    ring

/-! ## Weights -/

theorem weight_setWeight (s : State) (i j : Nat) (v : Word) (h : i < 257) :
    weight (setWeight i v s).w j = if i = j then v else weight s.w j := by
  simp only [weight, setWeight_w, Vector.getElem?_setIfInBounds]
  split <;> simp_all

@[simp] theorem weight_zero (j : Nat) : weight (Vector.replicate 257 0#32) j = 0#32 := by
  simp only [weight, Vector.getElem?_replicate]
  split <;> rfl

/-! ## Nodes and code entries -/

theorem nodeAt_lt {n : NodeStore} {i : NodeIdx} {nd : Node} (h : nodeAt n i = some nd) : i.toNat < 513 :=
  (Vector.getElem?_eq_some_iff.mp h).1

theorem nodeAt_isSome {n : NodeStore} {i : NodeIdx} (h : i.toNat < 513) : ∃ nd, nodeAt n i = some nd :=
  ⟨_, Vector.getElem?_eq_getElem h⟩

theorem nodeAt_set (n : NodeStore) (i : Nat) (j : NodeIdx) (nd : Node) :
    nodeAt (n.setIfInBounds i nd) j = if i = j.toNat then (if i < 513 then some nd else none) else nodeAt n j := by
  simp [nodeAt, Vector.getElem?_setIfInBounds]

theorem withNode_some {i : NodeIdx} {body : Node → State → Result} {s : State} {nd : Node}
    (h : nodeAt s.nodes i = some nd) : withNode i body s = body nd s := by simp [withNode, h]

theorem codeEntry_set (ct : CodeTable) (a b : Sym) (e : CodeEntry) (h : a.toNat < 257) :
    codeEntry (ct.setIfInBounds a.toNat e) b = if a = b then e else codeEntry ct b := by
  simp only [codeEntry, Vector.getElem?_setIfInBounds, BitVec.toNat_inj]
  split <;> simp_all

/-- The path is the code bits of the field it is packed in (R201). -/
theorem codeField_take {p : Bits} (tail : Vector Bool 256) (h : p.length ≤ 256) :
    (codeField p tail).toList.take p.length = p := by
  simp [codeField, Vector.toList, List.take_take, h]

/-! ## The branch convention (R15) -/

@[simp] theorem branchTo_left (l r : NodeIdx) : branchTo (branchBit false) l r = l := by simp [branchTo, branchBit]

@[simp] theorem branchTo_right (l r : NodeIdx) : branchTo (branchBit true) l r = r := by simp [branchTo, branchBit]

end Sys2Proof.Machine
end

