-- ==== Sys2Proof/Laws/PerInstr.lean ====
section
/-! SUPPORT. A fact of every command's encoding, one lemma per constructor: the word stands in the command's own row (R103). -/

namespace Sys2Proof.Laws.EncodesInRow

/-- The encoded word has the command's opcode in bits 31:24, and its format's fixed bits are the row's (R101, R103). -/
def Statement (i : Instr) : Prop :=
  (encode i).extractLsb' 24 8 = i.opcode ∧ encode i &&& i.format.mask = i.opcode ++ 0#24

/-- The opcode is read back from any word that begins with it. -/
theorem opcode_of_append (op : Opcode) (x : BitVec 24) : (op ++ x).extractLsb' 24 8 = op := by
  apply BitVec.eq_of_getLsbD_eq
  intro i hi
  simp only [BitVec.getLsbD_extractLsb', BitVec.getLsbD_append]
  interval_cases i <;> simp

/-- Two words are equal when their bits are, position by position. -/
theorem word_ext {a b : Word} (h : ∀ i < 32, a.getLsbD i = b.getLsbD i) : a = b :=
  BitVec.eq_of_getLsbD_eq h

theorem nop : Statement .nop := ⟨by decide, by decide⟩

theorem reset : Statement .reset := ⟨by decide, by decide⟩

theorem wclr : Statement .wclr := ⟨by decide, by decide⟩

theorem cfin : Statement .cfin := ⟨by decide, by decide⟩

theorem build : Statement .build := ⟨by decide, by decide⟩

theorem ser : Statement .ser := ⟨by decide, by decide⟩

theorem des : Statement .des := ⟨by decide, by decide⟩

theorem flat : Statement .flat := ⟨by decide, by decide⟩

theorem flush : Statement .flush := ⟨by decide, by decide⟩

theorem dstart : Statement .dstart := ⟨by decide, by decide⟩

theorem dsym : Statement .dsym := ⟨by decide, by decide⟩

theorem count (b : BitVec 8) : Statement (.count b) := by
  refine ⟨opcode_of_append _ _, word_ext fun j hj => ?_⟩
  simp only [encode, operandBits, Instr.opcode, Instr.format, Format.mask, BitVec.getLsbD_and, BitVec.getLsbD_append]
  interval_cases j <;> simp

theorem wset (s : Sym) : Statement (.wset s) := by
  refine ⟨opcode_of_append _ _, word_ext fun j hj => ?_⟩
  simp only [encode, operandBits, Instr.opcode, Instr.format, Format.mask, BitVec.getLsbD_and, BitVec.getLsbD_append]
  interval_cases j <;> simp

theorem wget (s : Sym) : Statement (.wget s) := by
  refine ⟨opcode_of_append _ _, word_ext fun j hj => ?_⟩
  simp only [encode, operandBits, Instr.opcode, Instr.format, Format.mask, BitVec.getLsbD_and, BitVec.getLsbD_append]
  interval_cases j <;> simp

theorem ldal (i : BitVec 16) : Statement (.ldal i) := by
  refine ⟨opcode_of_append _ _, word_ext fun j hj => ?_⟩
  simp only [encode, operandBits, Instr.opcode, Instr.format, Format.mask, BitVec.getLsbD_and, BitVec.getLsbD_append]
  interval_cases j <;> simp

theorem ldah (i : BitVec 16) : Statement (.ldah i) := by
  refine ⟨opcode_of_append _ _, word_ext fun j hj => ?_⟩
  simp only [encode, operandBits, Instr.opcode, Instr.format, Format.mask, BitVec.getLsbD_and, BitVec.getLsbD_append]
  interval_cases j <;> simp

theorem clen (s : Sym) : Statement (.clen s) := by
  refine ⟨opcode_of_append _ _, word_ext fun j hj => ?_⟩
  simp only [encode, operandBits, Instr.opcode, Instr.format, Format.mask, BitVec.getLsbD_and, BitVec.getLsbD_append]
  interval_cases j <;> simp

theorem cword (s : Sym) (k : BitVec 3) : Statement (.cword s k) := by
  refine ⟨opcode_of_append _ _, word_ext fun j hj => ?_⟩
  simp only [encode, operandBits, Instr.opcode, Instr.format, Format.mask, BitVec.getLsbD_and, BitVec.getLsbD_append]
  interval_cases j <;> simp

theorem enc (s : Sym) : Statement (.enc s) := by
  refine ⟨opcode_of_append _ _, word_ext fun j hj => ?_⟩
  simp only [encode, operandBits, Instr.opcode, Instr.format, Format.mask, BitVec.getLsbD_and, BitVec.getLsbD_append]
  interval_cases j <;> simp

theorem putb (n : BitVec 5) (v : BitVec 16) : Statement (.putb n v) := by
  refine ⟨opcode_of_append _ _, word_ext fun j hj => ?_⟩
  simp only [encode, operandBits, Instr.opcode, Instr.format, Format.mask, BitVec.getLsbD_and, BitVec.getLsbD_append]
  interval_cases j <;> simp

theorem getb (n : BitVec 5) : Statement (.getb n) := by
  refine ⟨opcode_of_append _ _, word_ext fun j hj => ?_⟩
  simp only [encode, operandBits, Instr.opcode, Instr.format, Format.mask, BitVec.getLsbD_and, BitVec.getLsbD_append]
  interval_cases j <;> simp

theorem nget (x : NodeIdx) : Statement (.nget x) := by
  refine ⟨opcode_of_append _ _, word_ext fun j hj => ?_⟩
  simp only [encode, operandBits, Instr.opcode, Instr.format, Format.mask, BitVec.getLsbD_and, BitVec.getLsbD_append]
  interval_cases j <;> simp

theorem nwlo (x : NodeIdx) : Statement (.nwlo x) := by
  refine ⟨opcode_of_append _ _, word_ext fun j hj => ?_⟩
  simp only [encode, operandBits, Instr.opcode, Instr.format, Format.mask, BitVec.getLsbD_and, BitVec.getLsbD_append]
  interval_cases j <;> simp

theorem nwhi (x : NodeIdx) : Statement (.nwhi x) := by
  refine ⟨opcode_of_append _ _, word_ext fun j hj => ?_⟩
  simp only [encode, operandBits, Instr.opcode, Instr.format, Format.mask, BitVec.getLsbD_and, BitVec.getLsbD_append]
  interval_cases j <;> simp

end Sys2Proof.Laws.EncodesInRow
end

