-- ==== Sys2Proof/Laws/TreeCodec.lean ====
section
/-! SUPPORT. Trees and their headers; what one bit of a header does to the parse; the bounds on the traversal stack. -/

namespace Sys2Proof.Machine

/-! ## Trees (30_encoding.md R120, 43_codetable.md R204) -/

/-- The header is its nodes' bits, one node after the other. -/
theorem Tree.header_eq_flatten (t : Tree) : t.header = t.nodeBits.flatten := by
  induction t with
  | leaf sym => simp [Tree.header, Tree.nodeBits]
  | node l r hl hr => simp [Tree.header, Tree.nodeBits, hl, hr]

@[simp] theorem Tree.nodeBits_length (t : Tree) : t.nodeBits.length = t.size := by
  induction t with
  | leaf sym => rfl
  | node l r hl hr => simp [Tree.nodeBits, Tree.size, hl, hr]

/-- A tree with a leaf at depth d has at least 2d + 1 nodes (R204). -/
theorem Tree.depth_le_size (t : Tree) : 2 * t.depth + 1 ≤ t.size := by
  induction t with
  | leaf sym => simp [Tree.depth, Tree.size]
  | node l r hl hr => simp only [Tree.depth, Tree.size]; omega

/-! ## The traversal stack of SER (42_treecodec.md R180, R181) -/

/-- At the start the stack holds the root alone. -/
theorem stackFits_root {t : Tree} (h : t.size ≤ Config.nodeCap) : StackFits [t] := by
  intro k u hk
  have hd := t.depth_le_size
  simp only [Config.nodeCap] at h
  match k with
  | 0 => cases hk; simp only [List.length_cons, List.length_nil, Config.stackCap]; omega
  | _ + 1 => cases hk

theorem StackFits.length_le {ts : List Tree} (h : StackFits ts) : ts.length ≤ Config.stackCap := by
  cases ts with
  | nil => simp
  | cons t ts => have h0 := h 0 t rfl; omega

/-- A leaf's visit takes it from the stack. -/
theorem StackFits.tail {t : Tree} {ts : List Tree} (h : StackFits (t :: ts)) : StackFits ts := by
  intro k u hk
  have hu := h (k + 1) u hk
  simp only [List.length_cons] at hu
  omega

/-- An internal node's visit puts its two subtrees in its place. -/
theorem StackFits.push {l r : Tree} {ts : List Tree} (h : StackFits (.node l r :: ts)) : StackFits (l :: r :: ts) := by
  intro k u hk
  have h0 := h 0 _ rfl
  simp only [Tree.depth, List.length_cons] at h0
  match k with
  | 0 => cases hk; simp only [List.length_cons]; omega
  | 1 => cases hk; simp only [List.length_cons]; omega
  | k + 2 =>
    have hu := h (k + 1) u hk
    simp only [List.length_cons] at hu ⊢
    omega

/-! ## One bit of a header (R183, R184) -/

theorem parseBit_full {p : Parse} {nodes : NodeStore} (b : Bool) (hf : p.field = none) (hn : p.n = 513) :
    parseBit (p, nodes) b = .inr .nodeOverflow := by
  simp [parseBit, hf, hn, Config.nodeCap]

theorem parseBit_leaf {p : Parse} {nodes : NodeStore} (hf : p.field = none) (hn : p.n ≠ 513) :
    parseBit (p, nodes) true = .inl ({ p with n := p.n + 1, field := some (9, 0) }, nodes) := by
  simp [parseBit, hf, hn, Config.nodeCap, Config.symBits]

theorem parseBit_internal {p : Parse} {nodes : NodeStore} (hf : p.field = none) (hn : p.n ≠ 513) :
    parseBit (p, nodes) false = .inl (beginInternal p, nodes) := by
  simp [parseBit, hf, hn, Config.nodeCap]

theorem beginInternal_pushes {p : Parse} (ht : p.tooDeep = false) (h : p.frames.length < 257) :
    beginInternal p = ⟨.left p.n :: p.frames, p.n + 1, p.leaves, none, false⟩ := by
  simp [beginInternal, ht, Config.stackCap, Nat.ne_of_lt h]

theorem closeSubtree_frames {idx : Nat} {frames frames' : List Frame} {nodes nodes' : NodeStore}
    (h : closeSubtree idx frames nodes = .inl (frames', nodes')) : frames'.length ≤ frames.length := by
  induction frames generalizing idx nodes with
  | nil => cases h
  | cons f fs ih =>
    cases f with
    | left i => cases h; simp
    | right i l => exact Nat.le_succ_of_le (ih h)

/-- Every bit keeps the traversal stack within STACK_CAP (R47 (a), R180). -/
theorem parseBit_frames_le {st st' : Parse × NodeStore} {b : Bool} (hs : st.1.frames.length ≤ Config.stackCap)
    (h : parseBit st b = .inl st') : st'.1.frames.length ≤ Config.stackCap := by
  obtain ⟨⟨frames, n, leaves, field, deep⟩, nodes⟩ := st
  simp only at hs
  cases field with
  | none =>
    simp only [parseBit] at h
    split at h
    · cases h
    · split at h
      · cases h; exact hs
      · cases h
        simp only [beginInternal]
        split
        · simp
        · next hc => simp at hc; simp only [List.length_cons]; omega
  | some mv =>
    obtain ⟨missing, v⟩ := mv
    simp only [parseBit] at h
    split at h
    · simp only [closeLeaf] at h
      split at h
      · cases h
      · split at h
        · cases h; simp
        · split at h
          · next hc => cases h; exact Nat.le_trans (closeSubtree_frames hc) hs
          · cases h
    · cases h; exact hs

/-- A header's parse never holds more than STACK_CAP nodes on its stack (R47 (a)). -/
theorem feed_parseBit_frames_le {nodes nodes' : NodeStore} {bits : Bits} {p : Parse}
    (h : feed parseBit (Parse.start, nodes) bits = .dry (p, nodes')) : p.frames.length ≤ Config.stackCap :=
  feed_dry_invariant (P := fun st => st.1.frames.length ≤ Config.stackCap)
    (fun _ _ _ hp hb => parseBit_frames_le hp hb) (Nat.zero_le _) h

end Sys2Proof.Machine
end

