-- ==== Sys2Proof/Machine/Assembler.lean ====
section
/-! DEFINITION. The assembler and disassembler syntax of 30_encoding.md R110 to R112, on text as a list of characters
(log 25). -/

namespace Sys2Proof.Machine

/-- A command's mnemonic (R103), in upper case as it is printed (R110). -/
def mnemonicOf : Instr → List Char
  | .nop => "NOP".toList
  | .reset => "RESET".toList
  | .wclr => "WCLR".toList
  | .count _ => "COUNT".toList
  | .cfin => "CFIN".toList
  | .wset _ => "WSET".toList
  | .wget _ => "WGET".toList
  | .ldal _ => "LDAL".toList
  | .ldah _ => "LDAH".toList
  | .build => "BUILD".toList
  | .ser => "SER".toList
  | .des => "DES".toList
  | .flat => "FLAT".toList
  | .clen _ => "CLEN".toList
  | .cword _ _ => "CWORD".toList
  | .enc _ => "ENC".toList
  | .putb _ _ => "PUTB".toList
  | .flush => "FLUSH".toList
  | .dstart => "DSTART".toList
  | .dsym => "DSYM".toList
  | .getb _ => "GETB".toList
  | .nget _ => "NGET".toList
  | .nwlo _ => "NWLO".toList
  | .nwhi _ => "NWHI".toList

/-- A number in decimal. -/
def decimal (n : Nat) : List Char := Nat.toDigits 10 n

/-- The upper-case hexadecimal digit of a value below 16. -/
def hexDigit (d : Nat) : Char := if d < 10 then Char.ofNat (48 + d) else Char.ofNat (55 + d)

/-- The last `digits` hexadecimal digits of n, after `0x`. -/
def hexadecimal (digits n : Nat) : List Char :=
  '0' :: 'x' :: (List.range digits).map fun j => hexDigit (n / 16 ^ (digits - 1 - j) % 16)

/-- The operands as the disassembler prints them (R111). DESIGN CHOICE (log 25): k, whose base R111 does not give, is printed in
decimal. -/
def operandText : Instr → List (List Char)
  | .count b => [decimal b.toNat]
  | .wset s => [decimal s.toNat]
  | .wget s => [decimal s.toNat]
  | .ldal i => [hexadecimal 4 i.toNat]
  | .ldah i => [hexadecimal 4 i.toNat]
  | .clen s => [decimal s.toNat]
  | .cword s k => [decimal s.toNat, decimal k.toNat]
  | .enc s => [decimal s.toNat]
  | .putb n v => [decimal n.toNat, hexadecimal 4 v.toNat]
  | .getb n => [decimal n.toNat]
  | .nget x => [decimal x.toNat]
  | .nwlo x => [decimal x.toNat]
  | .nwhi x => [decimal x.toNat]
  | .nop => []
  | .reset => []
  | .wclr => []
  | .cfin => []
  | .build => []
  | .ser => []
  | .des => []
  | .flat => []
  | .flush => []
  | .dstart => []
  | .dsym => []

/-- Operands after a mnemonic, separated by a comma and a blank (R110, R111). -/
def joinOperands : List (List Char) → List Char
  | [] => []
  | [a] => ' ' :: a
  | a :: rest => ' ' :: a ++ ',' :: joinOperands rest

/-- A word as text (R111); a word that decodes to no command is a `.word`. -/
def disassemble (w : Word) : List Char :=
  match decode w with
  | .ok i => mnemonicOf i ++ joinOperands (operandText i)
  | .error _ => ".word ".toList ++ hexadecimal 8 w.toNat

/-! ## The assembler -/

/-- Blanks between the parts of a line (log 25). -/
def isBlank (c : Char) : Bool := c == ' ' || c == '\t'

/-- A letter in upper case (R110: mnemonics are case-insensitive). -/
def upper (c : Char) : Char := if 97 ≤ c.toNat && c.toNat ≤ 122 then Char.ofNat (c.toNat - 32) else c

/-- Drop a comment, which a semicolon outside a character literal begins (R110). -/
def dropComment : List Char → List Char
  | '\'' :: c :: '\'' :: rest => '\'' :: c :: '\'' :: dropComment rest
  | ';' :: _ => []
  | c :: rest => c :: dropComment rest
  | [] => []

/-- Without blanks at either end. -/
def trimBlanks (t : List Char) : List Char := ((t.dropWhile isBlank).reverse.dropWhile isBlank).reverse

/-- Split at commas outside character literals; `acc` is the part being read, in reverse. -/
def splitOperands : List Char → List Char → List (List Char)
  | '\'' :: c :: '\'' :: rest, acc => splitOperands rest ('\'' :: c :: '\'' :: acc)
  | ',' :: rest, acc => acc.reverse :: splitOperands rest []
  | c :: rest, acc => splitOperands rest (c :: acc)
  | [], acc => [acc.reverse]

/-- The value of a digit in a base up to 16. -/
def digitValue (base : Nat) (c : Char) : Option Nat :=
  let u := (upper c).toNat
  let d := if 48 ≤ u && u ≤ 57 then u - 48 else if 65 ≤ u && u ≤ 70 then u - 55 else 16
  if d < base then some d else none

/-- Digits in a base, most significant first. -/
def digitsValue (base : Nat) : List Char → Nat → Option Nat
  | [], acc => some acc
  | c :: rest, acc =>
    match digitValue base c with
    | some d => digitsValue base rest (acc * base + d)
    | none => none

/-- A number, decimal or hexadecimal with `0x` (R110). -/
def numberOperand : List Char → Option Nat
  | '0' :: 'x' :: d :: rest => digitsValue 16 (d :: rest) 0
  | d :: rest => digitsValue 10 (d :: rest) 0
  | [] => none

/-- A byte operand: a number, or a character literal (R110). -/
def byteOperand : List Char → Option Nat
  | ['\'', c, '\''] => if c.toNat < 128 then some c.toNat else none
  | t => numberOperand t

/-- A symbol operand: a byte operand, or `EOS` (R110). -/
def symbolOperand (t : List Char) : Option Nat := if t = "EOS".toList then some 256 else byteOperand t

/-- A number that fits a field of `width` bits; the assembler refuses others (log 25). -/
def fitted (width : Nat) (v : Option Nat) : Option (BitVec width) :=
  match v with
  | some n => if n < 2 ^ width then some (BitVec.ofNat width n) else none
  | none => none

/-- Format N. -/
def noOperand (i : Instr) : List (List Char) → Option (List Instr)
  | [] => some [i]
  | _ => none

/-- Formats with one operand, read by `read` into a field. -/
def oneOperand {width : Nat} (read : List Char → Option Nat) (make : BitVec width → List Instr) :
    List (List Char) → Option (List Instr)
  | [a] => (fitted width (read a)).map make
  | _ => none

/-- Formats with two operands. -/
def twoOperands {w1 w2 : Nat} (read1 read2 : List Char → Option Nat) (make : BitVec w1 → BitVec w2 → List Instr) :
    List (List Char) → Option (List Instr)
  | [a, b] =>
    match fitted w1 (read1 a), fitted w2 (read2 b) with
    | some x, some y => some (make x y)
    | _, _ => none
  | _ => none

/-- `LDA imm32` (R112). -/
def expandLda (v : Word) : List Instr := [.ldal (v.extractLsb' 0 16), .ldah (v.extractLsb' 16 16)]

/-- `WSETI s, imm32` (R112). -/
def expandWseti (s : Sym) (v : Word) : List Instr := expandLda v ++ [.wset s]

/-- `PUTM low8` (R112). -/
def expandPutm (low : BitVec 8) : List Instr := [.putb 16#5 0xFACE#16, .putb 16#5 (0x82#8 ++ low)]

/-- `GETM` (R112). -/
def expandGetm : List Instr := [.getb 16#5, .getb 16#5]

/-- What each mnemonic and pseudo-instruction does with its operands (R111, R112). DESIGN CHOICE (log 25): PUTM's low8, of which
R112 does not say whether it is a byte operand (R110), is a number, and no character literal. -/
def syntaxTable : List (List Char × (List (List Char) → Option (List Instr))) :=
  [("NOP".toList, noOperand .nop),
   ("RESET".toList, noOperand .reset),
   ("WCLR".toList, noOperand .wclr),
   ("COUNT".toList, oneOperand byteOperand fun b => [.count b]),
   ("CFIN".toList, noOperand .cfin),
   ("WSET".toList, oneOperand symbolOperand fun s => [.wset s]),
   ("WGET".toList, oneOperand symbolOperand fun s => [.wget s]),
   ("LDAL".toList, oneOperand numberOperand fun i => [.ldal i]),
   ("LDAH".toList, oneOperand numberOperand fun i => [.ldah i]),
   ("BUILD".toList, noOperand .build),
   ("SER".toList, noOperand .ser),
   ("DES".toList, noOperand .des),
   ("FLAT".toList, noOperand .flat),
   ("CLEN".toList, oneOperand symbolOperand fun s => [.clen s]),
   ("CWORD".toList, twoOperands symbolOperand numberOperand fun s k => [.cword s k])] ++
  [("ENC".toList, oneOperand symbolOperand fun s => [.enc s]),
   ("PUTB".toList, twoOperands numberOperand numberOperand fun n v => [.putb n v]),
   ("FLUSH".toList, noOperand .flush),
   ("DSTART".toList, noOperand .dstart),
   ("DSYM".toList, noOperand .dsym),
   ("GETB".toList, oneOperand numberOperand fun n => [.getb n]),
   ("NGET".toList, oneOperand numberOperand fun x => [.nget x]),
   ("NWLO".toList, oneOperand numberOperand fun x => [.nwlo x]),
   ("NWHI".toList, oneOperand numberOperand fun x => [.nwhi x]),
   ("LDA".toList, oneOperand numberOperand expandLda),
   ("WSETI".toList, twoOperands symbolOperand numberOperand expandWseti),
   ("ENCEOS".toList, noOperand (.enc Config.eos)),
   ("PUTM".toList, oneOperand numberOperand expandPutm),
   ("GETM".toList, fun a => if a.isEmpty then some expandGetm else none),
   ("CLRW".toList, noOperand .wclr)]

/-- Assemble one line (R110): no command for a blank line; `none` for a line that is no command, or whose operands are out of
range (R105). -/
def assembleLine (line : List Char) : Option (List Instr) :=
  let t := trimBlanks (dropComment line)
  let mnemonic := (t.takeWhile fun c => !isBlank c).map upper
  let rest := trimBlanks (t.dropWhile fun c => !isBlank c)
  let operands := if rest.isEmpty then [] else (splitOperands rest []).map trimBlanks
  if t.isEmpty then some []
  else
    match syntaxTable.find? fun row => row.1 == mnemonic with
    | some row =>
      match row.2 operands with
      | some is => if is.all Instr.wellFormed then some is else none
      | none => none
    | none => none

end Sys2Proof.Machine
end

