-- ==== Sys2Proof/Tests/Slice0.lean ====
section
/-! SUPPORT. Tests of the model against words, tables and vectors of the spec, and a witness for the hypotheses of every
statement. Each test names the source of its expected value. -/

-- One theorem at a time: each kernel evaluation waiting in a thread of its own would need a stack of its own.
set_option Elab.async false

namespace Sys2Proof.Machine.Tests

/-! ## Ill-formed commands are refused (R105), one for each check -/

theorem smoke_symbol_257 : (Instr.enc 257#9).wellFormed = false := by decide
theorem smoke_bit_count_0 : (Instr.getb 0#5).wellFormed = false := by decide
theorem smoke_bit_count_17 : (Instr.getb 17#5).wellFormed = false := by decide
theorem smoke_raw_value : (Instr.putb 3#5 8#16).wellFormed = false := by decide

/-! ## Decoding: words written out from R101 and R103, the vectors of 95_test_vectors.md -/

theorem test_decode_nop : decode 0x00000000#32 = .ok .nop := by decide
theorem test_decode_reset : decode 0x01000000#32 = .ok .reset := by decide
theorem test_decode_wclr : decode 0x10000000#32 = .ok .wclr := by decide
theorem test_decode_count : decode 0x11000042#32 = .ok (.count 0x42#8) := by decide
theorem test_decode_cfin : decode 0x12000000#32 = .ok .cfin := by decide
theorem test_decode_wset : decode 0x13000041#32 = .ok (.wset 65#9) := by decide
theorem test_decode_wget : decode 0x14000100#32 = .ok (.wget 256#9) := by decide
theorem test_decode_ldal : decode 0x18005678#32 = .ok (.ldal 0x5678#16) := by decide
theorem test_decode_ldah : decode 0x19001234#32 = .ok (.ldah 0x1234#16) := by decide
theorem test_decode_build : decode 0x20000000#32 = .ok .build := by decide
theorem test_decode_ser : decode 0x30000000#32 = .ok .ser := by decide
theorem test_decode_des : decode 0x31000000#32 = .ok .des := by decide
theorem test_decode_flat : decode 0x40000000#32 = .ok .flat := by decide
theorem test_decode_clen : decode 0x41000042#32 = .ok (.clen 66#9) := by decide
theorem test_decode_cword : decode 0x42000E26#32 = .ok (.cword 38#9 7#3) := by decide
theorem test_decode_enc : decode 0x50000100#32 = .ok (.enc 256#9) := by decide
theorem test_decode_putb : decode 0x51030005#32 = .ok (.putb 3#5 5#16) := by decide
theorem test_decode_flush : decode 0x52000000#32 = .ok .flush := by decide
theorem test_decode_dstart : decode 0x60000000#32 = .ok .dstart := by decide
theorem test_decode_dsym : decode 0x61000000#32 = .ok .dsym := by decide
theorem test_decode_getb : decode 0x62080000#32 = .ok (.getb 8#5) := by decide
theorem test_decode_nget : decode 0x700003FF#32 = .ok (.nget 1023#10) := by decide
theorem test_decode_nwlo : decode 0x71000004#32 = .ok (.nwlo 4#10) := by decide
theorem test_decode_nwhi : decode 0x72000002#32 = .ok (.nwhi 2#10) := by decide

/-- The illegal words of 95_test_vectors.md, with the check each fails. -/
theorem test_decode_illegal :
    decode 0x02000000#32 = .error .unassignedOpcode ∧ decode 0x80000000#32 = .error .unassignedOpcode ∧
      decode 0x00000001#32 = .error .reservedBit ∧ decode 0x20800000#32 = .error .reservedBit ∧
      decode 0x11000100#32 = .error .reservedBit ∧ decode 0x13000101#32 = .error .operandRange ∧
      decode 0x42001000#32 = .error .reservedBit ∧ decode 0x51000000#32 = .error .operandRange ∧
      decode 0x51030008#32 = .error .operandRange ∧ decode 0x51110000#32 = .error .operandRange ∧
      decode 0x62110000#32 = .error .operandRange ∧ decode 0x62100001#32 = .error .reservedBit ∧
      decode 0x70000400#32 = .error .reservedBit := by decide

theorem test_table_word : decodeTableWord 32 0x42000241 = some (.cword 65#9 1#3) := by decide

/-! ## Assembler syntax (R110 to R112) -/

theorem test_disassemble_putb : disassemble 0x5110FACE#32 = "PUTB 16, 0xFACE".toList := by decide
theorem test_disassemble_illegal : disassemble 0x51030008#32 = ".word 0x51030008".toList := by decide
theorem test_assemble_cword : assembleLine "  cword EOS, 1 ; second word".toList = some [.cword 256#9 1#3] := by decide
theorem test_assemble_char : assembleLine "COUNT 'A'".toList = some [.count 0x41#8] := by decide
theorem test_assemble_wseti :
    assembleLine "WSETI 65, 0x000103E8".toList = some [.ldal 0x03E8#16, .ldah 0x0001#16, .wset 65#9] := by decide

/-! ## Small states -/

/-- A field of the next state, if there is one. -/
def after {α : Type} (r : Result) (field : State → α) : Option α :=
  match r with
  | .next s => some (field s)
  | .fault _ => none
  | .refused _ => none

theorem next_of_after {α : Type} {r : Result} {field : State → α} {v : α} (h : after r field = some v) :
    ∃ s, r = .next s ∧ field s = v := by
  cases r <;> simp_all [after]

/-- Bits written as digits, first bit first. -/
def bits (digits : String) : Bits := digits.toList.map fun c => c == '1'

/-- Reset, with an input port that holds some bits and then ends. -/
def withInput (digits : String) : State := { State.reset with inp := ⟨bits digits, true, false⟩ }

/-- Reset, with the weights of "AAB" (vector BLD-1). -/
def weightsAab : State :=
  { State.reset with w := ((State.reset.w.setIfInBounds 65 2#32).setIfInBounds 66 1#32).setIfInBounds 256 1#32 }

/-- The tree of "AAB" (L1-7): A on the left, B and EOS on the right. -/
def treeAab : Tree := .node (.leaf 65#9) (.node (.leaf 66#9) (.leaf 256#9))

/-- A store with five nodes in front. -/
def fiveNodes (a b c d e : Node) : NodeStore :=
  ((((State.reset.nodes.setIfInBounds 0 a).setIfInBounds 1 b).setIfInBounds 2 c).setIfInBounds 3 d).setIfInBounds 4 e

/-- The state after DES of the "AAB" header (vector TC-6). -/
def desAab : State :=
  { State.reset with
    nodes := fiveNodes (.internal 1 2 0) (.leaf 65 0) (.internal 3 4 0) (.leaf 66 0) (.leaf 256 0)
    nodecnt := 5#10
    root := 0#10
    leafcnt := 3#9
    treeValid := true }

/-- The state after BUILD of "AAB" (vector BLD-1). -/
def buildAab : State :=
  { State.reset with
    nodes := fiveNodes (.leaf 65 2) (.leaf 66 1) (.leaf 256 1) (.internal 1 2 2) (.internal 0 3 4)
    nodecnt := 5#10
    root := 4#10
    leafcnt := 3#9
    treeValid := true }

/-- A code entry with the given bits in front of a field of ones. -/
def entry (digits : String) : CodeEntry :=
  ⟨true, BitVec.ofNat 9 (bits digits).length, codeField (bits digits) (Vector.replicate 256 true)⟩

/-- The state after FLAT of "AAB" (vector CT-1). -/
def flatAab : State :=
  { buildAab with
    ct := ((State.reset.ct.setIfInBounds 65 (entry "0")).setIfInBounds 66 (entry "10")).setIfInBounds 256 (entry "11")
    tableValid := true }

/-- `desAab` with the decoder armed and the given bits to decode, then End. -/
def armedAab (digits : String) : State :=
  { desAab with decActive := true, cursor := 0#10, inp := ⟨bits digits, true, false⟩ }

/-- A tree with one literal leaf (vector DEC-5). -/
def loneLiteral : State :=
  { State.reset with
    nodes := State.reset.nodes.setIfInBounds 0 (.leaf 65 0), nodecnt := 1#10, leafcnt := 1#9, treeValid := true }

/-- A tree with symbol 65 at two leaves (vector TC-12). -/
def twiceA : State :=
  { State.reset with
    nodes := fiveNodes (.internal 1 2 0) (.leaf 65 0) (.leaf 65 0) (.leaf 0 0) (.leaf 0 0)
    nodecnt := 3#10
    leafcnt := 2#9
    treeValid := true }

/-! ## One step of each command, expected values from 95_test_vectors.md and the rules' examples -/

theorem test_nop_word : after (step (State.reset.withFetchWord 32 0)) statusWord = some 0x00000000#32 := by decide +kernel

/-- CTL-7. -/
theorem test_reset_leaves_error :
    after (exec .reset { State.reset with err := true, errcode := 0x0A#8, errop := 0x20#8, result := 9#32 })
      (fun s => (statusWord s, s.result)) = some (0x00000000#32, 0#32) := by decide +kernel

/-- WT-7. -/
theorem test_wclr : after (exec .wclr weightsAab) (fun s => weight s.w 65) = some 0#32 := by decide +kernel

/-- R142, example. -/
theorem test_count : after (exec (.count 0x41#8) weightsAab) (fun s => weight s.w 65) = some 3#32 := by decide +kernel

/-- WT-6. -/
theorem test_count_overflow :
    after (exec (.count 0x41#8) (setWeight 65 0xFFFFFFFF#32 State.reset)) (fun s => (statusWord s, weight s.w 65)) =
      some (0x00110C01#32, 0xFFFFFFFF#32) := by decide +kernel

/-- R143, example. -/
theorem test_cfin : after (exec .cfin State.reset) (fun s => weight s.w 256) = some 1#32 := by decide +kernel

/-- R144, example. -/
theorem test_wset :
    after (exec (.wset 65#9) { State.reset with arg := 1000#32 }) (fun s => weight s.w 65) = some 1000#32 := by
  decide +kernel

/-- WT-8, through a step. -/
theorem test_wset_illegal :
    after (step (State.reset.withFetchWord 32 0x13000101)) statusWord = some 0x00130101#32 := by decide +kernel

/-- WT-1. -/
theorem test_wget : after (exec (.wget 65#9) weightsAab) State.result = some 2#32 := by decide +kernel

/-- WT-3. -/
theorem test_ldal :
    after (exec (.ldal 0x03E8#16) { State.reset with arg := 0x12345678#32 }) State.arg = some 0x123403E8#32 := by
  decide +kernel

/-- R147, example. -/
theorem test_ldah :
    after (exec (.ldah 0x0001#16) { State.reset with arg := 0x000003E8#32 }) State.arg = some 0x000103E8#32 := by
  decide +kernel

/-- BLD-1: the merged nodes, ROOT, NODECNT, LEAFCNT, RESULT, STATUS. -/
theorem test_build :
    after (exec .build weightsAab) (fun s => [nodeAt s.nodes 3#10, nodeAt s.nodes 4#10]) =
        some [some (.internal 1 2 2), some (.internal 0 3 4)] ∧
      after (exec .build weightsAab) (fun s => (s.root, s.nodecnt, s.leafcnt, s.result, statusWord s)) =
        some (4#10, 5#10, 3#9, 4#32, 0x02#32) := by decide +kernel

/-- BLD-8. -/
theorem test_build_eos_missing : after (exec .build State.reset) statusWord = some 0x00200A01#32 := by decide +kernel

/-- TC-1. -/
theorem test_ser :
    after (exec .ser buildAab) (fun s => (s.out.stream, s.result, s.outcnt)) =
      some (bits "01001000001010010000101100000000", 32#32, 32#32) := by decide +kernel

/-- TC-1 on a port that takes 12 bits: held with HELD_OUT and BUSY in STATUS (R43, R84). -/
theorem test_ser_held :
    after (exec .ser { buildAab with out := ⟨[], some 12, 0, false⟩ }) (fun s => (s.out.stream, statusWord s)) =
      some (bits "010010000010", 0xA2#32) := by decide +kernel

/-- TC-6. -/
theorem test_des :
    after (exec .des (withInput "01001000001010010000101100000000001011"))
        (fun s => [nodeAt s.nodes 0#10, nodeAt s.nodes 2#10, nodeAt s.nodes 4#10]) =
        some [some (.internal 1 2 0), some (.internal 3 4 0), some (.leaf 256 0)] ∧
      after (exec .des (withInput "01001000001010010000101100000000001011"))
        (fun s => (s.nodecnt, s.leafcnt, s.result, s.incnt, s.inp.bits)) =
        some (5#10, 3#9, 32#32, 32#32, bits "001011") := by decide +kernel

/-- TC-8. -/
theorem test_des_truncated :
    after (exec .des (withInput "01001000001010010000")) (fun s => (statusWord s, s.incnt, s.nodecnt, s.result)) =
      some (0x00310201#32, 20#32, 0#10, 0#32) := by decide +kernel

/-- CT-1. -/
theorem test_flat :
    after (exec .flat buildAab) (fun s => (entryCode (codeEntry s.ct 65#9), entryCode (codeEntry s.ct 66#9),
      entryCode (codeEntry s.ct 256#9), (codeEntry s.ct 67#9).valid, s.result, statusWord s)) =
      some (bits "0", bits "10", bits "11", false, 3#32, 0x06#32) := by decide +kernel

/-- CT-8. -/
theorem test_flat_duplicate : after (exec .flat twiceA) statusWord = some 0x00400B03#32 := by decide +kernel

/-- CT-2. -/
theorem test_clen : after (exec (.clen 66#9) flatAab) State.result = some 2#32 := by decide +kernel

/-- CT-4 and CT-5. -/
theorem test_cword :
    after (exec (.cword 256#9 0#3) flatAab) State.result = some 0xC0000000#32 ∧
      after (exec (.cword 65#9 1#3) flatAab) State.result = some 0#32 := by decide +kernel

/-- ENC-2. -/
theorem test_enc :
    after (exec (.enc 66#9) flatAab) (fun s => (s.out.stream, s.result, s.outcnt)) = some (bits "10", 2#32, 2#32) := by
  decide +kernel

/-- ENC-4: no table. -/
theorem test_enc_no_table : after (exec (.enc 65#9) buildAab) statusWord = some 0x00500803#32 := by decide +kernel

/-- R223, example. -/
theorem test_putb :
    after (exec (.putb 16#5 0xFACE#16) State.reset) (fun s => s.out.stream) = some (bits "1111101011001110") := by
  decide +kernel

/-- ENC-9. -/
theorem test_flush :
    after (exec .flush { State.reset with outcnt := 70#32 }) (fun s => (s.out.stream, s.outcnt, s.result)) =
      some (bits "00", 72#32, 2#32) := by decide +kernel

/-- DEC-1. -/
theorem test_dstart : after (exec .dstart desAab) statusWord = some 0x0A#32 := by decide +kernel

/-- DEC-5. -/
theorem test_dstart_degenerate : after (exec .dstart loneLiteral) statusWord = some 0x00600E03#32 := by decide +kernel

/-- DEC-1, the last symbol. -/
theorem test_dsym_eos :
    after (exec .dsym (armedAab "1100")) (fun s => (s.result, s.incnt, statusWord s)) =
      some (256#32, 2#32, 0x12#32) := by decide +kernel

/-- DEC-4, the third DSYM. -/
theorem test_dsym_truncated :
    after (exec .dsym (armedAab "1")) (fun s => (s.incnt, statusWord s)) = some (1#32, 0x0061030B#32) := by
  decide +kernel

/-- DEC-8. -/
theorem test_getb :
    after (exec (.getb 16#5) (withInput "1111101011001110")) (fun s => (s.result, s.incnt)) =
      some (0xFACE#32, 16#32) := by decide +kernel

/-- DEC-9. -/
theorem test_getb_truncated :
    after (exec (.getb 8#5) (withInput "10101")) (fun s => (statusWord s, s.incnt, s.result)) =
      some (0x00620401#32, 5#32, 0#32) := by decide +kernel

/-- CTL-1 and CTL-2. -/
theorem test_nget :
    after (exec (.nget 3#10) buildAab) State.result = some 0x00100800#32 ∧
      after (exec (.nget 0#10) buildAab) State.result = some 0x80000041#32 := by decide +kernel

/-- CTL-5. -/
theorem test_nget_bad_index : after (exec (.nget 5#10) buildAab) statusWord = some 0x00700F03#32 := by decide +kernel

/-- A tree whose root weighs 0x1FFFFFFFE, the weight of vector BLD-9's root. -/
def heavyRoot : State :=
  { buildAab with nodes := buildAab.nodes.setIfInBounds 4 (.internal 0 3 0x1FFFFFFFE) }

/-- CTL-4, the low bits. -/
theorem test_nwlo : after (exec (.nwlo 4#10) heavyRoot) State.result = some 0xFFFFFFFE#32 := by decide +kernel

/-- CTL-4, the high bits. -/
theorem test_nwhi : after (exec (.nwhi 4#10) heavyRoot) State.result = some 1#32 := by decide +kernel

/-- R74 and R124: the first bytes of a stream, with the marker's high bits. -/
theorem test_stream_bytes :
    streamBytes (bits "010010000010100100001011000000000010110011") = [0x48#8, 0x29#8, 0x0B#8, 0x00#8, 0x2C#8] := by
  decide +kernel

/-! ## Witnesses: concrete states and operands that meet the hypotheses of the statements -/

/-- Some next state. -/
theorem is_next {r : Result} (h : after r (fun _ => ()) = some ()) : ∃ t, r = .next t :=
  (next_of_after h).imp fun _ h => h.1

/-- Some next state with a held command. -/
theorem is_held {r : Result} {j : Job} (h : after r State.job = some (some j)) : ∃ t, r = .next t ∧ t.job = some j :=
  next_of_after h

theorem witness_DecodeInvertsEncode : (Instr.putb 16#5 0xFFFF#16).wellFormed = true := by decide
theorem witness_EncodeInvertsDecode : decode 0x13000100#32 = .ok (.wset 256#9) := by decide
theorem witness_ReservedOpcodesAreIllegal :
    0x80 ≤ (0x80#8 : Opcode).toNat ∧ (0x02FFFFFF#32 : Word).extractLsb' 24 8 ∉ opcodeTable.map Row.opcode ∧
      (0x00800000#32 : Word).extractLsb' 24 8 = 0#8 ∧ (0x00800000#32 : Word) ≠ 0#32 := by decide

/-- Idle with a stalled word; idle with a CMD write as the next move. -/
theorem witness_StepRunsTheDecodedCommand :
    decode 0x20000000#32 = .ok .build ∧ (State.reset.job = none ∧ { State.reset with stalled := [0x20000000#32] }.stalled =
      0x20000000#32 :: []) ∧ (State.reset.stalled = [] ∧ State.reset.busy = false ∧
      { State.reset with moves := [.write (.offset 0) 32 0x20000000#32] }.moves =
        .write (.offset 0) 32 0x20000000#32 :: []) := ⟨by decide, ⟨rfl, rfl⟩, rfl, rfl, rfl⟩
/-- Idle, with a host move that is no CMD write, and with none; a word that decodes to no command. -/
theorem witness_StepRunsTheDecodedCommand_idle :
    { State.reset with moves := [.signalEnd] }.job = none ∧ { State.reset with moves := [.signalEnd] }.stalled = [] ∧
      { State.reset with moves := [.signalEnd] }.moves = .signalEnd :: [] ∧ State.reset.moves = [] ∧
      { State.reset with stalled := [0xFFFFFFFF#32] }.stalled = 0xFFFFFFFF#32 :: [] := ⟨rfl, rfl, rfl, rfl, rfl⟩
/-- A held command that waits, with a host move and without, and one whose port can serve it. -/
theorem witness_StepRunsTheDecodedCommand_held :
    { State.reset with job := some .dsym, moves := [.signalEnd] }.job = some .dsym ∧
      stillHeld .dsym { State.reset with job := some .dsym, moves := [.signalEnd] } = true ∧
      stillHeld .dsym { State.reset with job := some .dsym, moves := [] } = true ∧
      stillHeld .dsym { State.reset with job := some .dsym, inp := ⟨[], true, false⟩ } = false :=
  ⟨rfl, rfl, rfl, rfl⟩

theorem witness_RaiseWritesTheErrorFields :
    State.reset.err = false ∧ (Instr.enc 257#9).wellFormed = false ∧ (Instr.putb 3#5 8#16).wellFormed = false :=
  ⟨rfl, by decide, by decide⟩
theorem witness_IllegalWordRaisesIllegalCmd :
    decode 0xFFFFFFFF#32 = .error .unassignedOpcode ∧ State.reset.err = false ∧
      { State.reset with err := true }.err = true := ⟨by decide, rfl, rfl⟩
theorem witness_WordsAreIgnoredWhileErr :
    { State.reset with err := true }.err = true ∧ (0x01000001#32 : Word) ≠ 0x01000000#32 := ⟨rfl, by decide⟩

/-- The reserved registers and the ignored writes, at the ends of their ranges. -/
theorem witness_RegisterMapHasItsContents :
    0x28 ≤ 0x28 ∧ 0x28 ≤ 0x3C ∧ 0x28 ≤ 0x3C ∧ 0x3C ≤ 0x3C ∧ 0 < 4 ∧ 4 < 64 ∧ 4 % 4 = 0 ∧ 0x3C < 64 ∧ 0x3C % 4 = 0 := by
  decide
theorem witness_ReadsAreExactAndBadAccessesRefused :
    0x3C < 64 ∧ 0x3C % 4 = 0 ∧ State.reset.busy = false ∧ { State.reset with busy := true }.busy = true ∧ 63 < 64 ∧
      (8 ≠ 32 ∨ 0x3C % 4 ≠ 0) ∧ (32 ≠ 32 ∨ 63 % 4 ≠ 0) := by
  exact ⟨by decide, by decide, rfl, rfl, by decide, by decide, by decide⟩
theorem witness_CmdWriteIsStalledWhileBusy : { State.reset with busy := true }.busy = true := rfl

theorem witness_WclrClearsEveryWeight :
    weightsAab.err = false ∧ ∀ j, j < 257 → weight State.reset.w j = 0#32 := ⟨rfl, fun _ _ => weight_zero _⟩
theorem witness_CountAddsOneOrOverflows :
    weightsAab.err = false ∧ (weight weightsAab.w (65#8).toNat).toNat < 2 ^ 32 - 1 ∧
      (weight (setWeight 65 0xFFFFFFFF#32 State.reset).w (65#8).toNat).toNat = 2 ^ 32 - 1 := by
  exact ⟨rfl, by decide +kernel, by decide +kernel⟩
theorem witness_CfinFixesTheEosWeight : weightsAab.err = false := rfl
theorem witness_WsetWritesAndWgetReads :
    weightsAab.err = false ∧ (256#9 : Sym).toNat ≤ 256 ∧ 256 < (257#9 : Sym).toNat := ⟨rfl, by decide, by decide⟩
theorem witness_LdalLoadsTheLowHalf : { State.reset with arg := 0x12345678#32 }.err = false := rfl
theorem witness_LdahLoadsTheHighHalf : { State.reset with arg := 0x12345678#32 }.err = false := rfl

theorem witness_ExtractMinTakesTheLightest :
    extractMin [(2#41, 0), (1#41, 1), (1#41, 2)] = some ((1#41, 1), [(2#41, 0), (1#41, 2)]) := by decide +kernel
theorem witness_BuildCountsItsNodes :
    weightsAab.err = false ∧ weight weightsAab.w 256 ≠ 0#32 ∧ (presentSymbols weightsAab.w)[2]? = some 256 := by
  exact ⟨rfl, by decide +kernel, by decide +kernel⟩
theorem witness_BuildMakesATree : weightsAab.err = false ∧ weight weightsAab.w 256 ≠ 0#32 :=
  ⟨rfl, by decide +kernel⟩
theorem witness_BuildDependsOnWeightsOnly :
    weightsAab.err = false ∧ { desAab with w := weightsAab.w }.err = false ∧ weight weightsAab.w 256 ≠ 0#32 ∧
      weightsAab.w = { desAab with w := weightsAab.w }.w ∧ State.reset.err = false ∧ weight State.reset.w 256 = 0#32 :=
  ⟨rfl, rfl, by decide +kernel, rfl, rfl, weight_zero _⟩

/-- Where the "AAB" tree stands after DES, and after BUILD. -/
theorem spans_desAab : Spans desAab.nodes 0#10 treeAab [0#10, 1#10, 2#10, 3#10, 4#10] :=
  .node (l := 1) (r := 2) (wt := 0) (by decide +kernel) (.leaf (wt := 0) (by decide +kernel))
    (.node (l := 3) (r := 4) (wt := 0) (by decide +kernel) (.leaf (wt := 0) (by decide +kernel))
      (.leaf (wt := 0) (by decide +kernel)))

theorem spans_buildAab : Spans buildAab.nodes 4#10 treeAab [4#10, 0#10, 3#10, 1#10, 2#10] :=
  .node (l := 0) (r := 3) (wt := 4) (by decide +kernel) (.leaf (wt := 2) (by decide +kernel))
    (.node (l := 1) (r := 2) (wt := 2) (by decide +kernel) (.leaf (wt := 1) (by decide +kernel))
      (.leaf (wt := 1) (by decide +kernel)))

theorem legal_treeAab : LegalSymbols treeAab := by
  unfold LegalSymbols
  decide +kernel

theorem describes_desAab : DescribesTree desAab treeAab :=
  ⟨_, spans_desAab, by decide +kernel, by decide +kernel, legal_treeAab⟩

theorem describes_buildAab : DescribesTree buildAab treeAab :=
  ⟨_, spans_buildAab, by decide +kernel, by decide +kernel, legal_treeAab⟩

/-- After BUILD of "AAB", a node index in use and the tree under it. -/
theorem witness_BuildSumsWeightsExactly :
    weightsAab.err = false ∧ weight weightsAab.w 256 ≠ 0#32 ∧ (4#10 : NodeIdx).toNat < buildAab.nodecnt.toNat ∧
      HoldsTree buildAab.nodes 4#10 treeAab :=
  ⟨rfl, by decide +kernel, by decide +kernel, _, spans_buildAab⟩

/-- The first merge of "AAB" with the third leaf still waiting. -/
theorem witness_BuildMergesTheTwoLightest :
    weightsAab.err = false ∧ weight weightsAab.w 256 ≠ 0#32 ∧ (presentSymbols weightsAab.w).length ≤ 3 ∧
      3 < 2 * (presentSymbols weightsAab.w).length - 1 ∧ WaitsAt buildAab.nodes 3 (0#10 : NodeIdx).toNat ∧
      nodeAt buildAab.nodes 3#10 = some (.internal 1 2 2) ∧ (0#10 : NodeIdx) ≠ 1#10 ∧ (0#10 : NodeIdx) ≠ 2#10 := by
  refine ⟨rfl, by decide +kernel, by decide +kernel, by decide +kernel, ⟨by decide, fun i l r wt hi h => ?_⟩,
    by decide +kernel, by decide, by decide⟩
  have leaves : nodeAt buildAab.nodes 0#10 = some (.leaf 65 2) ∧ nodeAt buildAab.nodes 1#10 = some (.leaf 66 1) ∧
      nodeAt buildAab.nodes 2#10 = some (.leaf 256 1) := by decide +kernel
  have three : i = 0#10 ∨ i = 1#10 ∨ i = 2#10 := by bv_omega
  rcases three with rfl | rfl | rfl
  · rw [leaves.1] at h; cases h
  · rw [leaves.2.1] at h; cases h
  · rw [leaves.2.2] at h; cases h

theorem witness_HeaderIsSelfDelimiting : treeAab.header ++ [true] = treeAab.header ++ [true] := rfl

theorem takes_all (s : State) (h : s.out = ⟨[], none, 0, false⟩) (n : Nat) : OutputTakes s n := by
  simp [OutputTakes, h]

theorem witness_SerGivesTheHeader :
    State.reset.treeValid = false ∧ buildAab.err = false ∧ buildAab.treeValid = true ∧ HoldsTree buildAab.nodes buildAab.root treeAab ∧
      treeAab.size ≤ 513 ∧ OutputTakes buildAab treeAab.header.length :=
  ⟨rfl, rfl, rfl, ⟨_, spans_buildAab⟩, by decide, takes_all _ rfl _⟩
theorem witness_DesReadsTheHeader :
    (withInput "01001000001010010000101100000000001011").err = false ∧
      InputGives (withInput "01001000001010010000101100000000001011") treeAab.header (bits "001011") ∧
      treeAab.size ≤ 513 ∧ LegalSymbols treeAab :=
  ⟨rfl, ⟨rfl, by decide +kernel⟩, by decide, legal_treeAab⟩
/-- A chain of internal nodes with a leaf at its end, each with a leaf to its right. -/
def chain : Nat → Tree
  | 0 => .leaf 0
  | n + 1 => .node (chain n) (.leaf 256)

theorem legal_chain (n : Nat) : LegalSymbols (chain n) := by
  induction n with
  | zero => simp [LegalSymbols, chain, Tree.leaves]
  | succ n ih =>
    intro sym h
    simp only [chain, Tree.leaves, List.mem_append, List.mem_singleton] at h
    rcases h with h | rfl
    · exact ih sym h
    · decide

theorem chain_header (n : Nat) : ∃ more, more ≠ [] ∧ (chain n).header = List.replicate n false ++ more := by
  induction n with
  | zero => exact ⟨(Tree.leaf 0).header, by decide, rfl⟩
  | succ n ih =>
    obtain ⟨more, -, h⟩ := ih
    exact ⟨more ++ (Tree.leaf 256).header, by simp [Tree.header], by simp [chain, Tree.header, h, List.replicate_succ]⟩

/-- A state whose port gives these bits. -/
def givesBits (bs : Bits) : State := { State.reset with inp := ⟨bs, false, false⟩ }

theorem inputGives_all (bs : Bits) : InputGives (givesBits bs) bs [] := ⟨rfl, (List.append_nil bs).symm⟩

/-- End before the last bit of a header; after 400 shape bits 0, with a tree that goes on from there; inside a field above 256. -/
theorem witness_DesDetectsATruncatedHeader :
    (withInput "0100").err = false ∧ (withInput "0100").inp.ioErr = false ∧ (withInput "0100").inp.ended = true ∧
      (treeAab.header = (withInput "0100100000101001000010110000000").inp.bits ++ [false] ∧ [false] ≠ [] ∧
        (withInput "0100100000101001000010110000000").inp.bits.length ≤ (treeAab.nodeBits.take 513).flatten.length) ∧
      (∃ more, more ≠ [] ∧ (chain 400).header = List.replicate 400 false ++ more) ∧
      400 ≤ ((chain 400).nodeBits.take 513).flatten.length ∧
      (∃ st, feed parseBit (Parse.start, State.reset.nodes) (withInput "111").inp.bits = .dry st) ∧
      ((Tree.leaf 384).header = (withInput "111").inp.bits ++ List.replicate 7 false ∧
        (Tree.leaf 384).nodeBits[0]? = some (true :: msbBits 9 384) ∧
        (withInput "111").inp.bits.length < ((Tree.leaf 384).nodeBits.take 1).flatten.length) :=
  ⟨rfl, rfl, rfl, ⟨by decide +kernel, by decide, by decide +kernel⟩,
    chain_header 400, by decide +kernel, ⟨_, rfl⟩, by decide +kernel, by decide +kernel, by decide +kernel⟩

/-- The parse before the first node, and after 513 pending ones; a bad field at the root and below an internal node; a header of
601 nodes, 300 of them pending at once. -/
theorem witness_DesRefusesBadHeaders :
    (∃ p nodes, feed parseBit (Parse.start, State.reset.nodes) [false] = .dry (p, nodes) ∧ p.field = none ∧ p.n < 513 ∧
      256 < 257 ∧ 257 < 512 ∧ 511 < 512 ∧
      InputGives (givesBits ([false] ++ true :: msbBits 9 257)) ([false] ++ true :: msbBits 9 257) []) ∧
    (∃ p nodes, feed parseBit (Parse.start, State.reset.nodes) (List.replicate 513 false) = .dry (p, nodes) ∧
      p.field = none ∧ p.n = 513 ∧
      InputGives (givesBits (List.replicate 513 false ++ [true])) (List.replicate 513 false ++ [true]) []) ∧
    LegalSymbols (chain 300) ∧ 513 < (chain 300).size ∧
      InputGives (givesBits (((chain 300).nodeBits.take 513).flatten ++ [false]))
        (((chain 300).nodeBits.take 513).flatten ++ [false]) [] := by
  refine ⟨⟨_, _, rfl, rfl, by decide, by decide, by decide, by decide, inputGives_all _⟩, ?_, legal_chain 300,
    by decide +kernel, inputGives_all _⟩
  cases h : feed parseBit (Parse.start, State.reset.nodes) (List.replicate 513 false) with
  | dry st =>
    have hn : (match feed parseBit (Parse.start, State.reset.nodes) (List.replicate 513 false) with
      | .dry st => st.1.field == none && st.1.n == 513
      | .done _ _ => false) = true := by decide +kernel
    rw [h] at hn
    simp only [Bool.and_eq_true, beq_iff_eq] at hn
    exact ⟨st.1, st.2, rfl, hn.1, hn.2, inputGives_all _⟩
  | done r rest =>
    have hn : (match feed parseBit (Parse.start, State.reset.nodes) (List.replicate 513 false) with
      | .dry _ => true
      | .done _ _ => false) = true := by decide +kernel
    rw [h] at hn
    cases hn
theorem witness_SerThenDesKeepsTheTree :
    buildAab.err = false ∧ buildAab.treeValid = true ∧ DescribesTree buildAab treeAab ∧
      OutputTakes buildAab treeAab.header.length ∧
      InputGives (withInput "01001000001010010000101100000000") treeAab.header [] :=
  ⟨rfl, rfl, describes_buildAab, takes_all _ rfl _, rfl, by decide +kernel⟩

theorem witness_FlatWritesTheCodes :
    buildAab.err = false ∧ buildAab.treeValid = true ∧ HoldsTree buildAab.nodes buildAab.root treeAab ∧
      treeAab.size ≤ 513 ∧ LegalSymbols treeAab ∧ treeAab.leaves.Nodup :=
  ⟨rfl, rfl, ⟨_, spans_buildAab⟩, by decide, legal_treeAab, by decide⟩
theorem witness_FlatRefusesDuplicates :
    State.reset.treeValid = false ∧ twiceA.err = false ∧ twiceA.treeValid = true ∧ HoldsTree twiceA.nodes twiceA.root (.node (.leaf 65) (.leaf 65)) ∧
      (Tree.node (.leaf 65) (.leaf 65)).size ≤ 513 ∧ LegalSymbols (.node (.leaf 65) (.leaf 65)) ∧
      ¬(Tree.node (.leaf 65) (.leaf 65)).leaves.Nodup :=
  ⟨rfl, rfl, rfl, ⟨_, .node (l := 1) (r := 2) (wt := 0) (by decide +kernel) (.leaf (wt := 0) (by decide +kernel))
    (.leaf (wt := 0) (by decide +kernel))⟩, by decide, by unfold LegalSymbols; decide +kernel, by decide⟩

/-- FLAT of "AAB" ends without error and leaves two codes. -/
theorem witness_CodesArePrefixFree :
    DescribesTree buildAab treeAab ∧ (65#9 : Sym) ≠ 66#9 ∧ ∃ t, exec .flat buildAab = .next t ∧
      (t.err, (codeEntry t.ct 65#9).valid, (codeEntry t.ct 66#9).valid) = (false, true, true) :=
  ⟨describes_buildAab, by decide, next_of_after (by decide +kernel)⟩
theorem witness_ClenAndCwordRead :
    flatAab.err = false ∧ (66#9 : Sym).toNat ≤ 256 ∧ flatAab.tableValid = true ∧
      (codeEntry flatAab.ct 66#9).valid = true ∧ buildAab.tableValid = false ∧
      (codeEntry flatAab.ct 67#9).valid = false :=
  ⟨rfl, by decide, rfl, by decide +kernel, rfl, by decide +kernel⟩
theorem witness_CwordPacksMsbFirst : 255 < 256 ∧ 1 < (entry "10").len.toNat ∧ ¬2 < (entry "10").len.toNat := by
  decide +kernel

theorem witness_EncGivesTheCode :
    flatAab.err = false ∧ (256#9 : Sym).toNat ≤ 256 ∧ flatAab.tableValid = true ∧
      (codeEntry flatAab.ct 256#9).valid = true ∧
      OutputTakes flatAab (entryCode (codeEntry flatAab.ct 256#9)).length ∧ buildAab.tableValid = false ∧
      (codeEntry flatAab.ct 67#9).valid = false :=
  ⟨rfl, by decide, rfl, by decide +kernel, takes_all _ rfl _, rfl, by decide +kernel⟩
theorem witness_PutbGivesTheField :
    State.reset.err = false ∧ 1 ≤ (16#5 : BitVec 5).toNat ∧ (16#5 : BitVec 5).toNat ≤ 16 ∧
      (0xFFFF#16 : BitVec 16).toNat < 2 ^ (16#5 : BitVec 5).toNat ∧ OutputTakes State.reset (16#5 : BitVec 5).toNat ∧
      (0#5 : BitVec 5).toNat = 0 ∧ 16 < (17#5 : BitVec 5).toNat ∧
      2 ^ (3#5 : BitVec 5).toNat ≤ (8#16 : BitVec 16).toNat :=
  ⟨rfl, by decide, by decide, by decide, takes_all _ rfl _, by decide, by decide, by decide⟩
theorem witness_FlushPadsToAByte :
    { State.reset with outcnt := 70#32, out := ⟨[], some 3, 0, false⟩ }.err = false ∧
      (70#32 : Word).toNat % 8 = 6 ∧ ∀ r, some 3 = some r → 2 < r := by
  exact ⟨rfl, by decide, by simp⟩

theorem witness_DstartArmsTheDecoder :
    State.reset.treeValid = false ∧ nodeAt desAab.nodes desAab.root = some (.internal 1 2 0) ∧
      (∀ sym wt, Node.internal 1 2 0 = .leaf sym wt → sym = 256#9) ∧
      nodeAt loneLiteral.nodes loneLiteral.root = some (.leaf 65 0) ∧
      (∀ sym wt, Node.leaf 65 0 = .leaf sym wt → sym ≠ 256#9) := by
  refine ⟨rfl, by decide +kernel, by simp, by decide +kernel, ?_⟩
  rintro sym wt h
  cases h
  decide

/-- A two-bit code with bits behind it; a lone EOS leaf. -/
theorem witness_DsymDecodesACode :
    desAab.decActive = false ∧ (armedAab "110").decActive = true ∧
      HoldsTree (armedAab "110").nodes (armedAab "110").cursor treeAab ∧
      ((256#9, [true, true]) : Sym × Bits) ∈ treeAab.codes ∧ InputGives (armedAab "110") [true, true] [false] ∧
      ((256#9, []) : Sym × Bits) ∈ (Tree.leaf 256).codes :=
  ⟨rfl, rfl, ⟨_, spans_desAab⟩, by decide, ⟨rfl, by decide +kernel⟩, by decide⟩
theorem witness_DsymDetectsATruncatedPayload :
    (armedAab "1").err = false ∧ (armedAab "1").decActive = true ∧
      HoldsTree (armedAab "1").nodes (armedAab "1").cursor treeAab ∧ (armedAab "1").inp.ioErr = false ∧
      (armedAab "1").inp.ended = true ∧ ∀ c ∈ treeAab.codes, ¬c.2 <+: (armedAab "1").inp.bits :=
  ⟨rfl, rfl, ⟨_, spans_desAab⟩, rfl, rfl, by decide +kernel⟩
theorem witness_GetbReadsTheField :
    (withInput "101011").err = false ∧ 1 ≤ (5#5 : BitVec 5).toNat ∧ (16#5 : BitVec 5).toNat ≤ 16 ∧
      InputGives (withInput "101011") (bits "10101") [true] ∧ (bits "10101").length = (5#5 : BitVec 5).toNat ∧
      (withInput "101011").inp.ioErr = false ∧ (withInput "101011").inp.ended = true ∧
      (withInput "101011").inp.bits.length < (16#5 : BitVec 5).toNat ∧ (0#5 : BitVec 5).toNat = 0 ∧
      16 < (17#5 : BitVec 5).toNat :=
  ⟨rfl, by decide, by decide, ⟨rfl, by decide +kernel⟩, by decide, rfl, rfl, by decide +kernel, by decide, by decide⟩

theorem witness_InspectionReadsNodes :
    buildAab.err = false ∧ buildAab.treeValid = true ∧ (4#10 : NodeIdx).toNat < buildAab.nodecnt.toNat ∧
      nodeAt buildAab.nodes 4#10 = some (.internal 0 3 4) ∧ State.reset.treeValid = false ∧
      buildAab.nodecnt.toNat ≤ (5#10 : NodeIdx).toNat :=
  ⟨rfl, rfl, by decide +kernel, by decide +kernel, rfl, by decide +kernel⟩

/-- A state with both port errors pending, a table, a tree and an armed decoder. -/
def brokenPorts : State :=
  { flatAab with
    decActive := true, cursor := 4#10, inp := ⟨[true], false, true⟩, out := ⟨[], none, 0, true⟩ }

theorem witness_PortErrorsAbort :
    brokenPorts.err = false ∧ brokenPorts.out.ioErr = true ∧ (Instr.putb 1#5 1#16).wellFormed = true ∧
      (256#9 : Sym).toNat ≤ 256 ∧ brokenPorts.tableValid = true ∧ (codeEntry brokenPorts.ct 256#9).valid = true ∧
      (codeEntry brokenPorts.ct 256#9).len ≠ 0#9 ∧ brokenPorts.treeValid = true ∧
      nodeAt brokenPorts.nodes brokenPorts.root = some (.internal 0 3 4) ∧ brokenPorts.inp.ioErr = true ∧
      (Instr.getb 16#5).wellFormed = true ∧ brokenPorts.decActive = true ∧
      nodeAt brokenPorts.nodes brokenPorts.cursor = some (.internal 0 3 4) :=
  ⟨rfl, rfl, by decide, by decide, rfl, by decide +kernel, by decide +kernel, rfl, by decide +kernel, rfl, by decide, rfl,
    by decide +kernel⟩

theorem witness_EmptyAndFullPortsHold :
    (State.reset.err = false ∧ State.reset.inp.ioErr = false ∧ State.reset.inp.ended = false ∧
      (Instr.getb 1#5).wellFormed = true ∧ State.reset.inp.bits.length < (1#5 : BitVec 5).toNat ∧
      ∃ p nodes, feed parseBit (Parse.start, State.reset.nodes) State.reset.inp.bits = .dry (p, nodes)) ∧
    ({ armedAab "1" with inp := ⟨[true], false, false⟩ }.decActive = true ∧
      HoldsTree (armedAab "1").nodes (armedAab "1").cursor treeAab ∧ ∀ c ∈ treeAab.codes, ¬c.2 <+: [true]) ∧
    ({ flatAab with out := ⟨[], some 1, 0, false⟩ }.out.room = some 1 ∧ (Instr.putb 2#5 1#16).wellFormed = true ∧
      1 < (2#5 : BitVec 5).toNat ∧ flatAab.tableValid = true ∧ (codeEntry flatAab.ct 66#9).valid = true ∧
      1 < (entryCode (codeEntry flatAab.ct 66#9)).length) ∧
    (buildAab.treeValid = true ∧ HoldsTree buildAab.nodes buildAab.root treeAab ∧ treeAab.size ≤ 513 ∧
      31 < treeAab.header.length) ∧
    ((70#32 : Word).toNat + 2) % 8 = 0 ∧ 1 ≤ 2 ∧ 2 ≤ 2 :=
  ⟨⟨rfl, rfl, rfl, by decide, by decide, _, _, rfl⟩, ⟨rfl, ⟨_, spans_desAab⟩, by decide +kernel⟩,
    ⟨rfl, by decide, by decide, rfl, by decide +kernel, by decide +kernel⟩,
    ⟨rfl, ⟨_, spans_buildAab⟩, by decide, by decide +kernel⟩, by decide, by decide, by decide⟩
/-- A port that has ended, and one that has not. -/
theorem witness_HeldInputCommandsGoOn_moves :
    (withInput "10").inp.ended = true ∧ State.reset.inp.ended = false ∧
      (∃ t, exec (.getb 1#5) (withInput "10") = .next t) ∧ (∃ t, resume (.getb 1 0) (withInput "10") = .next t) ∧
      HostMove.supply [true] ≠ .reopenInput ∧ ∃ t, hostMove (.supply [true]) (withInput "10") = .next t :=
  ⟨rfl, rfl, is_next (by decide +kernel), is_next (by decide +kernel), by decide, ⟨_, rfl⟩⟩
theorem witness_HeldInputCommandsGoOn :
    (∃ h, exec .des State.reset = .next h ∧ h.job = some (.des Parse.start 0)) ∧
      (∃ h, exec .dsym { armedAab "1" with inp := ⟨[true], false, false⟩ } = .next h ∧ h.job = some .dsym) ∧
      (∃ h, exec (.getb 3#5) State.reset = .next h ∧ h.job = some (.getb 3 0)) ∧
      ∃ h, resume (.getb 3 0) (givesBits (bits "10")) = .next h ∧ h.job = some (.getb 1 2) :=
  ⟨is_held (by decide +kernel), is_held (by decide +kernel), is_held (by decide +kernel), is_held (by decide +kernel)⟩
theorem witness_HeldOutputCommandsGoOn_moves :
    { State.reset with out := ⟨[], some 2, 0, false⟩ }.out.room = some 2 ∧ State.reset.out.room = none ∧
      ∃ h, resume (.putb [true, false]) { State.reset with out := ⟨[], some 1, 0, false⟩ } = .next h ∧
        h.job = some (.putb [false]) :=
  ⟨rfl, rfl, is_held (by decide +kernel)⟩
theorem witness_HeldOutputCommandsGoOn :
    (∃ h, exec .flush { State.reset with outcnt := 70#32, out := ⟨[], some 2, 0, false⟩ } = .next h ∧
        h.job = some (.flush [] 2)) ∧
      (∃ h, exec (.enc 66#9) { flatAab with out := ⟨[], some 1, 0, false⟩ } = .next h ∧
        h.job = some (.enc [false] 2#9)) ∧
      (∃ h, exec (.putb 3#5 5#16) { State.reset with out := ⟨[], some 2, 0, false⟩ } = .next h ∧
        h.job = some (.putb [true])) ∧
      TreeInvariant { buildAab with out := ⟨[], some 1, 0, false⟩ } ∧
      ∃ h, exec .ser { buildAab with out := ⟨[], some 1, 0, false⟩ } = .next h ∧
        h.job = some (.ser (bits "1001000001") [3#10] 11) :=
  ⟨is_held (by decide +kernel), is_held (by decide +kernel), is_held (by decide +kernel),
    fun _ => ⟨treeAab, describes_buildAab⟩, is_held (by decide +kernel)⟩

theorem witness_OnlyResultCommandsWriteResult :
    (∃ t, exec .reset flatAab = .next t) ∧ (∃ t, exec (.count 65#8) weightsAab = .next t) ∧
      (∃ t, exec (.clen 67#9) flatAab = .next t ∧ t.err = true) ∧
      (∃ t, exec (.getb 3#5) State.reset = .next t ∧ t.job = some (.getb 3 0)) ∧ State.reset.err = false ∧
      (∃ t, resume (.putb [true]) State.reset = .next t) ∧
      (∃ t, resume (.getb 3 0) (withInput "10") = .next t ∧ t.err = true) ∧
      ∃ t, resume (.getb 3 0) (givesBits (bits "10")) = .next t ∧ t.job = some (.getb 1 2) :=
  ⟨is_next (by decide +kernel), is_next (by decide +kernel), next_of_after (by decide +kernel), is_held (by decide +kernel),
    rfl, is_next (by decide +kernel), next_of_after (by decide +kernel), is_held (by decide +kernel)⟩
theorem witness_OnlyLoadersWriteWeightsAndArg :
    (∃ t, exec .build weightsAab = .next t) ∧ (∃ t, exec (.wset 65#9) weightsAab = .next t) ∧
      ∃ t, resume (.putb [true]) State.reset = .next t :=
  ⟨is_next (by decide +kernel), is_next (by decide +kernel), is_next (by decide +kernel)⟩
theorem witness_OnlyTheirCommandsWriteTreeTableDecoder :
    (∃ t, exec .dsym (armedAab "0") = .next t) ∧ (∃ t, exec .flat buildAab = .next t) ∧
      (∃ t, exec .ser buildAab = .next t) ∧ (∃ t, resume .dsym (armedAab "0") = .next t) ∧
      ∃ t, resume (.des Parse.start 0) (withInput "1100000000") = .next t :=
  ⟨is_next (by decide +kernel), is_next (by decide +kernel), is_next (by decide +kernel), is_next (by decide +kernel),
    is_next (by decide +kernel)⟩
theorem witness_CountersCountTheStreams :
    (∃ t, exec (.getb 3#5) (withInput "101") = .next t) ∧ ∃ t, resume (.putb [true]) State.reset = .next t :=
  ⟨is_next (by decide +kernel), is_next (by decide +kernel)⟩
theorem witness_TheFirstErrorStays :
    (∃ t, exec .build { State.reset with err := true } = .next t) ∧ { State.reset with err := true }.err = true :=
  ⟨is_next (by decide +kernel), rfl⟩

/-- The decoder armed on the "AAB" tree, with DSYM as the host's next command. -/
def invariantState : State := { armedAab "11" with moves := [.write (.offset 0) 32 0x61000000#32] }

theorem invariantState_flags : FlagInvariant invariantState where
  busy := rfl
  heldIn := rfl
  heldOut := rfl
  heldNoError := by simp [invariantState, armedAab, desAab, State.reset]
  job := by simp [invariantState, armedAab, desAab, State.reset]
  noError := fun _ => ⟨rfl, rfl⟩
  error := by simp [invariantState, armedAab, desAab, State.reset]
  armedOrDone := by simp [invariantState, armedAab, desAab, State.reset]
  armedTree := fun _ => rfl
  doneTree := fun _ => rfl
  tableTree := fun _ => rfl

theorem invariantState_all : Invariant invariantState where
  flags := invariantState_flags
  tree := fun _ => ⟨treeAab, _, spans_desAab, by decide +kernel, by decide +kernel, legal_treeAab⟩
  table := by simp [TableInvariant, invariantState, armedAab, desAab, State.reset]
  cursor := fun _ _ _ => rfl
  held := by simp [invariantState, armedAab, desAab, State.reset]

theorem witness_StepKeepsTheFlagInvariant :
    FlagInvariant invariantState ∧ ∃ t, step invariantState = .next t :=
  ⟨invariantState_flags, is_next (by decide +kernel)⟩
theorem witness_StepKeepsTheInvariant : Invariant invariantState ∧ ∃ t, step invariantState = .next t :=
  ⟨invariantState_all, is_next (by decide +kernel)⟩
theorem witness_NoStepLeavesTheTree : Invariant invariantState := invariantState_all

end Sys2Proof.Machine.Tests
end

/-! ## What a command's outcome can be (R34, R42, R43, R48, R304)

Every command, and every held command that goes on, works on the state within the effects its rule lists, and then completes,
raises an error or is held. `exec_ends` and `resume_ends` say so once; the rules about all commands are read off them. -/

namespace Sys2Proof.Machine

section Meets

/-- If the result is a state it satisfies `Q`, and it is the fault `brokenTree` only if `broken`. -/
def Meets (broken : Prop) (Q : State → Prop) (r : Result) : Prop :=
  (∀ t, r = .next t → Q t) ∧ (r = .fault .brokenTree → broken)

variable {broken : Prop} {Q : State → Prop} {s : State}

@[simp] theorem meets_next {t : State} : Meets broken Q (.next t) ↔ Q t := by simp [Meets]

@[simp] theorem meets_brokenTree : Meets broken Q (.fault .brokenTree) ↔ broken := by simp [Meets]

theorem Meets.mono {b : Prop} {P : State → Prop} {r : Result} (h : Meets broken Q r) (hb : broken → b)
    (hq : ∀ t, Q t → P t) : Meets b P r :=
  ⟨fun t ht => hq t (h.1 t ht), fun hr => hb (h.2 hr)⟩

theorem Meets.notBroken {r : Result} (h : Meets False Q r) : NotBroken r := h.2

/-- A claim about the states of a result and one about its fault make one about both. -/
theorem Meets.and {b : Prop} {P : State → Prop} {r : Result} (h : Meets b P r) (hn : Meets broken Q r) :
    Meets broken (fun t => P t ∧ Q t) r :=
  ⟨fun t ht => ⟨h.1 t ht, hn.1 t ht⟩, hn.2⟩

theorem command_meets {i : Instr} {body : State → Result} (ignored : s.err = true → Q (complete s))
    (illegal : s.err = false → Q (errorState i.opcode .illegalCmd s))
    (runs : s.err = false → i.wellFormed = true → Meets broken Q (body s)) : Meets broken Q (command i body s) := by
  rcases command_cases i body s with ⟨he, h⟩ | ⟨he, -, h⟩ | ⟨he, hw, h⟩
  · simpa [h] using ignored he
  · simpa [h] using illegal he
  · simpa [h] using runs he hw

theorem require_meets {c : Bool} {op : Opcode} {e : ErrCode} {body : State → Result}
    (fails : c = false → Q (errorState op e s)) (holds : c = true → Meets broken Q (body s)) :
    Meets broken Q (require c op e body s) := by
  cases h : c
  · simpa [require_fails] using fails h
  · simpa [require_holds] using holds h

theorem withNode_meets {i : NodeIdx} {body : Node → State → Result} (outside : nodeAt s.nodes i = none → broken)
    (inside : ∀ nd, nodeAt s.nodes i = some nd → Meets broken Q (body nd s)) : Meets broken Q (withNode i body s) := by
  cases h : nodeAt s.nodes i with
  | none => simpa [withNode, h] using outside h
  | some nd => simpa [withNode, h] using inside nd h

/-- The state of a command held with the partial state `j` (R43, R84). -/
def heldState (j : Job) (s : State) : State :=
  { s with busy := true, heldIn := j.takesInput, heldOut := !j.takesInput, job := some j }

theorem holdIn_eq {j : Job} (h : j.takesInput = true) : holdIn j s = .next (heldState j s) := by
  simp [holdIn, heldState, h]

theorem holdOut_eq {j : Job} (h : j.takesInput = false) : holdOut j s = .next (heldState j s) := by
  simp [holdOut, heldState, h]

theorem emit_meets {op : Opcode} {bits : Bits} {held : Bits → Job} {next : State → Result}
    (onOutput : ∀ rest, (held rest).takesInput = false)
    (all : Meets broken Q (next (accepted bits s)))
    (full : ∀ given rest, s.out.ioErr = false → bits = given ++ rest → Q (heldState (held rest) (accepted given s)))
    (failed : Q (errorState op .ioError (outputErrorTaken s))) : Meets broken Q (emit op bits held next s) := by
  rcases emit_cases op bits held next s with h | ⟨given, b, rest, hb, hio, -, h⟩ | ⟨-, -, h⟩
  · rwa [h]
  · simpa [h, holdOut_eq (onOutput _)] using full given (b :: rest) hio hb
  · simpa [h] using failed

theorem flushPort_meets {op : Opcode} {held : Job} {next : State → Result} (onOutput : held.takesInput = false)
    (flushed : Meets broken Q (next { s with out := { s.out with flushed := s.out.stream.length } }))
    (full : Q (heldState held s)) (failed : Q (errorState op .ioError (outputErrorTaken s))) :
    Meets broken Q (flushPort op held next s) := by
  unfold flushPort
  split
  · simpa [raiseError] using failed
  · split
    · simpa [holdOut_eq onOutput] using full
    · exact flushed

end Meets

/-! ### The effects of a command -/

/-- Which command a partial state belongs to. -/
inductive JobKind where
  | ser | des | enc | putb | flush | dsym | getb

/-- The command a partial state is kept for (R47 (c)). -/
def Job.kind : Job → JobKind
  | .ser _ _ _ => .ser
  | .des _ _ => .des
  | .enc _ _ => .enc
  | .putb _ => .putb
  | .flush _ _ => .flush
  | .dsym => .dsym
  | .getb _ _ => .getb

/-- What a command may write beside the ports, ERR and its hold (R48), whether it reads the node store, and which
command it is held as. -/
structure Effects where
  result : Bool := false
  weights : Bool := false
  arg : Bool := false
  tree : Bool := false
  table : Bool := false
  decoder : Bool := false
  readsNodes : Bool := false
  held : Option JobKind := none

/-- The effects of each command (R48's table); RESET, which writes everything, has none listed. -/
def effects : Instr → Effects
  | .nop => {}
  | .reset => {}
  | .wclr => { weights := true }
  | .count _ => { weights := true }
  | .cfin => { weights := true }
  | .wset _ => { weights := true }
  | .wget _ => { result := true }
  | .ldal _ => { arg := true }
  | .ldah _ => { arg := true }
  | .build => { result := true, tree := true, table := true, decoder := true }
  | .ser => { result := true, readsNodes := true, held := some .ser }
  | .des => { result := true, tree := true, table := true, decoder := true, held := some .des }
  | .flat => { result := true, table := true, readsNodes := true }
  | .clen _ => { result := true }
  | .cword _ _ => { result := true }
  | .enc _ => { result := true, held := some .enc }
  | .putb _ _ => { held := some .putb }
  | .flush => { result := true, held := some .flush }
  | .dstart => { decoder := true, readsNodes := true }
  | .dsym => { result := true, decoder := true, readsNodes := true, held := some .dsym }
  | .getb _ => { result := true, held := some .getb }
  | .nget _ => { result := true, readsNodes := true }
  | .nwlo _ => { result := true, readsNodes := true }
  | .nwhi _ => { result := true, readsNodes := true }

/-- The effects of a held command that goes on. -/
def jobEffects : Job → Effects
  | .ser _ _ _ => { result := true, readsNodes := true, held := some .ser }
  | .des _ _ => { result := true, tree := true, held := some .des }
  | .enc _ _ => { result := true, held := some .enc }
  | .putb _ => { held := some .putb }
  | .flush _ _ => { result := true, held := some .flush }
  | .dsym => { result := true, decoder := true, readsNodes := true, held := some .dsym }
  | .getb _ _ => { result := true, held := some .getb }

/-- The clauses of `FlagInvariant` that do not speak of the hold or the error fields: the decoder is armed or done, never both
(R240), and it and the code table have a tree (R48, R242). -/
structure TreeFlags (s : State) : Prop where
  armedOrDone : ¬(s.decActive = true ∧ s.decDone = true)
  armedTree : s.decActive = true → s.treeValid = true
  doneTree : s.decDone = true → s.treeValid = true
  tableTree : s.tableValid = true → s.treeValid = true

/-- Between `s` and `t` nothing but the allowed effects has happened, and the bits given and taken are counted (R42, R48). -/
structure Unchanged (e : Effects) (s t : State) : Prop where
  host : t.moves = s.moves ∧ t.stalled = s.stalled ∧ t.rdata = s.rdata
  weights : e.weights = false → t.w = s.w
  arg : e.arg = false → t.arg = s.arg
  tree : e.tree = false → t.treeValid = s.treeValid ∧ t.nodes = s.nodes ∧ t.nodecnt = s.nodecnt ∧ t.root = s.root ∧
    t.leafcnt = s.leafcnt
  table : e.table = false → t.ct = s.ct ∧ t.tableValid = s.tableValid
  decoder : e.decoder = false → t.decActive = s.decActive ∧ t.decDone = s.decDone ∧ t.cursor = s.cursor
  given : ∃ given, t.out.stream = s.out.stream ++ given ∧ t.outcnt = s.outcnt + BitVec.ofNat 32 given.length
  used : ∃ used, s.inp.bits = used ++ t.inp.bits ∧ t.incnt = s.incnt + BitVec.ofNat 32 used.length

/-- The state `u` inside a command begun at `s`: RESULT and the error fields are still those of `s`, and the flags hang together,
if the command's precondition `pre` was met. -/
structure Worked (e : Effects) (pre : Prop) (s u : State) : Prop extends Unchanged e s u where
  result : u.result = s.result
  error : u.err = s.err ∧ u.errcode = s.errcode ∧ u.errop = s.errop
  flags : pre → TreeFlags s → TreeFlags u

/-- How a command begun at `s` ends: it completes, with or without a RESULT, raises an error or is held. -/
inductive Ends (e : Effects) (pre : Prop) (s : State) : State → Prop where
  | done {u : State} (h : Worked e pre s u) : Ends e pre s (complete u)
  | result {u : State} (v : Word) (he : e.result = true) (h : Worked e pre s u) :
      Ends e pre s (complete { u with result := v })
  | error {u : State} (op : Opcode) (code : ErrCode) (h : Worked e pre s u) : Ends e pre s (errorState op code u)
  | held {u : State} {j : Job} (he : e.held = some j.kind) (hj : pre → s.err = false ∧ JobAllowed u j)
      (h : Worked e pre s u) : Ends e pre s (heldState j u)

section Worked

variable {e : Effects} {pre : Prop} {s u v : State}

theorem Worked.refl (e : Effects) (pre : Prop) (s : State) : Worked e pre s s where
  result := rfl
  error := ⟨rfl, rfl, rfl⟩
  host := ⟨rfl, rfl, rfl⟩
  weights _ := rfl
  arg _ := rfl
  tree _ := ⟨rfl, rfl, rfl, rfl, rfl⟩
  table _ := ⟨rfl, rfl⟩
  decoder _ := ⟨rfl, rfl, rfl⟩
  given := ⟨[], by simp⟩
  used := ⟨[], by simp⟩
  flags _ h := h

theorem Worked.trans (h : Worked e pre s u) (k : Worked e pre u v) : Worked e pre s v where
  result := k.result.trans h.result
  error := by simp [k.error, h.error]
  host := by simp [k.host, h.host]
  weights he := (k.weights he).trans (h.weights he)
  arg he := (k.arg he).trans (h.arg he)
  tree he := by simp [k.tree he, h.tree he]
  table he := by simp [k.table he, h.table he]
  decoder he := by simp [k.decoder he, h.decoder he]
  given := by
    obtain ⟨xs, hx, hxc⟩ := h.given
    obtain ⟨ys, hy, hyc⟩ := k.given
    exact ⟨xs ++ ys, by simp [hx, hy], by simp [hxc, hyc, BitVec.ofNat_add, BitVec.add_assoc]⟩
  used := by
    obtain ⟨xs, hx, hxc⟩ := h.used
    obtain ⟨ys, hy, hyc⟩ := k.used
    exact ⟨xs ++ ys, by simp [hx, hy], by simp [hxc, hyc, BitVec.ofNat_add, BitVec.add_assoc]⟩
  flags hp hs := k.flags hp (h.flags hp hs)

theorem Worked.accepted (h : Worked e pre s u) (bs : Bits) : Worked e pre s (accepted bs u) :=
  h.trans { Worked.refl e pre u with given := ⟨bs, rfl, rfl⟩, flags := fun _ h => ⟨h.1, h.2, h.3, h.4⟩ }

theorem Worked.outputErrorTaken (h : Worked e pre s u) : Worked e pre s (outputErrorTaken u) :=
  h.trans { Worked.refl e pre u with flags := fun _ h => ⟨h.1, h.2, h.3, h.4⟩ }

theorem Worked.flushed (h : Worked e pre s u) (n : Nat) :
    Worked e pre s { u with out := { u.out with flushed := n } } :=
  h.trans { Worked.refl e pre u with flags := fun _ h => ⟨h.1, h.2, h.3, h.4⟩ }

theorem Worked.inputErrorTaken (h : Worked e pre s u) :
    Worked e pre s { u with inp := { u.inp with ioErr := false } } :=
  h.trans { Worked.refl e pre u with flags := fun _ h => ⟨h.1, h.2, h.3, h.4⟩ }

theorem Worked.taken (h : Worked e pre s u) {used rest : Bits} (hb : u.inp.bits = used ++ rest) :
    Worked e pre s (taken used.length rest u) :=
  h.trans { Worked.refl e pre u with used := ⟨used, hb, rfl⟩, flags := fun _ h => ⟨h.1, h.2, h.3, h.4⟩ }

/-- All the bits of the port are taken. -/
theorem Worked.takenAll (h : Worked e pre s u) : Worked e pre s (Machine.taken u.inp.bits.length [] u) :=
  h.taken (List.append_nil _).symm

theorem Worked.setTable (h : Worked e pre s u) (he : e.table = true) (hv : pre → u.treeValid = true) (ct : CodeTable)
    (valid : Bool) (d : Nat) : Worked e pre s { u with ct := ct, tableValid := valid, draws := d } :=
  h.trans { Worked.refl e pre u with
    table := fun hf => absurd (he.symm.trans hf) (by simp)
    flags := fun hp h => ⟨h.1, h.2, h.3, fun _ => hv hp⟩ }

theorem Worked.setNodes (h : Worked e pre s u) (he : e.tree = true) (n : NodeStore) (d : Nat) :
    Worked e pre s { u with nodes := n, draws := d } :=
  h.trans { Worked.refl e pre u with
    tree := fun hf => absurd (he.symm.trans hf) (by simp)
    flags := fun _ h => ⟨h.1, h.2, h.3, h.4⟩ }

theorem Worked.setTree (h : Worked e pre s u) (he : e.tree = true) (n : NodeStore) (c : BitVec 10) (r : NodeIdx)
    (l : BitVec 9) : Worked e pre s { u with nodes := n, nodecnt := c, root := r, leafcnt := l, treeValid := true } :=
  h.trans { Worked.refl e pre u with
    tree := fun hf => absurd (he.symm.trans hf) (by simp)
    flags := fun _ h => ⟨h.1, fun _ => rfl, fun _ => rfl, fun _ => rfl⟩ }

theorem Worked.setCursor (h : Worked e pre s u) (he : e.decoder = true) (c : NodeIdx) (d : Nat) :
    Worked e pre s { u with cursor := c, draws := d } :=
  h.trans { Worked.refl e pre u with
    decoder := fun hf => absurd (he.symm.trans hf) (by simp)
    flags := fun _ h => ⟨h.1, h.2, h.3, h.4⟩ }

theorem Worked.setDecoder (h : Worked e pre s u) (he : e.decoder = true) (c : NodeIdx) {active isDone : Bool}
    (hf : pre → TreeFlags u → ¬(active = true ∧ isDone = true) ∧
      (active = true → u.treeValid = true) ∧ (isDone = true → u.treeValid = true)) :
    Worked e pre s { u with cursor := c, decActive := active, decDone := isDone } :=
  h.trans { Worked.refl e pre u with
    decoder := fun hn => absurd (he.symm.trans hn) (by simp)
    flags := fun hp h => ⟨(hf hp h).1, (hf hp h).2.1, (hf hp h).2.2, h.4⟩ }

theorem Worked.desClear (h : Worked e pre s u) (ht : e.tree = true) (hc : e.table = true) (hd : e.decoder = true) :
    Worked e pre s (desClear u) :=
  h.trans { Worked.refl e pre u with
    tree := fun hf => absurd (ht.symm.trans hf) (by simp)
    table := fun hf => absurd (hc.symm.trans hf) (by simp)
    decoder := fun hf => absurd (hd.symm.trans hf) (by simp)
    flags := fun _ _ => ⟨by simp, by simp, by simp, by simp⟩ }

theorem Worked.setWeights (h : Worked e pre s u) (he : e.weights = true) (w : WeightTable) :
    Worked e pre s { u with w := w } :=
  h.trans { Worked.refl e pre u with
    weights := fun hf => absurd (he.symm.trans hf) (by simp)
    flags := fun _ h => ⟨h.1, h.2, h.3, h.4⟩ }

theorem Worked.setArg (h : Worked e pre s u) (he : e.arg = true) (v : Word) : Worked e pre s { u with arg := v } :=
  h.trans { Worked.refl e pre u with
    arg := fun hf => absurd (he.symm.trans hf) (by simp)
    flags := fun _ h => ⟨h.1, h.2, h.3, h.4⟩ }

end Worked

end Sys2Proof.Machine

namespace Sys2Proof.Machine

section Ends

variable {broken : Prop} {e : Effects} {pre : Prop} {s u : State}

theorem completeWith_ends (v : Word) (h : Worked e pre s u) (he : e.result = true) :
    Meets broken (Ends e pre s) (completeWith v u) := by
  simpa [completeWith] using Ends.result v he h

theorem complete_ends (h : Worked e pre s u) : Meets broken (Ends e pre s) (.next (complete u)) :=
  meets_next.2 (.done h)

theorem command_ends {i : Instr} {body : State → Result}
    (runs : s.err = false → i.wellFormed = true → Meets broken (Ends e pre s) (body s)) :
    Meets broken (Ends e pre s) (command i body s) :=
  command_meets (fun _ => .done (.refl e pre s)) (fun _ => .error _ _ (.refl e pre s)) runs

theorem require_ends {c : Bool} {op : Opcode} {code : ErrCode} {body : State → Result} (h : Worked e pre s u)
    (holds : c = true → Meets broken (Ends e pre s) (body u)) :
    Meets broken (Ends e pre s) (require c op code body u) :=
  require_meets (fun _ => .error _ _ h) holds

theorem inspectNode_ends {op : Opcode} {x : NodeIdx} {value : Node → Word} (hr : e.readsNodes = true)
    (he : e.result = true) :
    Meets (e.readsNodes = true) (Ends e pre s) (inspectNode op x (fun nd s => completeWith (value nd) s) s) :=
  require_ends (.refl e pre s) fun _ => require_ends (.refl e pre s) fun _ =>
    withNode_meets (fun _ => hr) fun _ _ => completeWith_ends _ (.refl e pre s) he

theorem requireCode_ends {op : Opcode} {sym : Sym} {body : CodeEntry → State → Result}
    (holds : s.tableValid = true → Meets broken (Ends e pre s) (body (codeEntry s.ct sym) s)) :
    Meets broken (Ends e pre s) (requireCode op sym body s) :=
  require_ends (.refl e pre s) fun ht => require_ends (.refl e pre s) fun _ => holds ht

/-- Giving bits ends as allowed if going on after them does, and the command may be held with the rest of them. -/
theorem emit_ends {op : Opcode} {bits : Bits} {held : Bits → Job} {next : State → Result} (h : Worked e pre s u)
    (onOutput : ∀ rest, (held rest).takesInput = false) (he : ∀ rest, e.held = some (held rest).kind)
    (hj : pre → s.err = false ∧ ∀ given rest, JobAllowed (accepted given u) (held rest))
    (all : Meets broken (Ends e pre s) (next (accepted bits u))) :
    Meets broken (Ends e pre s) (emit op bits held next u) :=
  emit_meets onOutput all
    (fun given rest _ _ => .held (he rest) (fun hp => ⟨(hj hp).1, (hj hp).2 given rest⟩) (h.accepted given))
    (.error _ _ h.outputErrorTaken)

theorem encGive_ends {op : Opcode} {rest : Bits} {len : BitVec 9} (hr : e.result = true)
    (hk : e.held = some .enc) (hj : pre → s.err = false ∧ s.tableValid = true) :
    Meets broken (Ends e pre s) (encGive op rest len s) :=
  emit_ends (.refl e pre s) (fun _ => rfl) (fun _ => hk) (fun hp => ⟨(hj hp).1, fun _ _ => (hj hp).2⟩)
    (completeWith_ends _ (.accepted (.refl e pre s) _) hr)

theorem putbGive_ends {op : Opcode} {rest : Bits} (hk : e.held = some .putb) (hj : pre → s.err = false) :
    Meets broken (Ends e pre s) (putbGive op rest s) :=
  emit_ends (.refl e pre s) (fun _ => rfl) (fun _ => hk) (fun hp => ⟨hj hp, fun _ _ => trivial⟩)
    (complete_ends (.accepted (.refl e pre s) _))

theorem flushGive_ends {rest : Bits} {pad : Nat} (hr : e.result = true) (hk : e.held = some .flush)
    (hj : pre → s.err = false) : Meets broken (Ends e pre s) (flushGive rest pad s) := by
  have hw : Worked e pre s (accepted rest s) := .accepted (.refl e pre s) _
  refine emit_ends (.refl e pre s) (fun _ => rfl) (fun _ => hk) (fun hp => ⟨hj hp, fun _ _ => trivial⟩) ?_
  exact flushPort_meets rfl (completeWith_ends _ (hw.flushed _) hr)
    (.held hk (fun hp => ⟨hj hp, trivial⟩) hw) (.error _ _ hw.outputErrorTaken)

theorem serVisit_ends {fuel : Nat} {stack : List NodeIdx} {count : Nat} (h : Worked e pre s u)
    (hn : e.readsNodes = true) (hr : e.result = true) (hk : e.held = some .ser)
    (hj : pre → s.err = false ∧ u.treeValid = true) :
    Meets (e.readsNodes = true) (Ends e pre s) (serVisit fuel stack count u) := by
  induction fuel generalizing stack count u with
  | zero =>
    cases stack with
    | nil => exact completeWith_ends _ h hr
    | cons i stack => exact meets_brokenTree.2 hn
  | succ fuel ih =>
    cases stack with
    | nil => exact completeWith_ends _ h hr
    | cons i stack =>
      have hgive : ∀ bits (stack : List NodeIdx) count, Meets (e.readsNodes = true) (Ends e pre s)
          (emit Instr.ser.opcode bits (fun rest => .ser rest stack count) (serVisit fuel stack count) u) :=
        fun bits _ _ => emit_ends h (fun _ => rfl) (fun _ => hk)
          (fun hp => ⟨(hj hp).1, fun _ _ => (hj hp).2⟩) (ih (h.accepted bits) hj)
      unfold serVisit
      split
      · exact meets_brokenTree.2 hn
      · exact hgive _ _ _
      · exact hgive _ _ _

theorem resumeSer_ends {rest : Bits} {stack : List NodeIdx} {count : Nat} (hn : e.readsNodes = true)
    (hr : e.result = true) (hk : e.held = some .ser) (hj : pre → s.err = false ∧ s.treeValid = true) :
    Meets (e.readsNodes = true) (Ends e pre s) (resumeSer rest stack count s) :=
  emit_ends (.refl e pre s) (fun _ => rfl) (fun _ => hk) (fun hp => ⟨(hj hp).1, fun _ _ => (hj hp).2⟩)
    (serVisit_ends (.accepted (.refl e pre s) _) hn hr hk hj)

theorem desFail_ends {code : ErrCode} (h : Worked e pre s u) (ht : e.tree = true) :
    Meets broken (Ends e pre s) (desFail code u) :=
  meets_next.2 (.error _ _ (h.setNodes ht _ _))

theorem desTake_ends {p : Parse} {start : Word} (h : Worked e pre s u) (hr : e.result = true) (ht : e.tree = true)
    (hk : e.held = some .des) (hj : pre → s.err = false ∧ u.treeValid = false) :
    Meets broken (Ends e pre s) (desTake p start u) := by
  unfold desTake
  rcases takeBits_cases parseBit (p, u.nodes) u with ⟨r, used, rest, -, hb, -, -, hf⟩ | ⟨st, -, -, -, hf⟩ |
    ⟨st, -, -, -, hf⟩ | ⟨-, hf⟩
  · rw [hf]
    have hw := h.taken hb
    cases r with
    | tree root n leaves nodes => exact completeWith_ends _ (hw.setTree ht _ _ _ _) hr
    | nodeOverflow => exact desFail_ends hw ht
    | badSymbol => exact desFail_ends hw ht
  · rw [hf]
    exact desFail_ends h.takenAll ht
  · rw [hf]
    simp only [holdIn_eq (j := .des st.1 start) rfl, meets_next]
    exact .held hk (fun hp => hj hp) (h.takenAll.setNodes ht st.2 _)
  · rw [hf]
    exact desFail_ends h.inputErrorTaken ht

theorem dsymFinish_ends {sym : Sym} (h : Worked e pre s u) (hr : e.result = true) (hd : e.decoder = true)
    (hj : pre → u.decActive = true) : Meets broken (Ends e pre s) (dsymFinish sym u) := by
  refine completeWith_ends _ (h.setDecoder hd u.root fun hp hu => ?_) hr
  have htree := hu.armedTree (hj hp)
  refine ⟨?_, fun _ => htree, fun _ => htree⟩
  by_cases hs : sym = Config.eos
  · simp [hs]
  · simpa [hs] using hu.armedOrDone

theorem dsymFail_ends {code : ErrCode} (h : Worked e pre s u) (hd : e.decoder = true) :
    Meets broken (Ends e pre s) (dsymFail code u) :=
  meets_next.2 (.error _ _ (h.setCursor hd _ _))

theorem dsymWalk_ends (hn : e.readsNodes = true) (hr : e.result = true) (hd : e.decoder = true)
    (hk : e.held = some .dsym) (hj : pre → s.err = false ∧ s.decActive = true) :
    Meets (e.readsNodes = true) (Ends e pre s) (dsymWalk s) := by
  refine withNode_meets (fun _ => hn) fun nd _ => ?_
  have h := Worked.refl e pre s
  cases nd with
  | leaf sym wt => exact dsymFinish_ends h hr hd fun hp => (hj hp).2
  | internal l r wt =>
    dsimp only
    rcases takeBits_cases (walkBit s.nodes) s.cursor s with ⟨res, used, rest, -, hb, -, -, hf⟩ | ⟨c, -, -, -, hf⟩ |
      ⟨c, -, -, -, hf⟩ | ⟨-, hf⟩
    · rw [hf]
      cases res with
      | none => exact meets_brokenTree.2 hn
      | some sym => exact dsymFinish_ends (h.taken hb) hr hd fun hp => (hj hp).2
    · rw [hf]
      exact dsymFail_ends h.takenAll hd
    · rw [hf]
      simp only [holdIn_eq (j := .dsym) rfl, meets_next]
      exact .held hk (fun hp => hj hp) (h.takenAll.setCursor hd c _)
    · rw [hf]
      exact dsymFail_ends h.inputErrorTaken hd

theorem getbTake_ends {op : Opcode} {missing value : Nat} (hr : e.result = true) (hk : e.held = some .getb)
    (hj : pre → s.err = false) : Meets broken (Ends e pre s) (getbTake op missing value s) := by
  unfold getbTake
  have h := Worked.refl e pre s
  rcases takeBits_cases rawBit (missing, value) s with ⟨r, used, rest, -, hb, -, -, hf⟩ | ⟨st, -, -, -, hf⟩ |
    ⟨st, -, -, -, hf⟩ | ⟨-, hf⟩
  · rw [hf]
    exact completeWith_ends _ (h.taken hb) hr
  · rw [hf]
    exact meets_next.2 (.error _ _ h.takenAll)
  · rw [hf]
    simp only [holdIn_eq (j := .getb st.1 st.2) rfl, meets_next]
    exact .held hk (fun hp => ⟨hj hp, trivial⟩) h.takenAll
  · rw [hf]
    exact meets_next.2 (.error _ _ h.inputErrorTaken)

end Ends

/-! ### Every command -/

section Exec

variable {pre : Prop} {s : State}

theorem execBuild_ends : Meets False (Ends (effects .build) pre s) (execBuild s) :=
  command_ends fun _ _ => require_ends (.refl _ _ s) fun _ => by
    refine completeWith_ends _ ?_ rfl
    exact { Worked.refl (effects .build) pre s with
      tree := fun hf => absurd hf (by simp [effects])
      table := fun hf => absurd hf (by simp [effects])
      decoder := fun hf => absurd hf (by simp [effects])
      flags := fun _ _ => ⟨by simp, by simp, by simp, by simp⟩ }

theorem execFlat_ends : Meets True (Ends (effects .flat) pre s) (execFlat s) :=
  command_ends fun _ _ => require_ends (.refl _ _ s) fun ht => by
    have h := Worked.refl (effects .flat) pre s
    cases flatVisit s.nodes s.draws Config.nodeCap [(s.root, [])] (clearValid s.ct) with
    | table ct => exact completeWith_ends _ (h.setTable rfl (fun _ => ht) _ _ _) rfl
    | duplicate => exact meets_next.2 (.error _ _ (h.setTable rfl (fun _ => ht) _ _ _))
    | broken => exact meets_brokenTree.2 trivial

theorem execDstart_ends : Meets True (Ends (effects .dstart) pre s) (execDstart s) :=
  command_ends fun _ _ => require_ends (.refl _ _ s) fun ht =>
    withNode_meets (fun _ => trivial) fun _ _ => require_ends (.refl _ _ s) fun _ =>
      complete_ends ((Worked.refl _ _ s).setDecoder rfl s.root fun _ _ => by simp [ht])

/-- Every command but RESET ends within its effects, and only one that reads the node store meets the fault. -/
theorem exec_ends {i : Instr} (hi : i ≠ .reset) :
    Meets ((effects i).readsNodes = true) (Ends (effects i) True s) (exec i s) := by
  have h : ∀ e, Worked e True s s := fun e => .refl e True s
  cases i with
  | nop =>
    show Meets _ _ (execNop s)
    refine command_ends fun _ _ => ?_
    exact complete_ends (h _)
  | reset => exact absurd rfl hi
  | wclr =>
    show Meets _ _ (execWclr s)
    refine command_ends fun _ _ => ?_
    exact complete_ends ((h _).setWeights rfl _)
  | count b =>
    refine command_ends fun _ _ => require_ends (h _) fun _ => ?_
    exact complete_ends ((h _).setWeights rfl _)
  | cfin =>
    show Meets _ _ (execCfin s)
    refine command_ends fun _ _ => ?_
    exact complete_ends ((h _).setWeights rfl _)
  | wset sym =>
    show Meets _ _ (execWset sym s)
    refine command_ends fun _ _ => ?_
    exact complete_ends ((h _).setWeights rfl _)
  | wget sym => exact command_ends fun _ _ => completeWith_ends _ (h _) rfl
  | ldal v =>
    show Meets _ _ (execLdal v s)
    refine command_ends fun _ _ => ?_
    exact complete_ends ((h _).setArg rfl _)
  | ldah v =>
    show Meets _ _ (execLdah v s)
    refine command_ends fun _ _ => ?_
    exact complete_ends ((h _).setArg rfl _)
  | build => exact execBuild_ends.mono False.elim fun _ => id
  | ser =>
    exact command_ends fun he _ => require_ends (h _) fun ht =>
      serVisit_ends (h _) rfl rfl rfl fun _ => ⟨he, ht⟩
  | des =>
    show Meets _ _ (execDes s)
    refine command_ends fun he _ => ?_
    exact desTake_ends ((h _).desClear rfl rfl rfl) rfl rfl rfl fun _ => ⟨he, desClear_treeValid s⟩
  | flat => exact execFlat_ends.mono (fun _ => rfl) fun _ => id
  | clen sym => exact command_ends fun _ _ => requireCode_ends fun _ => completeWith_ends _ (h _) rfl
  | cword sym k => exact command_ends fun _ _ => requireCode_ends fun _ => completeWith_ends _ (h _) rfl
  | enc sym => exact command_ends fun he _ => requireCode_ends fun ht => encGive_ends rfl rfl fun _ => ⟨he, ht⟩
  | putb n v => exact command_ends fun he _ => putbGive_ends rfl fun _ => he
  | flush => exact command_ends fun he _ => flushGive_ends rfl rfl fun _ => he
  | dstart => exact execDstart_ends.mono (fun _ => rfl) fun _ => id
  | dsym =>
    exact command_ends fun he _ => require_ends (h _) fun ha => dsymWalk_ends rfl rfl rfl rfl fun _ => ⟨he, ha⟩
  | getb n => exact command_ends fun he _ => getbTake_ends rfl rfl fun _ => he
  | nget x => exact command_ends fun _ _ => inspectNode_ends rfl rfl
  | nwlo x => exact command_ends fun _ _ => inspectNode_ends rfl rfl
  | nwhi x => exact command_ends fun _ _ => inspectNode_ends rfl rfl

/-- A held command that goes on ends within its effects, and only one that reads the node store meets the fault. -/
theorem resume_ends (j : Job) : Meets ((jobEffects j).readsNodes = true)
    (Ends (jobEffects j) (s.err = false ∧ JobAllowed s j) s) (resume j s) := by
  cases j with
  | ser rest stack count => exact resumeSer_ends rfl rfl rfl fun h => h
  | des p start => exact desTake_ends (.refl _ _ s) rfl rfl rfl fun h => h
  | enc rest len => exact encGive_ends rfl rfl fun h => h
  | putb rest => exact putbGive_ends rfl fun h => h.1
  | flush rest pad => exact flushGive_ends rfl rfl fun h => h.1
  | dsym => exact dsymWalk_ends rfl rfl rfl rfl fun h => h
  | getb missing value => exact getbTake_ends rfl rfl fun h => h.1

end Exec

end Sys2Proof.Machine

namespace Sys2Proof.Machine

/-! ## Rules about all commands: what they leave unchanged -/

/-- What was unchanged inside a command is unchanged at its end, whichever way it ends. -/
theorem Ends.unchanged {e : Effects} {pre : Prop} {s t : State} (h : Ends e pre s t) : Unchanged e s t := by
  rcases h with h | ⟨_, _, h⟩ | ⟨_, _, h⟩ | ⟨_, _, h⟩
  all_goals exact ⟨h.host, h.weights, h.arg, h.tree, h.table, h.decoder, h.given, h.used⟩

/-- RESULT is written only by a command that has it among its effects and completes (R34). -/
theorem Ends.result_eq {e : Effects} {pre : Prop} {s t : State} (h : Ends e pre s t) :
    t.result = s.result ∨ e.result = true ∧ t.err = s.err ∧ t.job = none := by
  cases h with
  | done h => exact .inl h.result
  | result v he h => exact .inr ⟨he, h.error.1, rfl⟩
  | error _ _ h => exact .inl h.result
  | held _ _ h => exact .inl h.result

theorem exec_unchanged {i : Instr} {s t : State} (hi : i ≠ .reset) (h : exec i s = .next t) :
    Unchanged (effects i) s t :=
  ((exec_ends hi).1 t h).unchanged

theorem resume_unchanged {j : Job} {s t : State} (h : resume j s = .next t) : Unchanged (jobEffects j) s t :=
  ((resume_ends j).1 t h).unchanged

/-- While ERR = 1 every command but RESET only ends (R305). -/
theorem exec_ignored {i : Instr} {s : State} (hi : i ≠ .reset) (he : s.err = true) : exec i s = .next (complete s) := by
  cases i with
  | reset => exact absurd rfl hi
  | _ => simp only [exec]; exact command_ignored he

/-- RESULT changes only when a command that writes it completes without an error. -/
theorem Ends.keepsResult {e : Effects} {pre : Prop} {s t : State} (h : Ends e pre s t) (hs : s.err = false)
    (hc : e.result = false ∨ t.err = true ∨ t.job.isSome = true) : t.result = s.result := by
  rcases h.result_eq with h | ⟨he, herr, hjob⟩
  · exact h
  · rw [he, herr, hs, hjob] at hc
    simp at hc

/-- Settles O52: a command ends with RESULT written only where `Ends.result` says so; while ERR = 1 nothing runs. -/
theorem onlyResultCommandsWriteResult : Obligations.OnlyResultCommandsWriteResult := by
  refine ⟨fun s t h => ?_, fun i s t hi h hc => ?_, fun j s t hs h hc => ?_⟩
  · cases h
    rfl
  · cases hs : s.err
    · refine ((exec_ends hi).1 t h).keepsResult hs (hc.imp_left fun hno => ?_)
      cases i <;> simp [effects] at hno ⊢
    · rw [exec_ignored hi hs] at h
      cases h
      rfl
  · refine ((resume_ends j).1 t h).keepsResult hs (hc.imp_left ?_)
    rintro ⟨rest, rfl⟩
    rfl

/-- Settles O53: the weights and ARG are among the effects of their loaders only. -/
theorem onlyLoadersWriteWeightsAndArg : Obligations.OnlyLoadersWriteWeightsAndArg := by
  refine ⟨fun i s t hi h => ?_, fun j s t h => ?_⟩
  · have hu := exec_unchanged hi h
    refine ⟨fun hno => hu.weights ?_, fun hno => hu.arg ?_, hu.host⟩
    · cases i <;> simp [effects] at hno ⊢
    · cases i <;> simp [effects] at hno ⊢
  · have hu := resume_unchanged h
    exact ⟨hu.weights (by cases j <;> rfl), hu.arg (by cases j <;> rfl), hu.host⟩

/-- Settles O54: the tree, the code table and the decoder are among the effects of their commands only. -/
theorem onlyTheirCommandsWriteTreeTableDecoder : Obligations.OnlyTheirCommandsWriteTreeTableDecoder := by
  refine ⟨fun i s t hi hb hd h => ?_, fun j s t h => ?_⟩
  · have hu := exec_unchanged hi h
    refine ⟨hu.tree ?_, fun hf => hu.table ?_, fun hs hy => hu.decoder ?_⟩
    · cases i <;> simp [effects] at hb hd ⊢
    · cases i <;> simp [effects] at hb hd hf ⊢
    · cases i <;> simp [effects] at hb hd hs hy ⊢
  · have hu := resume_unchanged h
    refine ⟨fun hd => hu.tree ?_, hu.table (by cases j <;> rfl), fun hy => hu.decoder ?_⟩
    · cases j <;> simp [jobEffects] at hd ⊢
    · cases j <;> simp [jobEffects] at hy ⊢

/-- Settles O55: both streams and their counters are followed by `Unchanged`. -/
theorem countersCountTheStreams : Obligations.CountersCountTheStreams := by
  rintro s t (⟨i, hi, h⟩ | ⟨j, h⟩)
  · have hu := exec_unchanged hi h
    exact ⟨hu.given, hu.used⟩
  · have hu := resume_unchanged h
    exact ⟨hu.given, hu.used⟩

/-- Settles O56: in the error state a command only ends. -/
theorem theFirstErrorStays : Obligations.TheFirstErrorStays := by
  intro i s t hi h he
  rw [exec_ignored hi he] at h
  cases h
  exact ⟨he, rfl, rfl⟩

/-! ## Host-visible registers -/

theorem registerValue_reserved (s : State) {o : Nat} (h : 0x28 ≤ o) : registerValue s o = 0#32 := by
  unfold registerValue
  split <;> simp at h ⊢

/-- A legal register access does what its offset says (R77, R87). -/
theorem access_offset {o : Nat} (ho : o < 64) (ha : o % 4 = 0) (body : Nat → Result) :
    access (.offset o) 32 body = body o := by
  simp [access, windowOffset, ho, ha]

theorem writeRegister_ignored {o : Nat} (ho : o ≠ 0) (d : Word) (s : State) : writeRegister o d s = .next s := by
  simp [writeRegister, ho]

/-- The bytes of STATUS above its flags (R44). -/
theorem statusWord_bytes (s : State) : (statusWord s).extractLsb' 8 8 = s.errcode ∧
    (statusWord s).extractLsb' 16 8 = s.errop ∧ (statusWord s).extractLsb' 24 8 = 0#8 := by
  have above : ∀ n, (statusWord s).extractLsb' (8 + n) 8 = (0#8 ++ s.errop ++ s.errcode).extractLsb' n 8 := fun n =>
    (BitVec.extractLsb'_append_eq_of_le (xlo := statusFlags s) (Nat.le_add_right 8 n)).trans (by simp)
  have above' : ∀ n, (0#8 ++ s.errop ++ s.errcode).extractLsb' (8 + n) 8 = (0#8 ++ s.errop).extractLsb' n 8 := fun n =>
    (BitVec.extractLsb'_append_eq_of_le (Nat.le_add_right 8 n)).trans (by simp)
  exact ⟨(above 0).trans BitVec.extractLsb'_append_eq_right,
    (above 8).trans ((above' 0).trans BitVec.extractLsb'_append_eq_right),
    (above 16).trans ((above' 8).trans BitVec.extractLsb'_append_eq_left)⟩

/-- The flags of STATUS, bit 0 first (R44). -/
theorem statusWord_flags (s : State) : (statusWord s).getLsbD 0 = s.err ∧
    (statusWord s).getLsbD 1 = s.treeValid ∧ (statusWord s).getLsbD 2 = s.tableValid ∧
    (statusWord s).getLsbD 3 = s.decActive ∧ (statusWord s).getLsbD 4 = s.decDone ∧
    (statusWord s).getLsbD 5 = s.busy ∧ (statusWord s).getLsbD 6 = s.heldIn ∧ (statusWord s).getLsbD 7 = s.heldOut := by
  simp only [statusWord, statusFlags, BitVec.getLsbD_append, BitVec.getLsbD_ofBool]
  simp

/-- Settles O11: the flags and the bytes of the word, and a write to it is none to CMD. -/
theorem statusHasItsLayout : Obligations.StatusHasItsLayout := by
  intro s
  obtain ⟨hcode, hop, hzero⟩ := statusWord_bytes s
  obtain ⟨h0, h1, h2, h3, h4, h5, h6, h7⟩ := statusWord_flags s
  exact ⟨rfl, h0, h1, h2, h3, h4, h5, h6, h7, hcode, hop, hzero, fun d => writeRegister_ignored (by decide) d s⟩

/-- Settles O12: the register map is the table of `registerValue`, and only offset 0 is written. -/
theorem registerMapHasItsContents : Obligations.RegisterMapHasItsContents := by
  intro s
  refine ⟨rfl, rfl, rfl, rfl, ?_, ?_, ?_, rfl, rfl, rfl, fun o ho _ => registerValue_reserved s ho,
    fun o d hpos ho ha => ?_⟩
  · simp [registerValue]; omega
  · simp [registerValue]; omega
  · simp [registerValue]; omega
  · rw [hostMove, access_offset ho ha, writeRegister_ignored (by omega)]

/-- Settles O13: ID is none of the registers that are unspecified while BUSY = 1. -/
theorem idReadsTheConstant : Obligations.IdReadsTheConstant := by
  intro s
  have bytes : Config.idValue.extractLsb' 24 8 = 0x48#8 ∧ Config.idValue.extractLsb' 16 8 = 0x54#8 ∧
      Config.idValue.extractLsb' 8 8 = 0x42#8 ∧ Config.idValue.extractLsb' 0 8 = 0x31#8 := by decide
  refine ⟨{ s with rdata := Config.idValue }, ?_, rfl, bytes⟩
  simp [hostMove, access_offset, readRegister, vagueWhileBusy, registerValue]

end Sys2Proof.Machine

namespace Sys2Proof.Machine

/-! ## What a step can do (R84, R85, R86) -/

/-- `u` differs from `s` only in the ports and on the host's side. -/
def OutsideOnly (s u : State) : Prop :=
  ∃ inp out moves stalled rdata draws, u = { s with
    inp := inp, out := out, moves := moves, stalled := stalled, rdata := rdata, draws := draws }

/-- A move of the host changes the outside only, hands over a CMD write, resets the block, or is refused. -/
theorem hostMove_cases (m : HostMove) (s : State) :
    (∃ u, OutsideOnly s u ∧ hostMove m s = .next u) ∨ (∃ cmd, s.busy = false ∧ hostMove m s = accept cmd s) ∨
      hostMove m s = .next (resetBlock s) ∨ ∃ r, hostMove m s = .refused r := by
  cases m with
  | write addr width data =>
    simp only [hostMove, access]
    cases windowOffset addr with
    | none => exact .inr (.inr (.inr ⟨_, rfl⟩))
    | some o =>
      dsimp only
      split
      · unfold writeRegister
        split
        · split
          · exact .inl ⟨_, ⟨_, _, _, _, _, _, rfl⟩, rfl⟩
          · next hb => exact .inr (.inl ⟨data, by simpa using hb, rfl⟩)
        · exact .inl ⟨_, ⟨_, _, _, _, _, _, rfl⟩, rfl⟩
      · exact .inr (.inr (.inr ⟨_, rfl⟩))
  | read addr width =>
    simp only [hostMove, access]
    cases windowOffset addr with
    | none => exact .inr (.inr (.inr ⟨_, rfl⟩))
    | some o =>
      dsimp only
      split
      · unfold readRegister
        split
        · exact .inl ⟨_, ⟨_, _, _, _, _, _, rfl⟩, rfl⟩
        · exact .inl ⟨_, ⟨_, _, _, _, _, _, rfl⟩, rfl⟩
      · exact .inr (.inr (.inr ⟨_, rfl⟩))
  | supply bs =>
    refine .inl ⟨_, ?_, rfl⟩
    unfold supplied
    split
    · exact ⟨_, _, _, _, _, _, rfl⟩
    · exact ⟨_, _, _, _, _, _, rfl⟩
  | hardReset => exact .inr (.inr (.inl rfl))
  | signalEnd => exact .inl ⟨_, ⟨_, _, _, _, _, _, rfl⟩, rfl⟩
  | drain n => exact .inl ⟨_, ⟨_, _, _, _, _, _, rfl⟩, rfl⟩
  | inputError => exact .inl ⟨_, ⟨_, _, _, _, _, _, rfl⟩, rfl⟩
  | outputError => exact .inl ⟨_, ⟨_, _, _, _, _, _, rfl⟩, rfl⟩
  | stallOutput => exact .inl ⟨_, ⟨_, _, _, _, _, _, rfl⟩, rfl⟩
  | reopenInput => exact .inl ⟨_, ⟨_, _, _, _, _, _, rfl⟩, rfl⟩

/-- A predicate that holds of a step's result: it need only hold where a held command goes on, where an idle HTB accepts a word,
after the host's moves outside, and after a reset. -/
theorem step_meets {broken : Prop} {Q : State → Prop} {s : State} (hbusy : s.busy = s.job.isSome)
    (resumes : ∀ j, s.job = some j → Meets broken Q (resume j s))
    (accepts : ∀ u cmd, OutsideOnly s u → s.job = none → Meets broken Q (accept cmd u))
    (outside : ∀ u, OutsideOnly s u → Q u) (resets : ∀ u, OutsideOnly s u → Q (resetBlock u)) :
    Meets broken Q (step s) := by
  have hostTurn_meets : Meets broken Q (hostTurn s) := by
    unfold hostTurn
    split
    · next m ms _ =>
      have hu : OutsideOnly s { s with moves := ms } := ⟨_, _, _, _, _, _, rfl⟩
      rcases hostMove_cases m { s with moves := ms } with ⟨u, ⟨i, o, mv, st, rd, dr, rfl⟩, h⟩ | ⟨cmd, hb, h⟩ | h | ⟨r, h⟩
      · rw [h]
        exact meets_next.2 (outside _ ⟨_, _, _, _, _, _, rfl⟩)
      · rw [h]
        refine accepts _ cmd hu ?_
        rw [hbusy] at hb
        simpa using hb
      · rw [h]
        exact meets_next.2 (resets _ hu)
      · simp [h, Meets]
    · split <;> simp [Meets]
  unfold step advance
  split
  · next j hj =>
    split
    · exact hostTurn_meets
    · exact resumes j hj
  · next hj =>
    split
    · exact accepts _ _ ⟨_, _, _, _, _, _, rfl⟩ hj
    · exact hostTurn_meets

/-! ## The flags hang together (R40, R43, R48, R240, R242, R300, R310) -/

/-- The clauses of `FlagInvariant` about the error fields (R41). -/
structure ErrorFlags (s : State) : Prop where
  noError : s.err = false → s.errcode = 0#8 ∧ s.errop = 0#8
  error : s.err = true → 1 ≤ s.errcode.toNat ∧ s.errcode.toNat ≤ 16

theorem FlagInvariant.treeFlags {s : State} (h : FlagInvariant s) : TreeFlags s :=
  ⟨h.armedOrDone, h.armedTree, h.doneTree, h.tableTree⟩

theorem FlagInvariant.errorFlags {s : State} (h : FlagInvariant s) : ErrorFlags s := ⟨h.noError, h.error⟩

/-- The error codes are 1 to 16 (R300). -/
theorem ErrCode.code_range (e : ErrCode) : 1 ≤ e.code.toNat ∧ e.code.toNat ≤ 16 := by cases e <;> decide

/-- The flags after any end of a command whose precondition was met. -/
theorem Ends.flagInvariant {e : Effects} {pre : Prop} {s t : State} (h : Ends e pre s t) (hp : pre)
    (hf : TreeFlags s) (he : ErrorFlags s) : FlagInvariant t := by
  have idle : ∀ u, TreeFlags u → ErrorFlags u → FlagInvariant (complete u) := fun u hf he =>
    { hf, he with busy := rfl, heldIn := rfl, heldOut := rfl, heldNoError := by simp, job := by simp }
  have errs : ∀ u, Worked e pre s u → ErrorFlags u := fun u h => by
    obtain ⟨herr, hcode, hop⟩ := h.error
    exact ⟨by simpa [herr, hcode, hop] using he.noError, by simpa [herr, hcode] using he.error⟩
  cases h with
  | @done u h => exact idle u (h.flags hp hf) (errs u h)
  | @result u v _ h =>
    have hu := h.flags hp hf
    exact idle { u with result := v } ⟨hu.1, hu.2, hu.3, hu.4⟩ ⟨(errs u h).1, (errs u h).2⟩
  | error op code h =>
    exact { h.flags hp hf with
      busy := rfl, heldIn := rfl, heldOut := rfl, heldNoError := by simp, job := by simp, noError := by simp
      error := fun _ => code.code_range }
  | @held u j _ hj h =>
    have herr : u.err = false := h.error.1.trans (hj hp).1
    exact { h.flags hp hf, errs u h with
      busy := rfl, heldIn := rfl, heldOut := rfl, heldNoError := fun _ => herr
      job := fun j' hj' => by cases hj'; exact (hj hp).2 }

/-- Accepting a word is a RESET, or ends as a command does whose precondition is nothing (R86, R106). -/
theorem accept_ends (cmd : Word) (s : State) :
    accept cmd s = .next (resetBlock (begun s)) ∨ (∃ i, i ≠ .reset ∧ accept cmd s = exec i (begun s)) ∨
      ∃ t, accept cmd s = .next t ∧ Ends {} True (begun s) t := by
  unfold accept
  split
  · next i _ =>
    by_cases hi : i = .reset
    · subst hi
      exact .inl rfl
    · exact .inr (.inl ⟨i, hi, rfl⟩)
  · refine .inr (.inr ?_)
    unfold illegalWord
    split
    · exact ⟨_, rfl, .done (.refl _ _ _)⟩
    · exact ⟨_, rfl, .error _ _ (.refl _ _ _)⟩

theorem resetBlock_flagInvariant (s : State) : FlagInvariant (resetBlock s) where
  busy := rfl
  heldIn := rfl
  heldOut := rfl
  heldNoError := by simp
  job := by simp
  noError _ := ⟨rfl, rfl⟩
  error := by simp
  armedOrDone := by simp
  armedTree := by simp
  doneTree := by simp
  tableTree := by simp

theorem accept_flagInvariant {cmd : Word} {s : State} (hf : TreeFlags s) (he : ErrorFlags s) :
    Meets True FlagInvariant (accept cmd s) := by
  rcases accept_ends cmd s with h | ⟨i, hi, h⟩ | ⟨t, h, ht⟩
  · rw [h]
    exact meets_next.2 (resetBlock_flagInvariant _)
  · rw [h]
    exact (exec_ends hi).mono (fun _ => trivial) fun t ht =>
      ht.flagInvariant trivial ⟨hf.1, hf.2, hf.3, hf.4⟩ ⟨he.1, he.2⟩
  · rw [h]
    exact meets_next.2 (ht.flagInvariant trivial ⟨hf.1, hf.2, hf.3, hf.4⟩ ⟨he.1, he.2⟩)

theorem JobAllowed.outsideOnly {s u : State} {j : Job} (h : JobAllowed s j) (hu : OutsideOnly s u) : JobAllowed u j := by
  obtain ⟨_, _, _, _, _, _, rfl⟩ := hu
  cases j <;> exact h

theorem FlagInvariant.outsideOnly {s u : State} (h : FlagInvariant s) (hu : OutsideOnly s u) : FlagInvariant u := by
  have hjob : ∀ j, s.job = some j → JobAllowed u j := fun j hj => (h.job j hj).outsideOnly hu
  obtain ⟨_, _, _, _, _, _, rfl⟩ := hu
  exact { h with job := hjob }

theorem step_flagInvariant {s : State} (h : FlagInvariant s) : Meets True FlagInvariant (step s) := by
  refine step_meets h.busy (fun j hj => ?_) (fun u cmd hu _ => ?_) (fun u hu => h.outsideOnly hu)
    fun u _ => resetBlock_flagInvariant u
  · have hjob : s.err = false ∧ JobAllowed s j := ⟨h.heldNoError (by simp [hj]), h.job j hj⟩
    exact (resume_ends j).mono (fun _ => trivial) fun t ht => ht.flagInvariant hjob h.treeFlags h.errorFlags
  · have hu := h.outsideOnly hu
    exact accept_flagInvariant hu.treeFlags hu.errorFlags

/-- Settles O58: every end of a command, every host move and the reset leave the flags consistent. -/
theorem stepKeepsTheFlagInvariant : Obligations.StepKeepsTheFlagInvariant :=
  fun _ t h ht => (step_flagInvariant h).1 t ht

end Sys2Proof.Machine

namespace Sys2Proof.Machine

/-! ## Trees in the node store (R36, R37) -/

theorem holdsTree_leaf {n : NodeStore} {i : NodeIdx} {sym : Sym} :
    HoldsTree n i (.leaf sym) ↔ ∃ wt, nodeAt n i = some (.leaf sym wt) := by
  refine ⟨fun ⟨is, h⟩ => ?_, fun ⟨wt, h⟩ => ⟨_, .leaf h⟩⟩
  cases h with
  | leaf h => exact ⟨_, h⟩

theorem holdsTree_node {n : NodeStore} {i : NodeIdx} {tl tr : Tree} :
    HoldsTree n i (.node tl tr) ↔ ∃ l r wt, nodeAt n i = some (.internal l r wt) ∧ HoldsTree n l tl ∧ HoldsTree n r tr := by
  refine ⟨fun ⟨is, h⟩ => ?_, fun ⟨l, r, wt, h, ⟨il, hl⟩, ⟨ir, hr⟩⟩ => ⟨_, .node h hl hr⟩⟩
  cases h with
  | node h hl hr => exact ⟨_, _, _, h, ⟨_, hl⟩, ⟨_, hr⟩⟩

/-- A tree's root is a node of the store. -/
theorem HoldsTree.nodeAt {n : NodeStore} {i : NodeIdx} {t : Tree} (h : HoldsTree n i t) :
    ∃ nd, Machine.nodeAt n i = some nd := by
  cases t with
  | leaf sym =>
    obtain ⟨wt, h⟩ := holdsTree_leaf.1 h
    exact ⟨_, h⟩
  | node tl tr =>
    obtain ⟨l, r, wt, h, -, -⟩ := holdsTree_node.1 h
    exact ⟨_, h⟩

theorem Spans.length_eq {n : NodeStore} {i : NodeIdx} {t : Tree} {is : List NodeIdx} (h : Spans n i t is) :
    is.length = t.size := by
  induction h with
  | leaf _ => rfl
  | node _ _ _ ihl ihr => simp [Tree.size, ihl, ihr]

/-- Every index a tree occupies holds a node. -/
theorem Spans.nodeAt_of_mem {n : NodeStore} {i j : NodeIdx} {t : Tree} {is : List NodeIdx} (h : Spans n i t is)
    (hj : j ∈ is) : ∃ nd, nodeAt n j = some nd := by
  induction h with
  | leaf h => cases List.mem_singleton.1 hj; exact ⟨_, h⟩
  | node h _ _ ihl ihr =>
    simp only [List.cons_append, List.mem_cons, List.mem_append] at hj
    rcases hj with rfl | hj | hj
    · exact ⟨_, h⟩
    · exact ihl hj
    · exact ihr hj

/-- A tree stands in every store that has its nodes. -/
theorem Spans.congr {n n' : NodeStore} {i : NodeIdx} {t : Tree} {is : List NodeIdx} (h : Spans n i t is)
    (hn : ∀ j ∈ is, nodeAt n' j = nodeAt n j) : Spans n' i t is := by
  induction h with
  | leaf h => exact .leaf ((hn _ (by simp)).trans h)
  | node h _ _ ihl ihr =>
    exact .node ((hn _ (by simp)).trans h) (ihl fun j hj => hn j (by simp [hj])) (ihr fun j hj => hn j (by simp [hj]))

theorem Tree.size_pos (t : Tree) : 0 < t.size := by
  cases t <;> simp [Tree.size]

/-- A tree with L leaves has 2L - 1 nodes (R121). -/
theorem Tree.size_add_one (t : Tree) : t.size + 1 = 2 * t.leaves.length := by
  induction t with
  | leaf sym => rfl
  | node l r hl hr => simp only [Tree.size, Tree.leaves, List.length_append]; omega

/-- What R37 says of the registers bounds the tree by the store. -/
theorem DescribesTree.bounds {s : State} {t : Tree} (h : DescribesTree s t) :
    HoldsTree s.nodes s.root t ∧ t.size ≤ 513 ∧ LegalSymbols t ∧
      ∀ i : NodeIdx, i.toNat < s.nodecnt.toNat → ∃ nd, nodeAt s.nodes i = some nd := by
  obtain ⟨is, hs, hp, -, hl⟩ := h
  have hin : ∀ i : NodeIdx, i.toNat < s.nodecnt.toNat → ∃ nd, nodeAt s.nodes i = some nd := by
    intro i hi
    have hm : i.toNat ∈ is.map BitVec.toNat := hp.mem_iff.2 (List.mem_range.2 hi)
    obtain ⟨j, hj, hji⟩ := List.mem_map.1 hm
    rw [← BitVec.eq_of_toNat_eq hji]
    exact hs.nodeAt_of_mem hj
  refine ⟨⟨is, hs⟩, ?_, hl, hin⟩
  have hlen : t.size = s.nodecnt.toNat := by
    rw [← hs.length_eq, ← List.length_map BitVec.toNat, hp.length_eq, List.length_range]
  have hlast : (BitVec.ofNat 10 (s.nodecnt.toNat - 1)).toNat = s.nodecnt.toNat - 1 := by
    simp; omega
  have hpos := t.size_pos
  obtain ⟨nd, hnd⟩ := hin (BitVec.ofNat 10 (s.nodecnt.toNat - 1)) (by omega)
  have := nodeAt_lt hnd
  omega

/-! ## SER visits the tree (R181) -/

/-- A predicate of SER's outcome: it need only hold at the end and where the port holds or fails SER, and then the stack holds
disjoint subtrees, no more nodes than `fuel`, within STACK_CAP. -/
theorem serVisit_meets {broken : Prop} {Q : State → Prop} {fuel : Nat} {stack : List NodeIdx} {ts : List Tree} {count : Nat}
    {s : State} (hts : List.Forall₂ (HoldsTree s.nodes) stack ts) (hfuel : (ts.map Tree.size).sum ≤ fuel)
    (hfit : StackFits ts)
    (completes : ∀ v (u : State), u.nodes = s.nodes → Q (complete { u with result := v }))
    (full : ∀ (rest : Bits) stack' ts' count' (u : State), u.nodes = s.nodes → List.Forall₂ (HoldsTree u.nodes) stack' ts' →
      (ts'.map Tree.size).sum ≤ fuel → StackFits ts' → Q (heldState (.ser rest stack' count') u))
    (fails : ∀ op code u, Q (errorState op code u)) : Meets broken Q (serVisit fuel stack count s) := by
  induction fuel generalizing stack ts count s with
  | zero =>
    cases hts with
    | nil => exact meets_next.2 (completes _ s rfl)
    | @cons i t stack ts ht hts =>
      have := t.size_pos
      simp only [List.map_cons, List.sum_cons] at hfuel
      omega
  | succ fuel ih =>
    cases hts with
    | nil => exact meets_next.2 (completes _ s rfl)
    | @cons i t stack ts ht hts =>
      simp only [List.map_cons, List.sum_cons] at hfuel
      have visit : ∀ bits stack' (ts' : List Tree) count', List.Forall₂ (HoldsTree s.nodes) stack' ts' →
          (ts'.map Tree.size).sum ≤ fuel → StackFits ts' → Meets broken Q
            (emit Instr.ser.opcode bits (fun rest => .ser rest stack' count') (serVisit fuel stack' count') s) :=
        fun bits stack' ts' count' hts' hle hfit' => emit_meets (fun _ => rfl)
          (ih (s := accepted bits s) hts' hle hfit' (fun v u hu => completes v u hu)
            fun rest st tt c u hu h hl hf => full rest st tt c u hu h (Nat.le_succ_of_le hl) hf)
          (fun given rest _ _ => full rest stack' ts' count' (accepted given s) rfl hts' (Nat.le_succ_of_le hle) hfit')
          (fails _ _ _)
      cases t with
      | leaf sym =>
        obtain ⟨wt, hnode⟩ := holdsTree_leaf.1 ht
        simp only [serVisit, hnode]
        exact visit _ _ ts _ hts (by simp only [Tree.size] at hfuel; omega) hfit.tail
      | node tl tr =>
        obtain ⟨l, r, wt, hnode, hl, hr⟩ := holdsTree_node.1 ht
        simp only [serVisit, hnode]
        exact visit _ _ (tl :: tr :: ts) _ (.cons hl (.cons hr hts))
          (by simp only [Tree.size] at hfuel; simp only [List.map_cons, List.sum_cons]; omega) hfit.push

/-! ## FLAT writes the codes of the tree (R200, R201) -/

/-- The entry FLAT writes for a code (R201). -/
def writtenEntry (draw : Nat) (c : Sym × Bits) : CodeEntry :=
  ⟨true, BitVec.ofNat 9 c.2.length, codeField c.2 (Config.freeTail draw c.1)⟩

/-- Write codes into the table one after the other, each at its symbol, up to a symbol that has one already (R201, R202). -/
def writeCodes (draw : Nat) : List (Sym × Bits) → CodeTable → FlatEnd
  | [], ct => .table ct
  | c :: cs, ct =>
    if (codeEntry ct c.1).valid then .duplicate
    else writeCodes draw cs (ct.setIfInBounds c.1.toNat (writtenEntry draw c))

/-- The codes of a subtree that stands below the path `p`. -/
def Tree.codesBelow (t : Tree) (p : Bits) : List (Sym × Bits) := t.codes.map fun c => (c.1, p ++ c.2)

theorem Tree.codesBelow_nil (t : Tree) : t.codesBelow [] = t.codes := by
  simp [Tree.codesBelow]

theorem Tree.codesBelow_node (l r : Tree) (p : Bits) : (Tree.node l r).codesBelow p =
    l.codesBelow (p ++ [branchBit false]) ++ r.codesBelow (p ++ [branchBit true]) := by
  simp [Tree.codesBelow, Tree.codes, Function.comp_def]

/-- FLAT's traversal of the trees on its stack writes their codes in order, left before right (R201). -/
theorem flatVisit_eq_writeCodes {nodes : NodeStore} {draw fuel : Nat} {stack : List (NodeIdx × Bits)} {ts : List Tree}
    {ct : CodeTable} (hts : List.Forall₂ (fun e t => HoldsTree nodes e.1 t) stack ts)
    (hfuel : (ts.map Tree.size).sum ≤ fuel) :
    flatVisit nodes draw fuel stack ct =
      writeCodes draw ((List.zipWith (fun e t => t.codesBelow e.2) stack ts).flatten) ct := by
  induction fuel generalizing stack ts ct with
  | zero =>
    cases hts with
    | nil => simp [flatVisit, writeCodes]
    | @cons e t stack ts ht hts =>
      have := t.size_pos
      simp only [List.map_cons, List.sum_cons] at hfuel
      omega
  | succ fuel ih =>
    cases hts with
    | nil => simp [flatVisit, writeCodes]
    | @cons e t stack ts ht hts =>
      obtain ⟨i, p⟩ := e
      simp only [List.map_cons, List.sum_cons] at hfuel
      cases t with
      | leaf sym =>
        obtain ⟨wt, hnode⟩ := holdsTree_leaf.1 ht
        simp only [flatVisit, hnode, ih hts (by simp only [Tree.size] at hfuel; omega)]
        simp [Tree.codesBelow, Tree.codes, writeCodes, writtenEntry]
      | node tl tr =>
        obtain ⟨l, r, wt, hnode, hl, hr⟩ := holdsTree_node.1 ht
        simp only [flatVisit, hnode]
        rw [ih (.cons hl (.cons hr hts))
          (by simp only [Tree.size] at hfuel; simp only [List.map_cons, List.sum_cons]; omega)]
        simp [Tree.codesBelow_node]

theorem flatVisit_root {nodes : NodeStore} {root : NodeIdx} {t : Tree} (draw : Nat) (ct : CodeTable)
    (h : HoldsTree nodes root t) (hsize : t.size ≤ 513) :
    flatVisit nodes draw Config.nodeCap [(root, [])] ct = writeCodes draw t.codes ct := by
  have := flatVisit_eq_writeCodes (draw := draw) (fuel := Config.nodeCap) (stack := [(root, [])]) (ts := [t]) (ct := ct)
    (.cons h .nil) (by simpa [Config.nodeCap] using hsize)
  simpa [Tree.codesBelow_nil] using this

theorem writeCodes_ne_broken {draw : Nat} {cs : List (Sym × Bits)} {ct : CodeTable} :
    writeCodes draw cs ct ≠ .broken := by
  induction cs generalizing ct with
  | nil => simp [writeCodes]
  | cons c cs ih =>
    simp only [writeCodes]
    split
    · simp
    · exact ih

/-- A table that comes of writing codes: no symbol had a code before, each has the one written, and the other entries are
kept. -/
theorem writeCodes_table {draw : Nat} {cs : List (Sym × Bits)} {ct ct' : CodeTable}
    (hsym : ∀ c ∈ cs, c.1.toNat ≤ 256) (h : writeCodes draw cs ct = .table ct') :
    (∀ c ∈ cs, (codeEntry ct c.1).valid = false) ∧ (∀ c ∈ cs, codeEntry ct' c.1 = writtenEntry draw c) ∧
      ∀ sym, sym ∉ cs.map Prod.fst → codeEntry ct' sym = codeEntry ct sym := by
  induction cs generalizing ct with
  | nil =>
    cases h
    simp
  | cons c cs ih =>
    simp only [writeCodes] at h
    split at h
    · cases h
    · next hfree =>
      have hc : c.1.toNat < 257 := Nat.lt_succ_of_le (hsym c (by simp))
      obtain ⟨hnone, hnew, hold⟩ := ih (fun d hd => hsym d (by simp [hd])) h
      have hset := fun b => codeEntry_set ct c.1 b (writtenEntry draw c) hc
      -- A later code for the symbol just written would have been refused.
      have hne : ∀ d ∈ cs, c.1 ≠ d.1 := fun d hd heq => by
        have hv := hnone d hd
        rw [← heq, hset, if_pos rfl] at hv
        cases hv
      have hnotin : c.1 ∉ cs.map Prod.fst := fun hm => by
        obtain ⟨d, hd, hdc⟩ := List.mem_map.1 hm
        exact hne d hd hdc.symm
      refine ⟨fun d hd => ?_, fun d hd => ?_, fun sym hs => ?_⟩
      · rcases List.mem_cons.1 hd with rfl | hd
        · simpa using hfree
        · simpa only [hset, if_neg (hne d hd)] using hnone d hd
      · rcases List.mem_cons.1 hd with rfl | hd
        · rw [hold _ hnotin, hset, if_pos rfl]
        · exact hnew d hd
      · simp only [List.map_cons, List.mem_cons, not_or] at hs
        rw [hold sym hs.2, hset, if_neg fun h => hs.1 h.symm]

/-- Codes for distinct symbols without a code are all written. -/
theorem writeCodes_of_nodup {draw : Nat} {cs : List (Sym × Bits)} {ct : CodeTable}
    (hsym : ∀ c ∈ cs, c.1.toNat ≤ 256) (hfree : ∀ c ∈ cs, (codeEntry ct c.1).valid = false)
    (hnd : (cs.map Prod.fst).Nodup) : ∃ ct', writeCodes draw cs ct = .table ct' := by
  induction cs generalizing ct with
  | nil => exact ⟨ct, rfl⟩
  | cons c cs ih =>
    have hc : c.1.toNat < 257 := Nat.lt_succ_of_le (hsym c (by simp))
    rw [List.map_cons, List.nodup_cons] at hnd
    simp only [writeCodes, hfree c (by simp), Bool.false_eq_true, if_false]
    refine ih (fun d hd => hsym d (by simp [hd])) (fun d hd => ?_) hnd.2
    have hne : c.1 ≠ d.1 := fun heq => hnd.1 (heq ▸ List.mem_map_of_mem hd)
    rw [codeEntry_set _ _ _ _ hc, if_neg hne]
    exact hfree d (by simp [hd])

theorem codeEntry_clearValid (ct : CodeTable) (sym : Sym) :
    codeEntry (clearValid ct) sym = { codeEntry ct sym with valid := false } := by
  have h : (clearValid ct)[sym.toNat]? = ct[sym.toNat]?.map fun e => { e with valid := false } := by
    simp [clearValid]
  simp only [codeEntry, h]
  cases ct[sym.toNat]? <;> rfl

theorem Tree.codes_fst (t : Tree) : t.codes.map Prod.fst = t.leaves := by
  induction t with
  | leaf sym => rfl
  | node l r hl hr => simp [Tree.codes, Tree.leaves, ← hl, ← hr, Function.comp_def]

/-- No code is longer than the tree is deep (R204). -/
theorem Tree.code_length_le {t : Tree} {c : Sym × Bits} (hc : c ∈ t.codes) : c.2.length ≤ t.depth := by
  induction t generalizing c with
  | leaf sym =>
    cases List.mem_singleton.1 hc
    simp
  | node l r hl hr =>
    simp only [Tree.codes, List.mem_append, List.mem_map] at hc
    simp only [Tree.depth]
    rcases hc with ⟨d, hd, rfl⟩ | ⟨d, hd, rfl⟩
    · have := hl hd
      simp only [List.length_cons]
      omega
    · have := hr hd
      simp only [List.length_cons]
      omega

/-- The table FLAT leaves holds exactly the codes of the tree (R39), and the other entries lost only their valid bit. -/
theorem flat_table {t : Tree} {draw : Nat} {ct ct' : CodeTable} (hsize : t.size ≤ 513) (hl : LegalSymbols t)
    (h : writeCodes draw t.codes (clearValid ct) = .table ct') :
    HoldsCodes ct' t ∧ ∀ sym, sym ∉ t.leaves → codeEntry ct' sym = { codeEntry ct sym with valid := false } := by
  have hsym : ∀ c ∈ t.codes, c.1.toNat ≤ 256 := fun c hc => hl _ (t.codes_fst ▸ List.mem_map_of_mem hc)
  obtain ⟨-, hnew, hold⟩ := writeCodes_table hsym h
  rw [t.codes_fst] at hold
  refine ⟨⟨fun sym => ⟨fun hv => ?_, fun hm => ?_⟩, fun c hc => ?_⟩, fun sym hs => ?_⟩
  · by_contra hs
    rw [hold sym hs, codeEntry_clearValid] at hv
    cases hv
  · rw [← t.codes_fst] at hm
    obtain ⟨c, hc, rfl⟩ := List.mem_map.1 hm
    rw [hnew c hc]
    rfl
  · have hlen : c.2.length ≤ 256 := by
      have := t.depth_le_size
      have := Tree.code_length_le hc
      omega
    have hlen' : (BitVec.ofNat 9 c.2.length).toNat = c.2.length := by
      simp only [BitVec.toNat_ofNat]
      omega
    rw [hnew c hc]
    exact ⟨hlen', by simp only [entryCode, writtenEntry, hlen', codeField_take _ hlen]⟩
  · rw [hold sym hs, codeEntry_clearValid]

/-- FLAT with a tree whose codes can all be written (R201). -/
theorem execFlat_table {s : State} {t : Tree} {ct : CodeTable} (he : s.err = false) (hv : s.treeValid = true)
    (ht : HoldsTree s.nodes s.root t) (hsize : t.size ≤ 513)
    (hct : writeCodes s.draws t.codes (clearValid s.ct) = .table ct) :
    execFlat s = completeWith (s.leafcnt.setWidth 32) { s with ct := ct, tableValid := true, draws := s.draws + 1 } := by
  simp only [execFlat, command_runs he (show Instr.flat.wellFormed = true from rfl), require_holds hv,
    flatVisit_root s.draws _ ht hsize, hct]

/-- Settles O34: with no symbol twice every code is written. -/
theorem flatWritesTheCodes : Obligations.FlatWritesTheCodes := by
  intro s t he hv ht hsize hl hnd
  have hsym : ∀ c ∈ t.codes, c.1.toNat ≤ 256 := fun c hc => hl _ (t.codes_fst ▸ List.mem_map_of_mem hc)
  obtain ⟨ct', hct⟩ := writeCodes_of_nodup (draw := s.draws) (ct := clearValid s.ct) hsym
    (fun c _ => by rw [codeEntry_clearValid]) (t.codes_fst ▸ hnd)
  obtain ⟨hcodes, hothers⟩ := flat_table hsize hl hct
  exact ⟨ct', s.draws + 1, execFlat_table he hv ht hsize hct, hcodes, hothers⟩

end Sys2Proof.Machine

namespace Sys2Proof.Machine

/-! ## DES's parse builds the tree in pre-order (R183) -/

/-- The pending nodes of a parse, innermost first, with the indices they and their finished left subtrees occupy, in the order in
which they were allocated, and the symbols of the finished leaves. -/
inductive Pending (nodes : NodeStore) : List Frame → List NodeIdx → List Sym → Prop where
  | nil : Pending nodes [] [] []
  | left {i : Nat} {fs : List Frame} {is : List NodeIdx} {ls : List Sym} (hi : i < 513) (h : Pending nodes fs is ls) :
      Pending nodes (.left i :: fs) (is ++ [BitVec.ofNat 10 i]) ls
  | right {i : Nat} {l : NodeIdx} {t : Tree} {fs : List Frame} {is il : List NodeIdx} {ls : List Sym} (hi : i < 513)
      (hl : Spans nodes l t il) (h : Pending nodes fs is ls) :
      Pending nodes (.right i l :: fs) (is ++ BitVec.ofNat 10 i :: il) (ls ++ t.leaves)

theorem Pending.congr {n n' : NodeStore} {fs : List Frame} {is : List NodeIdx} {ls : List Sym} (h : Pending n fs is ls)
    (hn : ∀ j ∈ is, nodeAt n' j = nodeAt n j) : Pending n' fs is ls := by
  induction h with
  | nil => exact .nil
  | left hi _ ih => exact .left hi (ih fun j hj => hn j (by simp [hj]))
  | right hi hl _ ih =>
    exact .right hi (hl.congr fun j hj => hn j (by simp [hj])) (ih fun j hj => hn j (by simp [hj]))

/-- Indices in allocation order: 0, 1, 2, … -/
def InOrder (is : List NodeIdx) : Prop := is.map BitVec.toNat = List.range is.length

theorem InOrder.nodup {is : List NodeIdx} (h : InOrder is) : is.Nodup :=
  List.Nodup.of_map BitVec.toNat (h ▸ List.nodup_range)

theorem InOrder.append_next {is : List NodeIdx} (h : InOrder is) (hlen : is.length < 513) :
    InOrder (is ++ [BitVec.ofNat 10 is.length]) := by
  have : (BitVec.ofNat 10 is.length).toNat = is.length := by
    simp only [BitVec.toNat_ofNat]
    omega
  simp only [InOrder, List.map_append, List.map_cons, List.map_nil, this, List.length_append, List.length_cons,
    List.length_nil, List.range_succ, Nat.zero_add]
  rw [h]

theorem toNat_ofNat_index {i : Nat} (h : i < 513) : (BitVec.ofNat 10 i).toNat = i := by
  simp only [BitVec.toNat_ofNat]
  omega

/-- Writing N[i] leaves every other entry. -/
theorem nodeAt_set_ne {n : NodeStore} {i : Nat} {j : NodeIdx} {nd : Node} (hi : i < 513) (h : j ≠ BitVec.ofNat 10 i) :
    nodeAt (n.setIfInBounds i nd) j = nodeAt n j := by
  rw [nodeAt_set, if_neg]
  rintro rfl
  exact h (by simp)

theorem nodeAt_set_self {n : NodeStore} {i : Nat} {nd : Node} (hi : i < 513) :
    nodeAt (n.setIfInBounds i nd) (BitVec.ofNat 10 i) = some nd := by
  rw [nodeAt_set, if_pos (toNat_ofNat_index hi).symm, if_pos hi]

/-- What a parse has made once a subtree is closed: more pending nodes, or the whole tree. -/
theorem closeSubtree_spec {fs : List Frame} {idx : Nat} {nodes : NodeStore} {is it : List NodeIdx} {ls : List Sym} {t : Tree}
    (hp : Pending nodes fs is ls) (ht : Spans nodes (BitVec.ofNat 10 idx) t it) (hnd : (is ++ it).Nodup) :
    (∀ fs' nodes', closeSubtree idx fs nodes = .inl (fs', nodes') → Pending nodes' fs' (is ++ it) (ls ++ t.leaves)) ∧
      ∀ root nodes', closeSubtree idx fs nodes = .inr (root, nodes') →
        ∃ T, Spans nodes' (BitVec.ofNat 10 root) T (is ++ it) ∧ T.leaves = ls ++ t.leaves := by
  induction fs generalizing idx nodes is it ls t with
  | nil =>
    cases hp
    refine ⟨by simp [closeSubtree], fun root nodes' h => ?_⟩
    cases h
    exact ⟨t, ht, rfl⟩
  | cons f fs ih =>
    cases hp with
    | @left i _ is ls hi hp =>
      refine ⟨fun fs' nodes' h => ?_, by simp [closeSubtree]⟩
      cases h
      simpa using Pending.right hi ht hp
    | @right i l tl _ is il ls hi hl hp =>
      rw [List.append_assoc, List.cons_append] at hnd
      have hdis := List.disjoint_of_nodup_append hnd
      have hnotin := (List.nodup_cons.1 hnd.of_append_right).1
      have others : ∀ j ∈ is ++ (il ++ it), nodeAt
          (nodes.setIfInBounds i (.internal l (BitVec.ofNat 10 idx) 0#41)) j = nodeAt nodes j := fun j hj => by
        refine nodeAt_set_ne hi fun he => ?_
        rcases List.mem_append.1 hj with hj | hj
        · exact hdis hj (by simp [he])
        · exact hnotin (he ▸ hj)
      have hnew : Spans (nodes.setIfInBounds i (.internal l (BitVec.ofNat 10 idx) 0#41)) (BitVec.ofNat 10 i)
          (.node tl t) (BitVec.ofNat 10 i :: il ++ it) :=
        .node (nodeAt_set_self hi) (hl.congr fun j hj => others j (by simp [hj]))
          (ht.congr fun j hj => others j (by simp [hj]))
      have := ih (hp.congr fun j hj => others j (by simp [hj])) hnew hnd
      simpa [closeSubtree, Tree.leaves] using this

/-- What holds of a parse before each bit, unless the header has been too deep (log 14). -/
def ParseInvariant (st : Parse × NodeStore) : Prop :=
  st.1.tooDeep = false → ∃ is ls, Pending st.2 st.1.frames is ls ∧ InOrder is ∧ st.1.n ≤ 513 ∧
    st.1.n = is.length + (if st.1.field.isSome then 1 else 0) ∧ st.1.leaves = ls.length ∧ ∀ sym ∈ ls, sym.toNat ≤ 256

theorem parseInvariant_start (nodes : NodeStore) : ParseInvariant (Parse.start, nodes) :=
  fun _ => ⟨[], [], .nil, rfl, Nat.zero_le _, rfl, rfl, by simp⟩

/-- What the end of a parse says of the tree it has made. -/
def MadeTree (root n leaves : Nat) (nodes : NodeStore) : Prop :=
  ∃ t is, Spans nodes (BitVec.ofNat 10 root) t is ∧ InOrder is ∧ is.length = n ∧ n ≤ 513 ∧ t.leaves.length = leaves ∧
    LegalSymbols t

theorem closeLeaf_spec {p : Parse} {v : Nat} {nodes : NodeStore} (hi : ParseInvariant (p, nodes))
    (hf : p.field.isSome = true) :
    (∀ st, closeLeaf p v nodes = .inl st → ParseInvariant st) ∧
      ∀ root n leaves nodes', closeLeaf p v nodes = .inr (.tree root n leaves nodes') → MadeTree root n leaves nodes' := by
  unfold closeLeaf
  by_cases hv : 256 < v
  · simp [hv]
  by_cases hd : p.tooDeep = true
  · simp only [hv, hd, if_false, if_true]
    refine ⟨fun st h => ?_, by simp⟩
    cases h
    exact fun h => by cases h
  obtain ⟨is, ls, hp, hord, hcap, hn, hls, hlegal⟩ := hi (by simpa using hd)
  simp only [hf, if_true] at hn hcap hp hls
  have hlen : is.length < 513 := by omega
  have hv9 : (BitVec.ofNat 9 v).toNat = v := by
    simp only [BitVec.toNat_ofNat]
    omega
  have hord' := hord.append_next hlen
  have hidx : p.n - 1 = is.length := by omega
  have hp' : Pending (nodes.setIfInBounds is.length (.leaf (BitVec.ofNat 9 v) 0#41)) p.frames is ls :=
    hp.congr fun j hj => nodeAt_set_ne hlen fun he =>
      List.disjoint_of_nodup_append hord'.nodup hj (by simp [he])
  obtain ⟨hinl, hinr⟩ := closeSubtree_spec hp' (.leaf (nodeAt_set_self hlen)) hord'.nodup
  have hlegal' : ∀ sym ∈ ls ++ (Tree.leaf (BitVec.ofNat 9 v)).leaves, sym.toNat ≤ 256 := by
    intro sym hs
    rcases List.mem_append.1 hs with hs | hs
    · exact hlegal sym hs
    · cases List.mem_singleton.1 hs
      omega
  simp only [hv, hd, if_false, hidx]
  cases hc : closeSubtree is.length p.frames (nodes.setIfInBounds is.length (.leaf (BitVec.ofNat 9 v) 0#41)) with
  | inl r =>
    obtain ⟨fs', nodes'⟩ := r
    refine ⟨fun st h => ?_, by simp⟩
    cases h
    exact fun _ => ⟨_, _, hinl _ _ hc, hord', hcap, by simp [hn], by simp [hls, Tree.leaves], hlegal'⟩
  | inr r =>
    obtain ⟨root, nodes'⟩ := r
    obtain ⟨T, hT, hTl⟩ := hinr _ _ hc
    refine ⟨by simp, fun root' n leaves nodes'' h => ?_⟩
    cases h
    exact ⟨T, _, hT, hord', by simp [hn], hcap, by simp [hTl, hls, Tree.leaves], fun sym hs => hlegal' sym (hTl ▸ hs)⟩

/-- One bit of a header keeps the invariant of the parse, or ends it with the tree it has made (R183). -/
theorem parseBit_spec {st : Parse × NodeStore} {b : Bool} (hi : ParseInvariant st) :
    (∀ st', parseBit st b = .inl st' → ParseInvariant st') ∧
      ∀ root n leaves nodes', parseBit st b = .inr (.tree root n leaves nodes') → MadeTree root n leaves nodes' := by
  obtain ⟨⟨frames, n, leaves, field, deep⟩, nodes⟩ := st
  cases field with
  | none =>
    by_cases hn : n = 513
    · rw [parseBit_full b rfl hn]
      simp
    cases b
    · rw [parseBit_internal rfl hn]
      refine ⟨fun st' h => ?_, by simp⟩
      cases h
      unfold beginInternal
      split
      · exact fun h => by cases h
      · next hd =>
        simp only [Bool.or_eq_true, not_or, Bool.not_eq_true] at hd
        obtain ⟨is, ls, hp, hord, hcap, hlen, hls, hlegal⟩ := hi hd.1
        simp only [Option.isSome_none, Bool.false_eq_true, if_false, Nat.add_zero] at hcap hlen hp hls
        subst hlen
        have hlt : is.length < 513 := by omega
        exact fun _ => ⟨_, ls, .left hlt hp, hord.append_next hlt, hlt, by simp, hls, hlegal⟩
    · rw [parseBit_leaf rfl hn]
      refine ⟨fun st' h => ?_, by simp⟩
      cases h
      intro hd
      obtain ⟨is, ls, hp, hord, hcap, hlen, hls, hlegal⟩ := hi hd
      simp only [Option.isSome_none, Bool.false_eq_true, if_false, Nat.add_zero] at hcap hlen
      exact ⟨is, ls, hp, hord, by simp only; omega, by simp [hlen], hls, hlegal⟩
  | some mv =>
    obtain ⟨missing, v⟩ := mv
    simp only [parseBit]
    split
    · exact closeLeaf_spec hi rfl
    · refine ⟨fun st' h => ?_, by simp⟩
      cases h
      exact hi

/-- A complete header has made its tree. -/
theorem feed_parseBit_madeTree {nodes nodes' : NodeStore} {bits rest : Bits} {root n leaves : Nat}
    (h : feed parseBit (Parse.start, nodes) bits = .done (.tree root n leaves nodes') rest) :
    MadeTree root n leaves nodes' := by
  obtain ⟨st, b, hst, hb⟩ := feed_done_invariant (P := ParseInvariant) (fun _ _ st' hi h => (parseBit_spec hi).1 st' h)
    (parseInvariant_start nodes) h
  exact (parseBit_spec hst).2 _ _ _ _ hb

/-- The registers DES writes describe the tree it has made (R37, R185). -/
theorem MadeTree.describesTree {root n leaves : Nat} {nodes : NodeStore} (h : MadeTree root n leaves nodes) {s : State}
    (hn : s.nodes = nodes) (hr : s.root = BitVec.ofNat 10 root) (hc : s.nodecnt = BitVec.ofNat 10 n)
    (hl : s.leafcnt = BitVec.ofNat 9 leaves) : ∃ t, DescribesTree s t := by
  obtain ⟨t, is, hs, hord, rfl, hcap, hleaves, hlegal⟩ := h
  have hcnt : s.nodecnt.toNat = is.length := by
    rw [hc, BitVec.toNat_ofNat]
    omega
  have hsize := t.size_add_one
  rw [← hs.length_eq] at hsize
  refine ⟨t, is, by rwa [hn, hr], by rw [hcnt, hord], ?_, hlegal⟩
  rw [hl, BitVec.toNat_ofNat]
  omega

end Sys2Proof.Machine

namespace Sys2Proof.Machine

/-! ## DSYM walks the tree (R243) -/

/-- A code of a tree that is no leaf begins with the branch bit of the subtree it goes on in (R200). -/
theorem Tree.mem_codes_node {l r : Tree} {sym : Sym} {b : Bool} {p : Bits} :
    (sym, b :: p) ∈ (Tree.node l r).codes ↔ (sym, p) ∈ (if b then r else l).codes := by
  cases b <;> simp [Tree.codes, branchBit]

/-- The child a branch bit leads to holds the subtree on that side (R15). -/
theorem holdsTree_branchTo {n : NodeStore} {l r : NodeIdx} {tl tr : Tree} (hl : HoldsTree n l tl) (hr : HoldsTree n r tr)
    (b : Bool) : HoldsTree n (branchTo b l r) (if b then tr else tl) := by
  cases b
  · simpa [branchTo, branchBit] using hl
  · simpa [branchTo, branchBit] using hr

/-- The walk from an internal node comes to a leaf when the bits begin with its code, and else to an internal node, below which
the codes go on after those bits (R243). -/
theorem feed_walkBit {n : NodeStore} {c : NodeIdx} {tl tr : Tree} (h : HoldsTree n c (.node tl tr)) (bits : Bits) :
    (∃ sym used rest, bits = used ++ rest ∧ (sym, used) ∈ (Tree.node tl tr).codes ∧
        feed (walkBit n) c bits = .done (some sym) rest) ∨
      ∃ c' l r, feed (walkBit n) c bits = .dry c' ∧ HoldsTree n c' (.node l r) ∧
        ∀ sym rest, (sym, rest) ∈ (Tree.node l r).codes ↔ (sym, bits ++ rest) ∈ (Tree.node tl tr).codes := by
  induction bits generalizing c tl tr with
  | nil => exact .inr ⟨c, tl, tr, rfl, h, fun _ _ => Iff.rfl⟩
  | cons b bits ih =>
    obtain ⟨l, r, wt, hnode, hl, hr⟩ := holdsTree_node.1 h
    have hchild := holdsTree_branchTo hl hr b
    have hcodes : ∀ sym p, (sym, b :: p) ∈ (Tree.node tl tr).codes ↔ (sym, p) ∈ (if b then tr else tl).codes :=
      fun _ _ => Tree.mem_codes_node
    generalize (if b then tr else tl) = child at hchild hcodes
    cases child with
    | leaf sym =>
      obtain ⟨w, hleaf⟩ := holdsTree_leaf.1 hchild
      exact .inl ⟨sym, [b], bits, rfl, (hcodes sym []).2 (by simp [Tree.codes]), by simp [feed, walkBit, hnode, hleaf]⟩
    | node cl cr =>
      obtain ⟨l', r', w, hinner, -, -⟩ := holdsTree_node.1 hchild
      have hstep : feed (walkBit n) c (b :: bits) = feed (walkBit n) (branchTo b l r) bits := by
        simp [feed, walkBit, hnode, hinner]
      rw [hstep]
      rcases ih hchild with ⟨sym, used, rest, rfl, hmem, hf⟩ | ⟨c', dl, dr, hf, hd, hiff⟩
      · exact .inl ⟨sym, b :: used, rest, rfl, (hcodes _ _).2 hmem, hf⟩
      · exact .inr ⟨c', dl, dr, hf, hd, fun sym rest => (hiff sym rest).trans (hcodes _ _).symm⟩

/-! ## What every command keeps of the tree, the table, CURSOR and its held work (R37, R39, R40, R47) -/

/-- The clauses of `Invariant` beside those of the flags. -/
structure Kept (s : State) : Prop where
  tree : TreeInvariant s
  table : TableInvariant s
  cursor : CursorInvariant s
  held : ∀ j, s.job = some j → HeldWork s j

section Kept

variable {e : Effects} {pre : Prop} {s t : State}

theorem Unchanged.treeInvariant (h : Unchanged e s t) (he : e.tree = false) (hs : TreeInvariant s) : TreeInvariant t := by
  obtain ⟨hv, hn, hc, hr, hl⟩ := h.tree he
  simpa only [TreeInvariant, DescribesTree, hv, hn, hc, hr, hl] using hs

theorem Unchanged.tableInvariant (h : Unchanged e s t) (he : e.tree = false) (hct : e.table = false)
    (hs : TableInvariant s) : TableInvariant t := by
  obtain ⟨-, hn, hc, hr, hl⟩ := h.tree he
  obtain ⟨hct, hv⟩ := h.table hct
  simpa only [TableInvariant, DescribesTree, hv, hct, hn, hc, hr, hl] using hs

/-- A command that ends without an error began without one. -/
theorem Ends.noError (h : Ends e pre s t) (ht : t.err = false) : s.err = false := by
  cases h with
  | done h => exact h.error.1.symm.trans ht
  | result v _ h => exact h.error.1.symm.trans ht
  | error => simp at ht
  | held _ _ h => exact h.error.1.symm.trans ht

/-- A command is held only as itself. -/
theorem Ends.held_kind (h : Ends e pre s t) {j : Job} (hj : t.job = some j) : e.held = some j.kind := by
  cases h with
  | done => simp at hj
  | result => simp at hj
  | error => simp at hj
  | held he => cases hj; exact he

theorem Ends.cursorInvariant (h : Ends e pre s t) (he : e.tree = false) (hd : e.decoder = false)
    (hj : s.job ≠ some .dsym) (hs : CursorInvariant s) : CursorInvariant t := by
  intro ha herr _
  obtain ⟨hact, -, hcur⟩ := h.unchanged.decoder hd
  obtain ⟨-, -, -, hroot, -⟩ := h.unchanged.tree he
  rw [hcur, hroot]
  exact hs (hact ▸ ha) (h.noError herr) hj

/-- A command that does not write the tree keeps the invariants, if it keeps those of what it writes. -/
theorem Kept.of_ends (hk : Kept s) (h : Ends e pre s t) (hj : s.job ≠ some .dsym ∨ e.decoder = true) (he : e.tree = false)
    (table : e.table = true → TableInvariant t) (cursor : e.decoder = true → CursorInvariant t)
    (held : ∀ j, t.job = some j → e.held = some j.kind → HeldWork t j) : Kept t where
  tree := h.unchanged.treeInvariant he hk.tree
  table := by
    cases hc : e.table
    · exact h.unchanged.tableInvariant he hc hk.table
    · exact table hc
  cursor := by
    cases hd : e.decoder
    · exact h.cursorInvariant he hd (hj.resolve_right (by simp [hd])) hk.cursor
    · exact cursor hd
  held j hjt := held j hjt (h.held_kind hjt)

/-- What a state of the invariants says of its tree. -/
theorem Kept.describes (hk : Kept s) (hv : s.treeValid = true) : ∃ T, DescribesTree s T ∧ HoldsTree s.nodes s.root T ∧
    T.size ≤ 513 ∧ LegalSymbols T ∧ ∀ i : NodeIdx, i.toNat < s.nodecnt.toNat → ∃ nd, nodeAt s.nodes i = some nd := by
  obtain ⟨T, hT⟩ := hk.tree hv
  obtain ⟨h1, h2, h3, h4⟩ := hT.bounds
  exact ⟨T, hT, h1, h2, h3, h4⟩

/-- What SER is held with (R47 (a)). -/
theorem serVisit_heldWork {stack : List NodeIdx} {ts : List Tree} {count : Nat}
    (hts : List.Forall₂ (HoldsTree s.nodes) stack ts) (hsize : (ts.map Tree.size).sum ≤ Config.nodeCap)
    (hfit : StackFits ts) :
    Meets False (fun t => ∀ j, t.job = some j → HeldWork t j) (serVisit Config.nodeCap stack count s) := by
  refine serVisit_meets hts hsize hfit (by simp) (fun rest stack' ts' count' u _ hts' hle hfit' j hj => ?_) (by simp)
  cases hj
  exact ⟨by rw [hts'.length_eq]; exact hfit'.length_le, ts', hts', hle, hfit'⟩

theorem execSer_heldWork (hk : Kept s) : Meets False (fun t => ∀ j, t.job = some j → HeldWork t j) (execSer s) := by
  refine command_meets (by simp) (by simp) fun _ _ => require_meets (by simp) fun hv => ?_
  obtain ⟨T, -, hT, hsize, -, -⟩ := hk.describes hv
  exact serVisit_heldWork (.cons hT .nil) (by simpa [Config.nodeCap] using hsize)
    (stackFits_root (by simpa [Config.nodeCap] using hsize))

theorem resumeSer_heldWork {rest : Bits} {stack : List NodeIdx} {count : Nat} (hw : HeldWork s (.ser rest stack count)) :
    Meets False (fun t => ∀ j, t.job = some j → HeldWork t j) (resumeSer rest stack count s) := by
  obtain ⟨hlen, ts, hts, hsize, hfit⟩ := hw
  refine emit_meets (fun _ => rfl) (serVisit_heldWork (s := accepted rest s) hts hsize hfit) (fun given rest' _ _ j hj => ?_)
    (by simp)
  cases hj
  exact ⟨hlen, ts, hts, hsize, hfit⟩

/-- FLAT leaves the codes of the tree, or no valid table (R39, R202). -/
theorem execFlat_tableInvariant (hk : Kept s) : Meets False TableInvariant (execFlat s) := by
  refine command_meets (fun _ => hk.table) (fun _ => hk.table) fun _ _ => require_meets (fun _ => hk.table) fun hv => ?_
  obtain ⟨T, -, hT, hsize, -, -⟩ := hk.describes hv
  cases hf : flatVisit s.nodes s.draws Config.nodeCap [(s.root, [])] (clearValid s.ct) with
  | table ct =>
    refine meets_next.2 fun _ T' hT' => ?_
    obtain ⟨hholds, hsize', hlegal, -⟩ := DescribesTree.bounds (s := s) hT'
    rw [flatVisit_root _ _ hholds hsize'] at hf
    exact (flat_table hsize' hlegal hf).1
  | duplicate => exact meets_next.2 fun h => by simp at h
  | broken => exact absurd ((flatVisit_root _ _ hT hsize).symm.trans hf) writeCodes_ne_broken

/-- DSTART sets CURSOR to ROOT (R241). -/
theorem execDstart_cursorInvariant (hk : Kept s) : Meets False CursorInvariant (execDstart s) := by
  have herr : ∀ op code, CursorInvariant (errorState op code s) := fun _ _ _ h => by simp at h
  refine command_meets (fun he _ h => by simp [he] at h) (fun _ => herr _ _) fun _ _ => require_meets (fun _ => herr _ _)
    fun hv => ?_
  obtain ⟨T, -, hT, -⟩ := hk.describes hv
  refine withNode_meets (fun hn => ?_) fun _ _ => require_meets (fun _ => herr _ _) fun _ => meets_next.2 fun _ _ _ => rfl
  obtain ⟨nd, hnd⟩ := hT.nodeAt
  simp [hnd] at hn

/-- DSYM ends at ROOT, in an error, or held with CURSOR on an internal node (R40, R243). -/
theorem dsymWalk_kept {T : Tree} (hT : HoldsTree s.nodes s.cursor T) :
    Meets False (fun t => CursorInvariant t ∧ ∀ j, t.job = some j → HeldWork t j) (dsymWalk s) := by
  have finish : ∀ sym (u : State), Meets False (fun t => CursorInvariant t ∧ ∀ j, t.job = some j → HeldWork t j)
      (dsymFinish sym u) := fun sym u => meets_next.2 ⟨fun _ _ _ => rfl, by simp⟩
  have fail : ∀ code (u : State), Meets False (fun t => CursorInvariant t ∧ ∀ j, t.job = some j → HeldWork t j)
      (dsymFail code u) := fun code u => meets_next.2 ⟨fun _ h => by simp at h, by simp⟩
  cases T with
  | leaf sym =>
    obtain ⟨wt, hnode⟩ := holdsTree_leaf.1 hT
    rw [dsymWalk, withNode_some hnode]
    exact finish sym s
  | node tl tr =>
    obtain ⟨l, r, wt, hnode, -, -⟩ := holdsTree_node.1 hT
    rw [dsymWalk, withNode_some hnode]
    dsimp only
    have hwalk := feed_walkBit hT s.inp.bits
    rcases takeBits_cases (walkBit s.nodes) s.cursor s with ⟨res, used, rest, -, -, -, hfeed, hf⟩ | ⟨c, -, -, -, hf⟩ |
      ⟨c, -, -, hfeed, hf⟩ | ⟨-, hf⟩
    · rw [hf]
      rcases hwalk with ⟨sym, _, _, -, -, hd⟩ | ⟨_, _, _, hd, -⟩
      · rw [hfeed] at hd
        cases hd
        exact finish sym _
      · rw [hfeed] at hd
        cases hd
    · rw [hf]
      exact fail _ _
    · rw [hf]
      rcases hwalk with ⟨sym, _, _, -, -, hd⟩ | ⟨c', l', r', hd, hc', -⟩
      · rw [hfeed] at hd
        cases hd
      · rw [hfeed] at hd
        cases hd
        refine meets_next.2 ⟨fun _ _ h => absurd rfl h, fun j hj => ?_⟩
        cases hj
        exact ⟨l', r', hc'⟩
    · rw [hf]
      exact fail _ _

/-- An unheld DSYM starts on the tree at ROOT (R40, R242). -/
theorem execDsym_kept (hf : TreeFlags s) (hk : Kept s) (hj : s.job = none) :
    Meets False (fun t => CursorInvariant t ∧ ∀ j, t.job = some j → HeldWork t j) (execDsym s) := by
  have herr : ∀ op code, CursorInvariant (errorState op code s) ∧ ∀ j, (errorState op code s).job = some j →
      HeldWork (errorState op code s) j := fun _ _ => ⟨fun _ h => by simp at h, by simp⟩
  refine command_meets (fun he => ⟨fun _ h => by simp [he] at h, by simp⟩) (fun _ => herr _ _) fun he _ =>
    require_meets (fun _ => herr _ _) fun ha => ?_
  obtain ⟨T, -, hT, -⟩ := hk.describes (hf.armedTree ha)
  rw [← hk.cursor ha he (by simp [hj])] at hT
  exact dsymWalk_kept hT

/-- DES ends with the tree it has read, in an error without one, or held in the middle of a header (R37, R47, R185, R187). -/
theorem desTake_kept {p : Parse} {start : Word} (hv : s.treeValid = false) (hct : s.tableValid = false)
    (hd : s.decActive = false) {nodes : NodeStore} {before : Bits}
    (hw : feed parseBit (Parse.start, nodes) before = .dry (p, s.nodes)) : Meets False Kept (desTake p start s) := by
  have fail : ∀ code (u : State), u.treeValid = false → u.tableValid = false → u.decActive = false →
      Meets False Kept (desFail code u) := fun code u hv hct hd => meets_next.2
    ⟨fun h => by simp [hv] at h, fun h => by simp [hct] at h, fun h => by simp [hd] at h, by simp⟩
  unfold desTake
  have hfeed := feed_append_of_dry s.inp.bits hw
  rcases takeBits_cases parseBit (p, s.nodes) s with ⟨r, used, rest, -, -, -, hr, hf⟩ | ⟨st, -, -, -, hf⟩ |
    ⟨st, -, -, hr, hf⟩ | ⟨-, hf⟩
  · rw [hf]
    cases r with
    | tree root n leaves nodes' =>
      refine meets_next.2 ⟨fun _ => ?_, fun h => by simp [hct] at h, fun h => by simp [hd] at h, by simp⟩
      exact (feed_parseBit_madeTree (hfeed.trans hr)).describesTree rfl rfl rfl rfl
    | nodeOverflow => exact fail _ _ hv hct hd
    | badSymbol => exact fail _ _ hv hct hd
  · rw [hf]
    exact fail _ _ hv hct hd
  · rw [hf]
    refine meets_next.2 ⟨fun h => by simp [hv] at h, fun h => by simp [hct] at h, fun h => by simp [hd] at h,
      fun j hj => ?_⟩
    cases hj
    have hst : feed parseBit (Parse.start, nodes) (before ++ s.inp.bits) = .dry (st.1, st.2) := hfeed.trans hr
    exact ⟨feed_parseBit_frames_le hst, _, _, hst⟩
  · rw [hf]
    exact fail _ _ hv hct hd

/-- The inspections read nodes in use only (R71, R262). -/
theorem inspectNode_notBroken {op : Opcode} {x : NodeIdx} {value : Node → Word} (hk : Kept s) :
    Meets False (fun _ => True) (inspectNode op x (fun nd s => completeWith (value nd) s) s) := by
  refine require_meets (fun _ => trivial) fun hv => require_meets (fun _ => trivial) fun hx => ?_
  obtain ⟨T, -, -, -, -, hin⟩ := hk.describes hv
  obtain ⟨nd, hnd⟩ := hin x (by simpa using hx)
  exact withNode_meets (fun hn => by simp [hnd] at hn) fun _ _ => meets_next.2 trivial

/-- What the commands that do not read the node store are held with has no condition. -/
theorem heldWork_of_kind {j : Job} (h : j.kind = .enc ∨ j.kind = .putb ∨ j.kind = .flush ∨ j.kind = .getb) :
    HeldWork s j := by
  cases j <;> simp [Job.kind] at h <;> trivial

end Kept

end Sys2Proof.Machine

namespace Sys2Proof.Machine

/-! ## BUILD makes a tree (R161 to R165) -/

theorem extractMin_none {q : List QueueEntry} : extractMin q = none ↔ q = [] := by
  cases q with
  | nil => simp [extractMin]
  | cons x xs =>
    simp only [extractMin]
    cases extractMin xs with
    | none => simp
    | some r => dsimp only; split <;> simp

/-- Extracting takes one element and leaves the others. -/
theorem extractMin_perm {q rest : List QueueEntry} {m : QueueEntry} (h : extractMin q = some (m, rest)) :
    (m :: rest).Perm q := by
  induction q generalizing m rest with
  | nil => simp [extractMin] at h
  | cons x xs ih =>
    simp only [extractMin] at h
    cases hx : extractMin xs with
    | none =>
      rw [hx] at h
      cases h
      rw [extractMin_none.1 hx]
    | some r =>
      obtain ⟨m', rest'⟩ := r
      rw [hx] at h
      dsimp only at h
      split at h
      · cases h
        exact (ih hx).cons _
      · cases h
        exact (List.Perm.swap x m rest').trans ((ih hx).cons x)

/-- The entries of a store in which a list of nodes stands from index 0 on. -/
theorem nodeAt_storeNodes {made : List Node} (n : NodeStore) (hlen : made.length ≤ 513) (i : NodeIdx) :
    nodeAt (storeNodes made n) i = if i.toNat < made.length then made[i.toNat]? else nodeAt n i := by
  have hstore : nodeAt (storeNodes made n) i = ((made ++ n.toList.drop made.length).take 513)[i.toNat]? := by
    simp [nodeAt, storeNodes]
  have hold : nodeAt n i = n.toList[i.toNat]? := by simp [nodeAt]
  rw [hstore, hold, List.getElem?_take]
  by_cases hi : i.toNat < made.length
  · rw [if_pos hi, if_pos (by omega), List.getElem?_append_left hi]
  · rw [if_neg hi, List.getElem?_append_right (by omega), List.getElem?_drop, Nat.add_sub_cancel' (by omega)]
    split
    · rfl
    · exact (List.getElem?_eq_none (by simp; omega)).symm

/-- Making one more node keeps those made before. -/
theorem nodeAt_storeNodes_append {made : List Node} {nd : Node} (n : NodeStore) (hlen : made.length < 513) {i : NodeIdx}
    (hi : i.toNat < made.length) : nodeAt (storeNodes (made ++ [nd]) n) i = nodeAt (storeNodes made n) i := by
  rw [nodeAt_storeNodes n (by simp; omega), nodeAt_storeNodes n (by omega), if_pos hi, if_pos (by simp; omega),
    List.getElem?_append_left hi]

/-- The forest BUILD's queue stands for: each entry is the root of a finished tree, the trees share no node and have all the nodes
made so far, and their leaves are the symbols `syms`. -/
structure Forest (n : NodeStore) (made : List Node) (queue : List QueueEntry) (syms : List Sym) : Prop where
  trees : ∃ ts : List (Tree × List NodeIdx),
    List.Forall₂ (fun e t => Spans (storeNodes made n) (BitVec.ofNat 10 e.2) t.1 t.2) queue ts ∧
      ((ts.flatMap Prod.snd).map BitVec.toNat).Perm (List.range made.length) ∧
      (ts.flatMap fun t => t.1.leaves).Perm syms
  /-- The node made last waits in the queue. -/
  last : ∃ e ∈ queue, e.2 + 1 = made.length

/-- A forest stands in every store that has its nodes. -/
theorem forest_congr {n n' : NodeStore} {queue : List QueueEntry} {ts : List (Tree × List NodeIdx)}
    (h : List.Forall₂ (fun e t => Spans n (BitVec.ofNat 10 e.2) t.1 t.2) queue ts)
    (hn : ∀ j ∈ ts.flatMap Prod.snd, nodeAt n' j = nodeAt n j) :
    List.Forall₂ (fun e t => Spans n' (BitVec.ofNat 10 e.2) t.1 t.2) queue ts := by
  induction h with
  | nil => exact .nil
  | cons ht _ ih =>
    rw [List.flatMap_cons] at hn
    exact .cons (ht.congr fun j hj => hn j (List.mem_append_left _ hj)) (ih fun j hj => hn j (List.mem_append_right _ hj))

section Forest

variable {n : NodeStore} {made : List Node} {queue queue' : List QueueEntry} {syms : List Sym}

theorem Forest.perm (h : Forest n made queue syms) (hp : queue.Perm queue') : Forest n made queue' syms where
  trees := by
    obtain ⟨ts, hts, hidx, hsyms⟩ := h.trees
    obtain ⟨ts', hts', hpt⟩ := List.perm_comp_forall₂ hp.symm hts
    exact ⟨ts', hts', ((hpt.flatMap_right _).map _).trans hidx, (hpt.flatMap_right _).trans hsyms⟩
  last := by
    obtain ⟨e, he, hlast⟩ := h.last
    exact ⟨e, hp.mem_iff.1 he, hlast⟩

/-- A merge makes one tree of two (R162). -/
theorem Forest.merge {a b : QueueEntry} {w : Weight} (h : Forest n made (a :: b :: queue) syms) (hlen : made.length < 513) :
    Forest n (made ++ [.internal (BitVec.ofNat 10 a.2) (BitVec.ofNat 10 b.2) w]) ((w, made.length) :: queue) syms := by
  obtain ⟨⟨ts, hts, hidx, hsyms⟩, -⟩ := h
  obtain ⟨⟨ta, ia⟩, rest, ha, hrest, rfl⟩ := List.forall₂_cons_left_iff.1 hts
  obtain ⟨⟨tb, ib⟩, ts, hb, hts', rfl⟩ := List.forall₂_cons_left_iff.1 hrest
  simp only [List.flatMap_cons] at hidx hsyms
  have hold : ∀ j ∈ ia ++ (ib ++ ts.flatMap Prod.snd), nodeAt (storeNodes (made ++
      [.internal (BitVec.ofNat 10 a.2) (BitVec.ofNat 10 b.2) w]) n) j = nodeAt (storeNodes made n) j := fun j hj =>
    nodeAt_storeNodes_append n hlen (List.mem_range.1 (hidx.mem_iff.1 (List.mem_map_of_mem hj)))
  have hnew : nodeAt (storeNodes (made ++ [.internal (BitVec.ofNat 10 a.2) (BitVec.ofNat 10 b.2) w]) n)
      (BitVec.ofNat 10 made.length) = some (.internal (BitVec.ofNat 10 a.2) (BitVec.ofNat 10 b.2) w) := by
    rw [nodeAt_storeNodes n (by simp; omega), toNat_ofNat_index hlen]
    simp
  refine ⟨⟨(.node ta tb, BitVec.ofNat 10 made.length :: ia ++ ib) :: ts, .cons ?_ ?_, ?_, ?_⟩,
    ⟨(w, made.length), by simp, by simp⟩⟩
  · exact .node hnew (ha.congr fun j hj => hold j (by simp [hj])) (hb.congr fun j hj => hold j (by simp [hj]))
  · exact forest_congr hts' fun j hj => hold j (by simp [hj])
  · simp only [List.flatMap_cons, List.cons_append, List.map_cons, toNat_ofNat_index hlen, List.length_append,
      List.length_cons, List.length_nil, List.range_succ, List.append_assoc]
    exact (hidx.cons _).trans (List.perm_append_singleton _ _).symm
  · simpa [Tree.leaves] using hsyms

/-- The merges end with one tree, its root the node made last; each makes one node of two that waited. -/
theorem mergeLoop_forest {fuel : Nat} (h : Forest n made queue syms) (hq : queue.length ≤ fuel) (hne : queue ≠ [])
    (hlen : made.length + queue.length ≤ 514) :
    ∃ e, Forest n (mergeLoop fuel made queue) [e] syms ∧
      (mergeLoop fuel made queue).length + 1 = made.length + queue.length := by
  induction fuel generalizing made queue with
  | zero => exact absurd (List.length_eq_zero_iff.1 (Nat.le_zero.1 hq)) hne
  | succ fuel ih =>
    simp only [mergeLoop]
    cases h1 : extractMin queue with
    | none => exact absurd (extractMin_none.1 h1) hne
    | some r1 =>
      obtain ⟨a, q1⟩ := r1
      have hp1 := extractMin_perm h1
      have hl1 := hp1.length_eq
      dsimp only
      cases h2 : extractMin q1 with
      | none =>
        have hq1 := extractMin_none.1 h2
        subst hq1
        dsimp only
        exact ⟨a, h.perm hp1.symm, by simp only [List.length_cons, List.length_nil] at hl1; omega⟩
      | some r2 =>
        obtain ⟨b, q2⟩ := r2
        have hp2 := extractMin_perm h2
        have hl2 := hp2.length_eq
        simp only [List.length_cons] at hl1 hl2
        have hmerged := (h.perm (hp1.symm.trans (hp2.symm.cons a))).merge (w := a.1 + b.1) (by omega)
        obtain ⟨e, he, hlen'⟩ := ih hmerged (by simp only [List.length_cons]; omega) (by simp)
          (by simp only [List.length_append, List.length_cons, List.length_nil]; omega)
        refine ⟨e, he, hlen'.trans ?_⟩
        simp only [List.length_append, List.length_cons, List.length_nil]
        omega

end Forest

theorem mem_presentSymbols {w : WeightTable} {k : Nat} : k ∈ presentSymbols w ↔ k ≤ 256 ∧ weight w k ≠ 0#32 := by
  simp [presentSymbols, Config.nsym, Nat.lt_succ_iff]

theorem presentSymbols_length_le (w : WeightTable) : (presentSymbols w).length ≤ 257 :=
  (List.length_filter_le _ _).trans (by simp [Config.nsym])

theorem leafQueue_eq (w : WeightTable) : leafQueue (leafNodes w) =
    (presentSymbols w).zipIdx.map fun p => ((weight w p.1).setWidth 41, p.2) := by
  rw [leafQueue, leafNodes, List.zipIdx_map, List.map_map]
  rfl

/-- The leaves are a forest of one-leaf trees, in symbol order (R161). -/
theorem leafForest (n : NodeStore) {w : WeightTable} (hne : presentSymbols w ≠ []) :
    Forest n (leafNodes w) (leafQueue (leafNodes w)) ((presentSymbols w).map (BitVec.ofNat 9)) := by
  have hle := presentSymbols_length_le w
  have hlen : (leafNodes w).length = (presentSymbols w).length := by simp [leafNodes]
  have hk : ∀ p ∈ (presentSymbols w).zipIdx, p.2 < (leafNodes w).length ∧ (BitVec.ofNat 10 p.2).toNat = p.2 ∧
      (leafNodes w)[p.2]? = some (.leaf (BitVec.ofNat 9 p.1) ((weight w p.1).setWidth 41)) := fun p hp => by
    have hget := List.mem_zipIdx_iff_getElem?.1 hp
    obtain ⟨hlt, -⟩ := List.getElem?_eq_some_iff.1 hget
    exact ⟨by omega, toNat_ofNat_index (by omega), by simp [leafNodes, hget]⟩
  refine ⟨⟨(presentSymbols w).zipIdx.map fun p => (.leaf (BitVec.ofNat 9 p.1), [BitVec.ofNat 10 p.2]), ?_, ?_, ?_⟩, ?_⟩
  · rw [leafQueue_eq, List.forall₂_map_left_iff, List.forall₂_map_right_iff, List.forall₂_same]
    intro p hp
    obtain ⟨hlt, hidx, hget⟩ := hk p hp
    refine .leaf (wt := (weight w p.1).setWidth 41) ?_
    rw [nodeAt_storeNodes n (by omega), hidx, if_pos hlt, hget]
  · have hmap : (presentSymbols w).zipIdx.map (fun p => (BitVec.ofNat 10 p.2).toNat) =
        List.range (leafNodes w).length := by
      rw [List.map_congr_left fun p hp => (hk p hp).2.1, List.zipIdx_map_snd, hlen, List.range_eq_range']
    rw [← hmap, List.flatMap_map, ← List.map_eq_flatMap, List.map_map]
    rfl
  · have hfst : (presentSymbols w).map (BitVec.ofNat 9) =
        (presentSymbols w).zipIdx.map fun p => BitVec.ofNat 9 p.1 := by
      rw [← List.zipIdx_map_fst 0 (presentSymbols w), List.map_map]
      simp
    rw [hfst, List.flatMap_map]
    simp only [Tree.leaves, ← List.map_eq_flatMap, List.Perm.refl]
  · have hpos := List.length_pos_iff.2 hne
    have hlast : ((presentSymbols w)[(presentSymbols w).length - 1], (presentSymbols w).length - 1) ∈
        (presentSymbols w).zipIdx := List.mem_zipIdx_iff_getElem?.2 (List.getElem?_eq_getElem _)
    refine ⟨_, by rw [leafQueue_eq]; exact List.mem_map_of_mem hlast, ?_⟩
    simp only [hlen]
    omega

/-- BUILD's nodes are one tree over the present symbols, its root the last (R161 to R165). -/
theorem builtNodes_tree (n : NodeStore) {w : WeightTable} (hne : presentSymbols w ≠ []) :
    ∃ t is, Spans (storeNodes (builtNodes w) n) (BitVec.ofNat 10 ((builtNodes w).length - 1)) t is ∧
      (is.map BitVec.toNat).Perm (List.range (builtNodes w).length) ∧
      t.leaves.Perm ((presentSymbols w).map (BitVec.ofNat 9)) ∧
      (builtNodes w).length + 1 = 2 * (presentSymbols w).length := by
  have hle := presentSymbols_length_le w
  have hlen : (leafNodes w).length = (presentSymbols w).length := by simp [leafNodes]
  have hqlen : (leafQueue (leafNodes w)).length = (presentSymbols w).length := by simp [leafQueue_eq]
  have hq : leafQueue (leafNodes w) ≠ [] := by simpa [leafQueue_eq] using hne
  obtain ⟨e, ⟨⟨ts, hts, hidx, hsyms⟩, ⟨e', he', hlast⟩⟩, hcount⟩ :=
    mergeLoop_forest (fuel := (leafNodes w).length) (leafForest n hne) (by omega) hq (by omega)
  cases List.mem_singleton.1 he'
  obtain ⟨t, _, ht, hnil, rfl⟩ := List.forall₂_cons_left_iff.1 hts
  cases hnil
  change e.2 + 1 = (builtNodes w).length at hlast
  rw [← Nat.eq_sub_of_add_eq hlast]
  exact ⟨t.1, t.2, ht, by simpa [builtNodes] using hidx, by simpa using hsyms, by rw [builtNodes, hcount]; omega⟩

/-- The state BUILD leaves when the EOS weight is not 0 (R162). -/
def builtState (s : State) : State :=
  { s with
    nodes := storeNodes (builtNodes s.w) s.nodes
    nodecnt := BitVec.ofNat 10 (builtNodes s.w).length
    root := BitVec.ofNat 10 ((builtNodes s.w).length - 1)
    leafcnt := BitVec.ofNat 9 (leafNodes s.w).length
    treeValid := true
    tableValid := false
    decActive := false
    decDone := false }

theorem execBuild_eq {s : State} (he : s.err = false) (hw : weight s.w 256 ≠ 0#32) :
    execBuild s = completeWith (BitVec.ofNat 32 ((builtNodes s.w).length - 1)) (builtState s) := by
  rw [execBuild, command_runs he rfl, require_holds (by simpa [Config.eos] using hw)]
  rfl

/-- The registers describe the tree BUILD has made (R37). -/
theorem builtState_describesTree {s : State} (hw : weight s.w 256 ≠ 0#32) (v : Word) :
    ∃ T, DescribesTree (complete { builtState s with result := v }) T ∧
      T.leaves.Perm ((presentSymbols s.w).map (BitVec.ofNat 9)) := by
  have hne : presentSymbols s.w ≠ [] := List.ne_nil_of_mem (mem_presentSymbols.2 ⟨Nat.le_refl 256, hw⟩)
  have hle := presentSymbols_length_le s.w
  obtain ⟨T, is, hs, hp, hl, hlen⟩ := builtNodes_tree s.nodes hne
  have hcnt : (BitVec.ofNat 10 (builtNodes s.w).length).toNat = (builtNodes s.w).length := by
    rw [BitVec.toNat_ofNat]
    omega
  refine ⟨T, ⟨is, hs, ?_, ?_, fun sym hsym => ?_⟩, hl⟩
  · simpa only [complete_nodecnt, builtState, hcnt] using hp
  · simp only [complete_leafcnt, builtState, BitVec.toNat_ofNat, hl.length_eq, leafNodes, List.length_map]
    omega
  · obtain ⟨k, hk, rfl⟩ := List.mem_map.1 (hl.mem_iff.1 hsym)
    have := (mem_presentSymbols.1 hk).1
    rw [BitVec.toNat_ofNat]
    omega

/-- Settles O25: the forest of BUILD's queue ends as one tree. -/
theorem buildMakesATree : Obligations.BuildMakesATree := by
  intro s he hw
  obtain ⟨T, hT, hl⟩ := builtState_describesTree (s := s) hw _
  exact ⟨_, T, execBuild_eq he hw, rfl, hT, hl⟩

end Sys2Proof.Machine

namespace Sys2Proof.Machine

/-! ## Every step keeps the invariants, and none leaves the tree (R37, R39, R40, R47, R71) -/

section Kept

variable {s : State}

/-- BUILD leaves a tree, no valid table and an unarmed decoder (R165). -/
theorem execBuild_kept (hk : Kept s) : Meets False Kept (execBuild s) := by
  have failed : ∀ op code, Kept (errorState op code s) := fun op code =>
    ⟨hk.tree, hk.table, fun _ h => by simp at h, by simp⟩
  refine command_meets (fun he => ⟨hk.tree, hk.table, fun _ h => by simp [he] at h, by simp⟩) (fun _ => failed _ _)
    fun _ _ => require_meets (fun _ => failed _ _) fun hw => meets_next.2 ?_
  have hw : weight s.w 256 ≠ 0#32 := by simpa [Config.eos] using hw
  obtain ⟨T, hT, -⟩ := builtState_describesTree (s := s) hw (BitVec.ofNat 32 ((builtNodes s.w).length - 1))
  exact ⟨fun _ => ⟨T, hT⟩, fun h => by simp at h, fun h => by simp at h, by simp⟩

/-- DES starts without a tree, a table or an armed decoder (R185). -/
theorem execDes_kept (hk : Kept s) : Meets False Kept (execDes s) :=
  command_meets (fun he => ⟨hk.tree, hk.table, fun _ h => by simp [he] at h, by simp⟩)
    (fun _ => ⟨hk.tree, hk.table, fun _ h => by simp at h, by simp⟩)
    fun _ _ => desTake_kept (s := desClear s) rfl rfl rfl (feed_nil _)

/-- A command that writes neither the tree, the table nor the decoder keeps the invariants, if it leaves `Q` and `Q` is enough
for what it is held with. -/
theorem exec_kept_of_frame {i : Instr} {Q : State → Prop} (hi : i ≠ .reset) (hk : Kept s) (hj : s.job = none)
    (he : (effects i).tree = false ∧ (effects i).table = false ∧ (effects i).decoder = false)
    (hq : Meets False Q (exec i s))
    (held : ∀ t j, Q t → t.job = some j → (effects i).held = some j.kind → HeldWork t j) : Meets False Kept (exec i s) := by
  obtain ⟨ht, hc, hd⟩ := he
  exact ((exec_ends hi).and hq).mono id fun t ⟨h, hqt⟩ =>
    hk.of_ends h (.inl (by simp [hj])) ht (by simp [hc]) (by simp [hd]) fun j hjt => held t j hqt hjt

/-- Such a command that does not read the node store either is held with no condition. -/
theorem exec_kept_of_noRead {i : Instr} (hi : i ≠ .reset) (hk : Kept s) (hj : s.job = none)
    (he : (effects i).tree = false ∧ (effects i).table = false ∧ (effects i).decoder = false)
    (hr : (effects i).readsNodes = false) : Meets False Kept (exec i s) := by
  refine exec_kept_of_frame (Q := fun _ => True) hi hk hj he
    ((exec_ends hi).mono (by simp [hr]) fun _ _ => trivial) fun t j _ _ hheld => heldWork_of_kind ?_
  cases i <;> simp_all [effects]

theorem exec_kept_of_inspect {i : Instr} {op : Opcode} {x : NodeIdx} {value : Node → Word} (hi : i ≠ .reset) (hk : Kept s)
    (hj : s.job = none) (he : (effects i).tree = false ∧ (effects i).table = false ∧ (effects i).decoder = false)
    (hno : (effects i).held = none)
    (hexec : exec i s = command i (inspectNode op x fun nd s => completeWith (value nd) s) s) :
    Meets False Kept (exec i s) := by
  refine exec_kept_of_frame (Q := fun _ => True) hi hk hj he ?_ fun t j _ _ hheld => by simp [hno] at hheld
  rw [hexec]
  exact command_meets (fun _ => trivial) (fun _ => trivial) fun _ _ => inspectNode_notBroken hk

/-- Every command but RESET keeps the invariants and meets no broken tree. -/
theorem exec_kept {i : Instr} (hi : i ≠ .reset) (hf : TreeFlags s) (hk : Kept s) (hj : s.job = none) :
    Meets False Kept (exec i s) := by
  have ends : Meets ((effects i).readsNodes = true) (Ends (effects i) True s) (exec i s) := exec_ends hi
  have hj' : s.job ≠ some .dsym := by simp [hj]
  cases i with
  | reset => exact absurd rfl hi
  | build => exact execBuild_kept hk
  | des => exact execDes_kept hk
  | ser =>
    exact exec_kept_of_frame hi hk hj ⟨rfl, rfl, rfl⟩ (execSer_heldWork hk) fun t j hq hjt _ => hq j hjt
  | flat =>
    refine (ends.and (execFlat_tableInvariant hk)).mono id fun t ⟨h, ht⟩ => ?_
    exact hk.of_ends h (.inl hj') rfl (fun _ => ht) (fun hd => by cases hd) fun j _ hheld => by cases hheld
  | dstart =>
    refine (ends.and (execDstart_cursorInvariant hk)).mono id fun t ⟨h, ht⟩ => ?_
    exact hk.of_ends h (.inl hj') rfl (fun hc => by cases hc) (fun _ => ht) fun j _ hheld => by cases hheld
  | dsym =>
    refine (ends.and (execDsym_kept hf hk hj)).mono id fun t ⟨h, hcur, hheld⟩ => ?_
    exact hk.of_ends h (.inl hj') rfl (fun hc => by cases hc) (fun _ => hcur) fun j hjt _ => hheld j hjt
  | nget x => exact exec_kept_of_inspect hi hk hj ⟨rfl, rfl, rfl⟩ rfl rfl
  | nwlo x => exact exec_kept_of_inspect hi hk hj ⟨rfl, rfl, rfl⟩ rfl rfl
  | nwhi x => exact exec_kept_of_inspect hi hk hj ⟨rfl, rfl, rfl⟩ rfl rfl
  | _ => exact exec_kept_of_noRead hi hk hj ⟨rfl, rfl, rfl⟩ rfl

/-- Every held command that goes on keeps the invariants and meets no broken tree. -/
theorem resume_kept {j : Job} (hf : TreeFlags s) (hk : Kept s) (hj : s.job = some j) (ha : JobAllowed s j) :
    Meets False Kept (resume j s) := by
  have ends : Meets ((jobEffects j).readsNodes = true) (Ends (jobEffects j) (s.err = false ∧ JobAllowed s j) s)
    (resume j s) := resume_ends j
  have hw : HeldWork s j := hk.held j hj
  cases j with
  | ser rest stack count =>
    refine (ends.and (resumeSer_heldWork hw)).mono id fun t ⟨h, ht⟩ => ?_
    exact hk.of_ends h (.inl (by simp [hj])) rfl (fun hc => by cases hc) (fun hd => by cases hd) fun j hjt _ => ht j hjt
  | des p start =>
    obtain ⟨-, before, nodes, hfeed⟩ := hw
    have hv : s.treeValid = false := ha
    have hct : s.tableValid = false := by
      by_contra h
      simp [hf.tableTree (by simpa using h)] at hv
    have hd : s.decActive = false := by
      by_contra h
      simp [hf.armedTree (by simpa using h)] at hv
    exact desTake_kept hv hct hd hfeed
  | dsym =>
    obtain ⟨l, r, hc⟩ := hw
    refine (ends.and (dsymWalk_kept hc)).mono id fun t ⟨h, hcur, hheld⟩ => ?_
    exact hk.of_ends h (.inr rfl) rfl (fun hc => by cases hc) (fun _ => hcur) fun j hjt _ => hheld j hjt
  | _ =>
    refine ends.mono (fun h => by cases h) fun t h => ?_
    refine hk.of_ends h (.inl (by simp [hj])) rfl (fun hc => by cases hc) (fun hd => by cases hd) fun j _ hheld =>
      heldWork_of_kind ?_
    simp_all [jobEffects]

theorem resetBlock_kept (s : State) : Kept (resetBlock s) :=
  ⟨fun h => by simp at h, fun h => by simp at h, fun h => by simp at h, by simp⟩

theorem Kept.begun (hk : Kept s) (hj : s.job = none) : Kept (begun s) :=
  ⟨hk.tree, hk.table, hk.cursor, by simp [hj]⟩

theorem accept_kept {cmd : Word} (hf : TreeFlags s) (hk : Kept s) (hj : s.job = none) :
    Meets False Kept (accept cmd s) := by
  have hb := hk.begun hj
  rcases accept_ends cmd s with h | ⟨i, hi, h⟩ | ⟨t, h, ht⟩
  · rw [h]
    exact meets_next.2 (resetBlock_kept _)
  · rw [h]
    exact exec_kept hi ⟨hf.1, hf.2, hf.3, hf.4⟩ hb hj
  · rw [h]
    exact meets_next.2 (hb.of_ends ht (.inl (by simp [hj])) rfl (fun hc => by cases hc) (fun hd => by cases hd)
      fun j _ hheld => by cases hheld)

theorem Kept.outsideOnly {u : State} (hk : Kept s) (hu : OutsideOnly s u) : Kept u := by
  obtain ⟨_, _, _, _, _, _, rfl⟩ := hu
  refine ⟨hk.tree, hk.table, hk.cursor, fun j hj => ?_⟩
  have hw := hk.held j hj
  cases j <;> exact hw

theorem step_kept (h : Invariant s) : Meets False Kept (step s) := by
  have hk : Kept s := ⟨h.tree, h.table, h.cursor, h.held⟩
  refine step_meets h.flags.busy (fun j hj => ?_) (fun u cmd hu hj => ?_) (fun u hu => hk.outsideOnly hu)
    fun u _ => resetBlock_kept u
  · exact resume_kept h.flags.treeFlags hk hj (h.flags.job j hj)
  · refine accept_kept (h.flags.outsideOnly hu).treeFlags (hk.outsideOnly hu) ?_
    obtain ⟨_, _, _, _, _, _, rfl⟩ := hu
    exact hj

end Kept

/-- Settles O59: O58's argument for the flags, and `step_kept` for the rest. -/
theorem stepKeepsTheInvariant : Obligations.StepKeepsTheInvariant := by
  intro s t h ht
  obtain ⟨tree, table, cursor, held⟩ := (step_kept h).1 t ht
  exact ⟨(step_flagInvariant h.flags).1 t ht, tree, table, cursor, held⟩

/-- Settles O60: the invariants exclude the fault of every traversal. -/
theorem noStepLeavesTheTree : Obligations.NoStepLeavesTheTree :=
  fun _ h => (step_kept h).notBroken

/-- Settles O57: without a tree, a table, an armed decoder or a held command nothing is asked of the other registers. -/
theorem resetStateIsInvariant : Obligations.ResetStateIsInvariant where
  flags := { resetBlock_flagInvariant State.reset with job := by simp [State.reset] }
  tree h := by simp [State.reset] at h
  table h := by simp [State.reset] at h
  cursor h := by simp [State.reset] at h
  held := by simp [State.reset]

end Sys2Proof.Machine

namespace Sys2Proof.Machine

/-! ## Holds on the input port (R43, R84, R185, R243, R245) -/

/-- GETB's field is not complete before its last bit (R245). -/
theorem feed_rawBit_dry {missing value : Nat} {bits : Bits} (h : bits.length < missing) :
    ∃ st, feed rawBit (missing, value) bits = .dry st := by
  induction bits generalizing missing value with
  | nil => exact ⟨_, rfl⟩
  | cons b bits ih =>
    rw [List.length_cons] at h
    obtain ⟨st, hst⟩ := ih (missing := missing - 1) (value := pushBit value b) (by omega)
    refine ⟨st, ?_⟩
    simpa only [feed, rawBit, if_neg (show ¬missing ≤ 1 by omega)] using hst

section

variable {s : State}

theorem execGetb_held {n : BitVec 5} (he : s.err = false) (hio : s.inp.ioErr = false) (hend : s.inp.ended = false)
    (hw : (Instr.getb n).wellFormed = true) (hlen : s.inp.bits.length < n.toNat) :
    ∃ j, execGetb n s = .next (heldState j (taken s.inp.bits.length [] s)) ∧ j.takesInput = true := by
  obtain ⟨st, hst⟩ := feed_rawBit_dry (value := 0) hlen
  refine ⟨.getb st.1 st.2, ?_, rfl⟩
  rw [execGetb, command_runs he hw, getbTake, takeBits_empty hio hend hst]
  rfl

theorem execDes_held {p : Parse} {nodes : NodeStore} (he : s.err = false) (hio : s.inp.ioErr = false)
    (hend : s.inp.ended = false) (hf : feed parseBit (Parse.start, s.nodes) s.inp.bits = .dry (p, nodes)) :
    ∃ j, execDes s = .next (heldState j { desClear (taken s.inp.bits.length [] s) with nodes := nodes }) ∧
      j.takesInput = true := by
  refine ⟨.des p s.incnt, ?_, rfl⟩
  have htake : takeBits parseBit (Parse.start, (desClear s).nodes) (desClear s) =
      .empty (p, nodes) (taken s.inp.bits.length [] (desClear s)) := takeBits_empty (s := desClear s) hio hend hf
  rw [execDes, command_runs he rfl, desTake, htake]
  rfl

theorem execDsym_held {T : Tree} (he : s.err = false) (hio : s.inp.ioErr = false) (hend : s.inp.ended = false)
    (ha : s.decActive = true) (hT : HoldsTree s.nodes s.cursor T) (hno : ∀ c ∈ T.codes, ¬c.2 <+: s.inp.bits) :
    ∃ j c T', execDsym s = .next (heldState j { taken s.inp.bits.length [] s with cursor := c }) ∧ j.takesInput = true ∧
      HoldsTree s.nodes c T' ∧ ∀ sym rest, (sym, rest) ∈ T'.codes ↔ (sym, s.inp.bits ++ rest) ∈ T.codes := by
  cases T with
  | leaf sym => exact absurd ⟨s.inp.bits, rfl⟩ (hno (sym, []) (by simp [Tree.codes]))
  | node tl tr =>
    rcases feed_walkBit hT s.inp.bits with ⟨sym, used, rest, hb, hmem, -⟩ | ⟨c, l, r, hf, hc, hcodes⟩
    · exact absurd ⟨rest, hb.symm⟩ (hno _ hmem)
    · refine ⟨.dsym, c, .node l r, ?_, rfl, hc, hcodes⟩
      obtain ⟨a, b, wt, hnode, -, -⟩ := holdsTree_node.1 hT
      rw [execDsym, command_runs he rfl, require_holds ha, dsymWalk, withNode_some hnode]
      simp only [takeBits_empty hio hend hf]
      rfl

/-! ## Holds on the output port (R43, R82, R84) -/

variable {r : Nat} {op : Opcode} {bits : Bits} {held : Bits → Job} {next : State → Result}

/-- A port with too little room takes what fits and holds the command with the rest (R82). -/
theorem emit_full (hio : s.out.ioErr = false) (hr : s.out.room = some r) (hlt : r < bits.length)
    (onOutput : ∀ rest, (held rest).takesInput = false) :
    emit op bits held next s = .next (heldState (held (bits.drop r)) (accepted (bits.take r) s)) := by
  have hk : accepts s.out bits.length = r := by
    simp [accepts, hio, hr, Nat.min_eq_left (Nat.le_of_lt hlt)]
  have hdrop : bits.drop r = bits[r] :: bits.drop (r + 1) := List.drop_eq_getElem_cons hlt
  have hgive : giveBits bits s = .full (bits.drop r) (accepted (bits.take r) s) := by
    simp only [giveBits, hk, hdrop, hio, Bool.false_eq_true, if_false]
  rw [emit, hgive]
  exact holdOut_eq (onOutput _)

/-- The port flush is held exactly where the port takes no bit (R83; log 12). -/
theorem flushPort_full {j : Job} (hio : s.out.ioErr = false) (hr : s.out.room = some 0) (onOutput : j.takesInput = false) :
    flushPort op j next s = .next (heldState j s) := by
  rw [flushPort, hio, hr]
  exact holdOut_eq onOutput

/-- If what follows is held once the bits are given, giving them first is held with all that fits. -/
theorem emit_append_held {rest : Bits} (hio : s.out.ioErr = false) (hr : s.out.room = some r)
    (onOutput : ∀ rest, (held rest).takesInput = false)
    (go : bits.length ≤ r → ∃ j, next (accepted bits s) =
      .next (heldState j (accepted (rest.take (r - bits.length)) (accepted bits s))) ∧ j.takesInput = false) :
    ∃ j, emit op bits held next s = .next (heldState j (accepted ((bits ++ rest).take r) s)) ∧ j.takesInput = false := by
  by_cases hlt : r < bits.length
  · refine ⟨_, ?_, onOutput (bits.drop r)⟩
    rw [emit_full hio hr hlt onOutput, List.take_append_of_le_length (by omega)]
  · obtain ⟨j, hj, hout⟩ := go (by omega)
    refine ⟨j, ?_, hout⟩
    rw [emit_all hio (fun r' hr' => by rw [hr] at hr'; cases hr'; omega), hj, accepted_accepted,
      List.take_append, List.take_of_length_le (l := bits) (by omega)]

/-- SER on a port with too little room for the trees on its stack (R181). -/
theorem serVisit_held {fuel : Nat} {stack : List NodeIdx} {ts : List Tree} {count : Nat}
    (hts : List.Forall₂ (HoldsTree s.nodes) stack ts) (hfuel : (ts.map Tree.size).sum ≤ fuel)
    (hio : s.out.ioErr = false) (hr : s.out.room = some r) (hlt : r < (ts.flatMap Tree.header).length) :
    ∃ j, serVisit fuel stack count s = .next (heldState j (accepted ((ts.flatMap Tree.header).take r) s)) ∧
      j.takesInput = false := by
  induction fuel generalizing stack ts count s r with
  | zero =>
    cases hts with
    | nil => simp at hlt
    | @cons i t stack ts ht hts =>
      have := t.size_pos
      simp only [List.map_cons, List.sum_cons] at hfuel
      omega
  | succ fuel ih =>
    cases hts with
    | nil => simp at hlt
    | @cons i t stack ts ht hts =>
      simp only [List.map_cons, List.sum_cons] at hfuel
      -- A visit gives the node's bits, then the headers of the trees it leaves on the stack.
      have visit : ∀ bits stack' (ts' : List Tree) count', List.Forall₂ (HoldsTree s.nodes) stack' ts' →
          (ts'.map Tree.size).sum ≤ fuel → (t :: ts).flatMap Tree.header = bits ++ ts'.flatMap Tree.header →
          ∃ j, emit Instr.ser.opcode bits (fun rest => .ser rest stack' count') (serVisit fuel stack' count') s =
            .next (heldState j (accepted (((t :: ts).flatMap Tree.header).take r) s)) ∧ j.takesInput = false := by
        intro bits stack' ts' count' hts' hle hhdr
        rw [hhdr] at hlt ⊢
        refine emit_append_held hio hr (fun _ => rfl) fun hge => ?_
        rw [List.length_append] at hlt
        exact ih (s := accepted bits s) hts' hle hio (by simp [hr]) (by omega)
      cases t with
      | leaf sym =>
        obtain ⟨wt, hnode⟩ := holdsTree_leaf.1 ht
        simp only [serVisit, hnode]
        exact visit _ _ ts _ hts (by simp only [Tree.size] at hfuel; omega) (by simp [Tree.header])
      | node tl tr =>
        obtain ⟨l, r, wt, hnode, hl, hr⟩ := holdsTree_node.1 ht
        simp only [serVisit, hnode]
        exact visit _ _ (tl :: tr :: ts) _ (.cons hl (.cons hr hts))
          (by simp only [Tree.size] at hfuel; simp only [List.map_cons, List.sum_cons]; omega) (by simp [Tree.header])

theorem execSer_held {T : Tree} (he : s.err = false) (hio : s.out.ioErr = false) (hr : s.out.room = some r)
    (hv : s.treeValid = true) (hT : HoldsTree s.nodes s.root T) (hsize : T.size ≤ 513) (hlt : r < T.header.length) :
    ∃ j, execSer s = .next (heldState j (accepted (T.header.take r) s)) ∧ j.takesInput = false := by
  rw [execSer, command_runs he rfl, require_holds hv]
  have := serVisit_held (fuel := Config.nodeCap) (count := 0) (.cons hT .nil) (by simpa [Config.nodeCap] using hsize) hio hr
    (by simpa using hlt)
  simpa using this

theorem padCount_spec (n : Word) : padCount n < 8 ∧ (n.toNat + padCount n) % 8 = 0 := by
  simp only [padCount, Config.padGranule]
  omega

/-- FLUSH is held in its pad, or with its pad given at the port flush (R226; log 12). -/
theorem execFlush_held (he : s.err = false) (hio : s.out.ioErr = false) (hr : s.out.room = some r)
    (hle : r ≤ padCount s.outcnt) :
    ∃ j, execFlush s = .next (heldState j (accepted (List.replicate r false) s)) ∧ j.takesInput = false := by
  rw [execFlush, command_runs he rfl]
  have := emit_append_held (op := Instr.flush.opcode) (bits := List.replicate (padCount s.outcnt) false) (rest := [])
    (held := fun rest => .flush rest (padCount s.outcnt))
    (next := flushPort Instr.flush.opcode (.flush [] (padCount s.outcnt))
      (completeWith (BitVec.ofNat 32 (padCount s.outcnt)))) hio hr (fun _ => rfl) fun hge => by
    rw [List.length_replicate] at hge
    refine ⟨.flush [] (padCount s.outcnt), ?_, rfl⟩
    have hroom : (accepted (List.replicate (padCount s.outcnt) false) s).out.room = some 0 := by
      simp [hr]
      omega
    rw [flushPort_full (s := accepted _ s) hio hroom rfl, List.take_nil, accepted_nil]
  simpa [flushGive, Nat.min_eq_left hle] using this

theorem execPutb_held {n : BitVec 5} {v : BitVec 16} (he : s.err = false) (hio : s.out.ioErr = false)
    (hr : s.out.room = some r) (hw : (Instr.putb n v).wellFormed = true) (hlt : r < n.toNat) :
    ∃ j, execPutb n v s = .next (heldState j (accepted ((msbBits n.toNat v.toNat).take r) s)) ∧ j.takesInput = false := by
  refine ⟨.putb ((msbBits n.toNat v.toNat).drop r), ?_, rfl⟩
  rw [execPutb, command_runs he hw, putbGive, emit_full hio hr (by simpa using hlt) fun _ => rfl]

theorem execEnc_held {sym : Sym} (he : s.err = false) (hio : s.out.ioErr = false) (hr : s.out.room = some r)
    (hs : sym.toNat ≤ 256) (ht : s.tableValid = true) (hc : (codeEntry s.ct sym).valid = true)
    (hlt : r < (entryCode (codeEntry s.ct sym)).length) :
    ∃ j, execEnc sym s = .next (heldState j (accepted ((entryCode (codeEntry s.ct sym)).take r) s)) ∧
      j.takesInput = false := by
  have hw : (Instr.enc sym).wellFormed = true := by simpa [Instr.wellFormed, symbolOk] using hs
  refine ⟨.enc ((entryCode (codeEntry s.ct sym)).drop r) (codeEntry s.ct sym).len, ?_, rfl⟩
  rw [execEnc, command_runs he hw, requireCode, require_holds ht, require_holds hc, encGive,
    emit_full hio hr hlt fun _ => rfl]

end

/-- `heldState` with the flags written out: the hold is on the input port. -/
theorem heldOnInput {res : Result} {u : State} (h : ∃ j, res = .next (heldState j u) ∧ j.takesInput = true) :
    ∃ j, res = .next { u with busy := true, heldIn := true, heldOut := false, job := some j } ∧
      j.takesInput = true := by
  obtain ⟨j, rfl, hj⟩ := h
  exact ⟨j, by simp [heldState, hj], hj⟩

/-- The hold is on the output port. -/
theorem heldOnOutput {res : Result} {u : State} (h : ∃ j, res = .next (heldState j u) ∧ j.takesInput = false) :
    ∃ j, res = .next { u with busy := true, heldIn := false, heldOut := true, job := some j } ∧
      j.takesInput = false := by
  obtain ⟨j, rfl, hj⟩ := h
  exact ⟨j, by simp [heldState, hj], hj⟩

/-- Settles O49: an input command's reader runs dry on the bits there are; an output command's `emit` gives what fits. -/
theorem emptyAndFullPortsHold : Obligations.EmptyAndFullPortsHold := by
  intro s he
  refine ⟨fun hio hend => ⟨fun n hw hlen => ?_, fun p nodes hf => ?_, fun T ha hT hno => ?_⟩, fun r hio hr =>
    ⟨fun n v hw hlt => ?_, fun T hv hT hsize hlt => ?_, fun sym hs ht hc hlt => ?_, padCount s.outcnt,
      (padCount_spec _).1, (padCount_spec _).2, fun hle => ?_⟩⟩
  · exact heldOnInput (execGetb_held he hio hend hw hlen)
  · exact heldOnInput (execDes_held he hio hend hf)
  · obtain ⟨j, c, T', hj, hin, hT', hcodes⟩ := execDsym_held he hio hend ha hT hno
    obtain ⟨j', hj', hin'⟩ := heldOnInput ⟨j, hj, hin⟩
    exact ⟨j', c, T', hj', hin', hT', hcodes⟩
  · exact heldOnOutput (execPutb_held he hio hr hw hlt)
  · exact heldOnOutput (execSer_held he hio hr hv hT hsize hlt)
  · exact heldOnOutput (execEnc_held he hio hr hs ht hc hlt)
  · exact heldOnOutput (execFlush_held he hio hr hle)

end Sys2Proof.Machine

/-! ## Whose turn a step is, and the host's register accesses (R77, R84, R85, R86, R87, R88) -/

namespace Sys2Proof.Machine

section

variable {s t : State} {w : Word}

theorem step_stalled {rest : List Word} (hj : s.job = none) (hs : s.stalled = w :: rest) :
    step s = accept w { s with stalled := rest } := by
  simp [step, advance, hj, hs]

theorem step_idle (hj : s.job = none) (hs : s.stalled = []) : step s = hostTurn s := by
  simp [step, advance, hj, hs]

theorem step_held {j : Job} (hj : s.job = some j) : step s = if stillHeld j s then hostTurn s else resume j s := by
  simp [step, advance, hj]

theorem hostTurn_move {m : HostMove} {ms : List HostMove} (h : s.moves = m :: ms) :
    hostTurn s = hostMove m { s with moves := ms } := by
  simp [hostTurn, h]

theorem hostTurn_end (h : s.moves = []) : hostTurn s = .fault (if s.job.isSome then .heldForever else .idle) := by
  simp [hostTurn, h]

/-- A CMD write hands its word over while BUSY = 0, and waits while BUSY = 1 (R86). -/
theorem hostMove_writeCmd (w : Word) (s : State) : hostMove (.write (.offset 0) 32 w) s =
    if s.busy then .next { s with stalled := s.stalled ++ [w] } else accept w s := by
  simp [hostMove, access_offset, writeRegister]

theorem access_refused {o width : Nat} (ho : o < 64) (h : width ≠ 32 ∨ o % 4 ≠ 0) (body : Nat → Result) :
    access (.offset o) width body = .refused .badAccess := by
  simp only [access, windowOffset, ho, if_true]
  exact if_neg (by omega)

/-- A step that accepts a word executes the command it decodes to, with BUSY = 1 (R86). -/
theorem executes_of_accepts (h : step s = accept w t) :
    step s = accept w t ∧ ∀ i, decode w = .ok i → step s = exec i (begun t) :=
  ⟨h, fun i hi => by rw [h, accept, hi]⟩

end

/-- Settles O5: the cases of `advance`, and a CMD write met while HTB is idle is accepted. -/
theorem stepRunsTheDecodedCommand : Obligations.StepRunsTheDecodedCommand := by
  intro s
  refine ⟨fun w => ⟨fun rest hj hs => ?_, fun ms hj hs hb hm => ?_, fun t ht => ?_⟩,
    fun hj hs => ⟨fun m ms hm => ?_, fun hm => ?_⟩,
    fun j hj => ⟨fun hh => ?_, fun hh => ⟨fun m ms hm => ?_, fun hm => ?_⟩⟩⟩
  · exact executes_of_accepts (step_stalled hj hs)
  · refine executes_of_accepts ?_
    rw [step_idle hj hs, hostTurn_move hm, hostMove_writeCmd, if_neg (by simp [hb])]
  · refine executes_of_accepts ?_
    have hw : BitVec.ofNat 32 (w.toNat % 2 ^ 32) = w := by
      rw [Nat.mod_eq_of_lt w.isLt, BitVec.ofNat_toNat, BitVec.setWidth_eq]
    subst ht
    rw [State.withFetchWord, hw, step_idle (by rfl) (by rfl), hostTurn_move (by rfl), hostMove_writeCmd]
    rfl
  · rw [step_idle hj hs, hostTurn_move hm]
  · rw [step_idle hj hs, hostTurn_end hm, hj]
    rfl
  · rw [step_held hj, if_neg (by simp [hh])]
  · rw [step_held hj, if_pos hh, hostTurn_move hm]
  · rw [step_held hj, if_pos hh, hostTurn_end hm, hj]
    rfl

/-- A register read writes the host's side only; the registers of R88 alone are not exact while BUSY = 1. -/
theorem readRegister_exact (o : Nat) (s : State) : ∃ v d, readRegister o s = .next { s with rdata := v, draws := d } ∧
    (s.busy = false ∨ vagueWhileBusy o = false → v = registerValue s o) := by
  unfold readRegister
  split
  · next h => exact ⟨_, _, rfl, fun hn => by simp_all⟩
  · exact ⟨_, s.draws, rfl, fun _ => rfl⟩

/-- Settles O14: STATUS is none of the registers of R88. -/
theorem readsAreExactAndBadAccessesRefused : Obligations.ReadsAreExactAndBadAccessesRefused := by
  intro s o ho
  refine ⟨fun ha => ?_, fun width d h => ⟨access_refused ho h _, access_refused ho h _⟩⟩
  obtain ⟨v, d, hr, hv⟩ := readRegister_exact o s
  refine ⟨v, d, by rw [hostMove, access_offset ho ha, hr], fun h => hv (h.imp_right ?_)⟩
  rintro rfl
  rfl

/-- Settles O15: the write that `hostMove_writeCmd` meets with BUSY = 1. -/
theorem cmdWriteIsStalledWhileBusy : Obligations.CmdWriteIsStalledWhileBusy := by
  intro s w hb
  rw [hostMove_writeCmd, if_pos hb]

end Sys2Proof.Machine

/-! ## Port errors, FLUSH and GETB (R80, R81, R82, R226, R245, R300) -/

namespace Sys2Proof.Machine

section

variable {s : State} {op : Opcode} {bits : Bits} {held : Bits → Job} {next : State → Result}

/-- A pending I/O error is met before the first bit (R82; log 10). -/
theorem emit_failed (hio : s.out.ioErr = true) (hne : bits ≠ []) :
    emit op bits held next s = .next (errorState op .ioError (outputErrorTaken s)) := by
  obtain ⟨b, bs, rfl⟩ := List.exists_cons_of_ne_nil hne
  simp [emit, giveBits, accepts, hio, accepted_nil, raiseError]

/-- Without bits to give, a command goes on whatever the port would answer. -/
theorem emit_nil : emit op [] held next s = next s := by
  simp [emit, giveBits, accepted_nil]

/-- FLUSH meets it in its pad, or, its pad given, at the port flush (R83, R226). -/
theorem flushGive_failed {rest : Bits} {pad : Nat} (hio : s.out.ioErr = true) :
    flushGive rest pad s = .next (errorState Instr.flush.opcode .ioError (outputErrorTaken s)) := by
  by_cases hr : rest = []
  · rw [flushGive, hr, emit_nil, flushPort, if_pos hio, raiseError_eq]
  · exact emit_failed hio hr

theorem serVisit_failed {fuel count : Nat} {i : NodeIdx} {stack : List NodeIdx} {nd : Node} (hio : s.out.ioErr = true)
    (hnd : nodeAt s.nodes i = some nd) : serVisit (fuel + 1) (i :: stack) count s =
      .next (errorState Instr.ser.opcode .ioError (outputErrorTaken s)) := by
  cases nd with
  | leaf sym wt =>
    simp only [serVisit, hnd]
    exact emit_failed hio (by simp)
  | internal l r wt =>
    simp only [serVisit, hnd]
    exact emit_failed hio (by simp)

theorem entryCode_ne_nil {e : CodeEntry} (h : e.len ≠ 0#9) : entryCode e ≠ [] := by
  have hlen : e.len.toNat ≠ 0 := fun h0 => h (BitVec.eq_of_toNat_eq h0)
  rw [← List.length_pos_iff, entryCode, List.length_take, Vector.length_toList]
  omega

theorem putb_bits_ne_nil {n : BitVec 5} {v : BitVec 16} (hw : (Instr.putb n v).wellFormed = true) :
    msbBits n.toNat v.toNat ≠ [] := by
  simp only [Instr.wellFormed, bitCountOk, Bool.and_eq_true, decide_eq_true_eq] at hw
  rw [← List.length_pos_iff, msbBits_length]
  omega

/-- DES meets a pending I/O error before any bit (R187). -/
theorem desTake_failed {p : Parse} {start : Word} (hio : s.inp.ioErr = true) : ∃ n d, desTake p start s =
    .next (errorState Instr.des.opcode .ioError { s with inp := { s.inp with ioErr := false }, nodes := n, draws := d }) := by
  rw [desTake, takeBits_failed hio]
  exact ⟨_, _, rfl⟩

theorem dsymWalk_of_ended {l r : NodeIdx} {wt : Weight} {c : NodeIdx} {u : State}
    (hnd : nodeAt s.nodes s.cursor = some (.internal l r wt)) (ht : takeBits (walkBit s.nodes) s.cursor s = .ended c u) :
    dsymWalk s = dsymFail .truncPayload u := by
  rw [dsymWalk, withNode_some hnd]
  simp only [ht]

theorem dsymWalk_of_failed {l r : NodeIdx} {wt : Weight} {c : NodeIdx} {u : State}
    (hnd : nodeAt s.nodes s.cursor = some (.internal l r wt)) (ht : takeBits (walkBit s.nodes) s.cursor s = .failed c u) :
    dsymWalk s = dsymFail .ioError u := by
  rw [dsymWalk, withNode_some hnd]
  simp only [ht]

/-- GETB meets a pending I/O error before any bit (R245). -/
theorem getbTake_failed {missing value : Nat} (hio : s.inp.ioErr = true) : getbTake op missing value s =
    .next (errorState op .ioError { s with inp := { s.inp with ioErr := false } }) := by
  rw [getbTake, takeBits_failed hio]
  rfl

end

/-- Settles O48: each command's first transfer meets the error. -/
theorem portErrorsAbort : Obligations.PortErrorsAbort := by
  intro s he
  refine ⟨fun hio => ⟨fun n v hw => ?_, ?_, fun sym hs ht hc hlen => ?_, fun hv ⟨nd, hnd⟩ => ?_⟩,
    fun hio => ⟨fun n hw => ?_, ?_, fun ha ⟨l, r, wt, hnd⟩ => ?_⟩⟩
  · exact (command_runs he hw).trans (emit_failed hio (putb_bits_ne_nil hw))
  · exact (command_runs he rfl).trans (flushGive_failed hio)
  · have hw : (Instr.enc sym).wellFormed = true := by simpa [Instr.wellFormed, symbolOk] using hs
    rw [exec, execEnc, command_runs he hw, requireCode, require_holds ht, require_holds hc, encGive,
      emit_failed hio (entryCode_ne_nil hlen)]
    rfl
  · rw [exec, execSer, command_runs he rfl, require_holds hv]
    exact serVisit_failed hio hnd
  · exact (command_runs he hw).trans (getbTake_failed hio)
  · obtain ⟨n, d, h⟩ := desTake_failed (s := desClear s) (p := Parse.start) (start := s.incnt) hio
    exact ⟨n, d, by rw [exec, execDes, command_runs he rfl, h]; rfl⟩
  · refine ⟨Config.freeCursor s.draws, s.draws + 1, ?_⟩
    rw [exec, execDsym, command_runs he rfl, require_holds ha, dsymWalk_of_failed hnd (takeBits_failed hio)]
    rfl

/-- A port that takes another bit and has no error flushes (R83; log 12). -/
theorem flushPort_flushes {s : State} {op : Opcode} {j : Job} {next : State → Result} (hio : s.out.ioErr = false)
    (hr : s.out.room ≠ some 0) :
    flushPort op j next s = next { s with out := { s.out with flushed := s.out.stream.length } } := by
  rw [flushPort, if_neg (by simp [hio]), if_neg (by simpa using hr)]

/-- Settles O41: the pad is `padCount`, and with more room than it the port flush is not held. -/
theorem flushPadsToAByte : Obligations.FlushPadsToAByte := by
  intro s he hio
  obtain ⟨hlt, hmod⟩ := padCount_spec s.outcnt
  refine ⟨padCount s.outcnt, hlt, hmod, fun hroom => ⟨_, ?_, rfl, ?_⟩⟩
  · have hroom' : (accepted (List.replicate (padCount s.outcnt) false) s).out.room ≠ some 0 := fun h => by
      obtain ⟨r, hr, h0⟩ := Option.map_eq_some_iff.1 h
      have := hroom r hr
      rw [List.length_replicate] at h0
      omega
    rw [exec, execFlush, command_runs he rfl, flushGive,
      emit_all hio (fun r hr => by rw [List.length_replicate]; exact Nat.le_of_lt (hroom r hr)),
      flushPort_flushes (s := accepted _ s) hio hroom']
    simp [completeWith]
  · simp only [complete_outcnt, accepted_outcnt, List.length_replicate, BitVec.toNat_add, BitVec.toNat_ofNat]
    omega

/-! ### GETB's field -/

/-- A field's bits are those of its value, sent MSB-first (R10). -/
theorem msbBits_bitsValue (bs : Bits) : msbBits bs.length (bitsValue bs) = bs := by
  induction bs with
  | nil => rfl
  | cons b bs ih =>
    have hlt := bitsValue_lt bs
    have hlow : msbBits bs.length (bitsValue (b :: bs)) = msbBits bs.length (bitsValue bs) := by
      refine List.map_congr_left fun j hj => ?_
      have := List.mem_range.1 hj
      rw [bitsValue_cons, Nat.mul_comm, Nat.testBit_two_pow_mul_add _ hlt, if_pos (by omega)]
    have hhigh : (bitsValue (b :: bs)).testBit bs.length = b := by
      rw [bitsValue_cons, Nat.mul_comm, Nat.testBit_two_pow_mul_add _ hlt, if_neg (by omega)]
      cases b <;> simp
    rw [List.length_cons, msbBits_succ, hhigh, hlow, ih]

/-- GETB's reader ends with its last bit, which completes the field's value (R81, R245). -/
theorem feed_rawBit_done {field : Bits} (value : Nat) (rest : Bits) (hne : field ≠ []) :
    feed rawBit (field.length, value) (field ++ rest) = .done (field.foldl pushBit value) rest := by
  induction field generalizing value with
  | nil => exact absurd rfl hne
  | cons b bs ih =>
    by_cases hbs : bs = []
    · subst hbs
      rfl
    · have hlen : ¬bs.length + 1 ≤ 1 := by simpa using hbs
      simpa [feed, rawBit, hlen] using ih (pushBit value b) hbs

/-- Settles O45: the reader's value is the field's. -/
theorem getbReadsTheField : Obligations.GetbReadsTheField := by
  intro s n he
  have hw : (Instr.getb n).wellFormed = true ↔ 1 ≤ n.toNat ∧ n.toNat ≤ 16 := by simp [Instr.wellFormed, bitCountOk]
  refine ⟨fun h1 h16 => ⟨fun field rest ⟨hio, hb⟩ hlen => ?_, fun hio hend hlt => ?_⟩, fun hn => ?_⟩
  · have hv : (BitVec.ofNat 32 (bitsValue field)).toNat = bitsValue field :=
      Nat.mod_eq_of_lt ((bitsValue_lt field).trans_le (Nat.pow_le_pow_right (by omega) (by omega)))
    refine ⟨BitVec.ofNat 32 (bitsValue field), ?_, fun j hj => ?_, by rw [hv, ← hlen]; exact bitsValue_lt field⟩
    · have hfeed := feed_rawBit_done 0 rest (List.length_pos_iff.1 (by omega : 0 < field.length))
      rw [exec, execGetb, command_runs he (hw.2 ⟨h1, h16⟩), getbTake, ← hlen, takeBits_done hio hb hfeed]
      rfl
    · rw [BitVec.getLsbD, hv, ← msbBits_getElem? hj, ← hlen, msbBits_bitsValue]
  · obtain ⟨st, hst⟩ := feed_rawBit_dry (value := 0) hlt
    rw [exec, execGetb, command_runs he (hw.2 ⟨h1, h16⟩), getbTake, takeBits_ended hio hend hst]
    rfl
  · exact command_illegal he (by rw [Bool.eq_false_iff, Ne, hw]; omega)

end Sys2Proof.Machine

/-! ## Where a command is held, its port has been used up (R84)

`exec_stops` and `resume_stops` say once, for every command and every held command that goes on, that End stays as the input port
has signalled it, and that a command is held only once it has taken every bit there is, or with bits to give to a port without
an error. What an End, an I/O error, a bit or room then does to the held command is read off the latter. -/

namespace Sys2Proof.Machine

/-- What holds of the port of a held command, and of DSYM's CURSOR. -/
def PortSpent (t : State) : Job → Prop
  | .ser rest _ _ => t.out.ioErr = false ∧ rest ≠ []
  | .des _ _ => t.inp = ⟨[], false, false⟩
  | .enc rest _ => t.out.ioErr = false ∧ rest ≠ []
  | .putb rest => t.out.ioErr = false ∧ rest ≠ []
  | .flush _ _ => t.out.ioErr = false
  | .dsym => t.inp = ⟨[], false, false⟩ ∧ ∃ l r wt, nodeAt t.nodes t.cursor = some (.internal l r wt)
  | .getb _ _ => t.inp = ⟨[], false, false⟩

/-- A command begun at `s` has come to `t`: End is as it was, and a hold is one of a port that is used up. -/
structure Stops (s t : State) : Prop where
  ended : t.inp.ended = s.inp.ended
  spent : ∀ j, t.job = some j → PortSpent t j

section Stops

variable {broken : Prop} {s u : State}

theorem stops_complete (h : u.inp.ended = s.inp.ended) : Stops s (complete u) := ⟨h, by simp⟩

theorem stops_error {op : Opcode} {e : ErrCode} (h : u.inp.ended = s.inp.ended) : Stops s (errorState op e u) := ⟨h, by simp⟩

theorem stops_held {j : Job} (h : u.inp.ended = s.inp.ended) (hj : PortSpent (heldState j u) j) : Stops s (heldState j u) :=
  ⟨h, fun _ h => by cases h; exact hj⟩

theorem command_stops {i : Instr} {body : State → Result} (runs : Meets True (Stops s) (body s)) :
    Meets True (Stops s) (command i body s) :=
  command_meets (fun _ => stops_complete rfl) (fun _ => stops_error rfl) fun _ _ => runs

/-- A command that needs no port completes. -/
theorem command_stops_of_completes {i : Instr} {f : State → State} (hf : (f s).inp = s.inp) :
    Meets True (Stops s) (command i (fun s => .next (complete (f s))) s) :=
  command_stops (meets_next.2 (stops_complete (by rw [hf])))

theorem require_stops {c : Bool} {op : Opcode} {e : ErrCode} {body : State → Result}
    (holds : Meets True (Stops s) (body s)) : Meets True (Stops s) (require c op e body s) :=
  require_meets (fun _ => stops_error rfl) fun _ => holds

theorem inspectNode_stops {op : Opcode} {x : NodeIdx} {value : Node → Word} :
    Meets True (Stops s) (inspectNode op x (fun nd s => completeWith (value nd) s) s) :=
  require_stops <| require_stops <| withNode_meets (fun _ => trivial) fun _ _ => meets_next.2 (stops_complete rfl)

/-- A command is held by `emit` with bits left to give. -/
theorem emit_stops {op : Opcode} {bits : Bits} {held : Bits → Job} {next : State → Result}
    (hu : u.inp.ended = s.inp.ended) (onOutput : ∀ rest, (held rest).takesInput = false)
    (spent : ∀ rest t, rest ≠ [] → t.out.ioErr = false → PortSpent t (held rest))
    (all : Meets True (Stops s) (next (accepted bits u))) : Meets True (Stops s) (emit op bits held next u) := by
  rcases emit_cases op bits held next u with h | ⟨given, b, rest, -, hio, -, h⟩ | ⟨-, -, h⟩
  · rwa [h]
  · rw [h, holdOut_eq (onOutput _)]
    exact meets_next.2 (stops_held hu (spent _ _ (by simp) hio))
  · rw [h]
    exact meets_next.2 (stops_error hu)

theorem serVisit_stops {fuel count : Nat} {stack : List NodeIdx} (hu : u.inp.ended = s.inp.ended) :
    Meets True (Stops s) (serVisit fuel stack count u) := by
  induction fuel generalizing stack count u with
  | zero =>
    cases stack with
    | nil => exact meets_next.2 (stops_complete hu)
    | cons i stack => exact meets_brokenTree.2 trivial
  | succ fuel ih =>
    cases stack with
    | nil => exact meets_next.2 (stops_complete hu)
    | cons i stack =>
      have visit : ∀ bits stack count, Meets True (Stops s)
          (emit Instr.ser.opcode bits (fun rest => .ser rest stack count) (serVisit fuel stack count) u) := fun _ _ _ =>
        emit_stops hu (fun _ => rfl) (fun _ _ hne hio => ⟨hio, hne⟩) (ih hu)
      unfold serVisit
      split
      · exact meets_brokenTree.2 trivial
      · exact visit _ _ _
      · exact visit _ _ _

theorem resumeSer_stops {rest : Bits} {stack : List NodeIdx} {count : Nat} :
    Meets True (Stops s) (resumeSer rest stack count s) :=
  emit_stops rfl (fun _ => rfl) (fun _ _ hne hio => ⟨hio, hne⟩) (serVisit_stops rfl)

theorem encGive_stops {op : Opcode} {rest : Bits} {len : BitVec 9} : Meets True (Stops s) (encGive op rest len s) :=
  emit_stops rfl (fun _ => rfl) (fun _ _ hne hio => ⟨hio, hne⟩) (meets_next.2 (stops_complete rfl))

theorem putbGive_stops {op : Opcode} {rest : Bits} : Meets True (Stops s) (putbGive op rest s) :=
  emit_stops rfl (fun _ => rfl) (fun _ _ hne hio => ⟨hio, hne⟩) (meets_next.2 (stops_complete rfl))

theorem flushPort_stops {op : Opcode} {rest : Bits} {pad : Nat} {v : Word} (hu : u.inp.ended = s.inp.ended) :
    Meets True (Stops s) (flushPort op (.flush rest pad) (completeWith v) u) := by
  unfold flushPort
  split
  · exact meets_next.2 (stops_error hu)
  · next hio =>
    split
    · rw [holdOut_eq (by rfl)]
      exact meets_next.2 (stops_held hu (Bool.eq_false_iff.2 hio))
    · exact meets_next.2 (stops_complete hu)

theorem flushGive_stops {rest : Bits} {pad : Nat} : Meets True (Stops s) (flushGive rest pad s) :=
  emit_stops rfl (fun _ => rfl) (fun _ _ _ hio => hio) (flushPort_stops rfl)

/-- A reader that finds the port Empty has taken all its bits. -/
theorem taken_all_inp (hio : s.inp.ioErr = false) (hend : s.inp.ended = false) :
    (taken s.inp.bits.length [] s).inp = ⟨[], false, false⟩ := by
  simp [taken, hio, hend]

theorem desTake_stops {p : Parse} {start : Word} : Meets True (Stops s) (desTake p start s) := by
  unfold desTake
  rcases takeBits_cases parseBit (p, s.nodes) s with ⟨r, used, rest, -, -, -, -, h⟩ | ⟨st, -, -, -, h⟩ |
    ⟨st, hio, hend, -, h⟩ | ⟨-, h⟩
  · rw [h]
    cases r with
    | tree root n leaves nodes => exact meets_next.2 (stops_complete rfl)
    | nodeOverflow => exact meets_next.2 (stops_error rfl)
    | badSymbol => exact meets_next.2 (stops_error rfl)
  · rw [h]
    exact meets_next.2 (stops_error rfl)
  · rw [h]
    exact meets_next.2 (stops_held (j := .des st.1 start) (u := { taken s.inp.bits.length [] s with nodes := st.2 }) rfl
      (taken_all_inp hio hend))
  · rw [h]
    exact meets_next.2 (stops_error rfl)

/-- A walk that has come to no leaf stands on an internal node (R243). -/
theorem feed_walkBit_internal {n : NodeStore} {c c' : NodeIdx} {bits : Bits}
    (hc : ∃ l r wt, nodeAt n c = some (.internal l r wt)) (h : feed (walkBit n) c bits = .dry c') :
    ∃ l r wt, nodeAt n c' = some (.internal l r wt) := by
  refine feed_dry_invariant (P := fun c => ∃ l r wt, nodeAt n c = some (.internal l r wt)) (fun c b c' ⟨l, r, wt, hc⟩ hb => ?_)
    hc h
  simp only [walkBit, hc] at hb
  split at hb
  · cases hb
  · next hchild => cases hb; exact ⟨_, _, _, hchild⟩
  · cases hb

theorem dsymWalk_stops : Meets True (Stops s) (dsymWalk s) := by
  refine withNode_meets (fun _ => trivial) fun nd hnd => ?_
  cases nd with
  | leaf sym wt => exact meets_next.2 (stops_complete rfl)
  | internal l r wt =>
    dsimp only
    rcases takeBits_cases (walkBit s.nodes) s.cursor s with ⟨res, used, rest, -, -, -, -, h⟩ | ⟨c, -, -, -, h⟩ |
      ⟨c, hio, hend, hf, h⟩ | ⟨-, h⟩
    · rw [h]
      cases res with
      | none => exact meets_brokenTree.2 trivial
      | some sym => exact meets_next.2 (stops_complete rfl)
    · rw [h]
      exact meets_next.2 (stops_error rfl)
    · rw [h]
      exact meets_next.2 (stops_held (j := .dsym) (u := { taken s.inp.bits.length [] s with cursor := c }) rfl
        ⟨taken_all_inp hio hend, feed_walkBit_internal ⟨l, r, wt, hnd⟩ hf⟩)
    · rw [h]
      exact meets_next.2 (stops_error rfl)

theorem getbTake_stops {op : Opcode} {missing value : Nat} : Meets True (Stops s) (getbTake op missing value s) := by
  unfold getbTake
  rcases takeBits_cases rawBit (missing, value) s with ⟨r, used, rest, -, -, -, -, h⟩ | ⟨st, -, -, -, h⟩ |
    ⟨st, hio, hend, -, h⟩ | ⟨-, h⟩
  · rw [h]
    exact meets_next.2 (stops_complete rfl)
  · rw [h]
    exact meets_next.2 (stops_error rfl)
  · rw [h]
    exact meets_next.2 (stops_held (j := .getb st.1 st.2) (u := taken s.inp.bits.length [] s) rfl (taken_all_inp hio hend))
  · rw [h]
    exact meets_next.2 (stops_error rfl)

/-- FLAT, whatever its traversal meets, takes no bit and is not held (R201). -/
theorem execFlat_stops : Meets True (Stops s) (execFlat s) := by
  refine command_stops (require_stops ?_)
  cases flatVisit s.nodes s.draws Config.nodeCap [(s.root, [])] (clearValid s.ct) with
  | table ct => exact meets_next.2 (stops_complete rfl)
  | duplicate => exact meets_next.2 (stops_error rfl)
  | broken => exact meets_brokenTree.2 trivial

theorem execDes_stops : Meets True (Stops s) (execDes s) := by
  refine command_stops ?_
  exact desTake_stops.mono id fun t ht => ⟨ht.ended, ht.spent⟩

theorem exec_stops (i : Instr) (s : State) : Meets True (Stops s) (exec i s) := by
  have completes : ∀ u : State, u.inp.ended = s.inp.ended → Meets True (Stops s) (.next (complete u)) := fun u hu =>
    meets_next.2 (stops_complete hu)
  cases i with
  | nop =>
    show Meets _ _ (execNop s)
    exact command_stops_of_completes rfl
  | reset => exact meets_next.2 ⟨rfl, by simp⟩
  | wclr =>
    show Meets _ _ (execWclr s)
    exact command_stops_of_completes rfl
  | count b => exact command_stops (require_stops (completes _ rfl))
  | cfin =>
    show Meets _ _ (execCfin s)
    exact command_stops_of_completes rfl
  | wset sym =>
    show Meets _ _ (execWset sym s)
    exact command_stops_of_completes rfl
  | wget sym =>
    show Meets _ _ (execWget sym s)
    exact command_stops_of_completes rfl
  | ldal v =>
    show Meets _ _ (execLdal v s)
    exact command_stops_of_completes rfl
  | ldah v =>
    show Meets _ _ (execLdah v s)
    exact command_stops_of_completes rfl
  | build => exact command_stops (require_stops (completes _ rfl))
  | ser => exact command_stops (require_stops (serVisit_stops rfl))
  | des => exact execDes_stops
  | flat => exact execFlat_stops
  | clen sym => exact command_stops (require_stops (require_stops (completes _ rfl)))
  | cword sym k => exact command_stops (require_stops (require_stops (completes _ rfl)))
  | enc sym => exact command_stops (require_stops (require_stops encGive_stops))
  | putb n v => exact command_stops putbGive_stops
  | flush => exact command_stops flushGive_stops
  | dstart =>
    exact command_stops (require_stops (withNode_meets (fun _ => trivial) fun _ _ => require_stops (completes _ rfl)))
  | dsym => exact command_stops (require_stops dsymWalk_stops)
  | getb n => exact command_stops getbTake_stops
  | nget x => exact command_stops inspectNode_stops
  | nwlo x => exact command_stops inspectNode_stops
  | nwhi x => exact command_stops inspectNode_stops

theorem resume_stops (j : Job) (s : State) : Meets True (Stops s) (resume j s) := by
  cases j with
  | ser rest stack count => exact resumeSer_stops
  | des p start => exact desTake_stops
  | enc rest len => exact encGive_stops
  | putb rest => exact putbGive_stops
  | flush rest pad => exact flushGive_stops
  | dsym => exact dsymWalk_stops
  | getb missing value => exact getbTake_stops

/-- A command is held only on a port that is used up. -/
theorem portSpent_of_held {h : State} {j : Job} (hh : (∃ i s, exec i s = .next h) ∨ ∃ j' s, resume j' s = .next h)
    (hj : h.job = some j) : PortSpent h j := by
  rcases hh with ⟨i, s, hh⟩ | ⟨j', s, hh⟩
  · exact ((exec_stops i s).1 h hh).spent j hj
  · exact ((resume_stops j' s).1 h hh).spent j hj

end Stops

end Sys2Proof.Machine

namespace Sys2Proof.Machine

/-! ## What the host's moves leave of the input port (R80, R85) -/

theorem supplied_open {s : State} (bs : Bits) (h : s.inp.ended = false) :
    supplied bs s = { s with inp := { s.inp with bits := s.inp.bits ++ bs } } := by
  simp [supplied, h]

theorem supplied_ended {s : State} (bs : Bits) (h : s.inp.ended = true) : supplied bs s = s := by
  simp [supplied, h]

@[simp] theorem supplied_err (bs : Bits) (s : State) : (supplied bs s).err = s.err := by unfold supplied; split <;> rfl

@[simp] theorem supplied_incnt (bs : Bits) (s : State) : (supplied bs s).incnt = s.incnt := by
  unfold supplied; split <;> rfl

@[simp] theorem supplied_nodes (bs : Bits) (s : State) : (supplied bs s).nodes = s.nodes := by
  unfold supplied; split <;> rfl

@[simp] theorem supplied_cursor (bs : Bits) (s : State) : (supplied bs s).cursor = s.cursor := by
  unfold supplied; split <;> rfl

@[simp] theorem supplied_decActive (bs : Bits) (s : State) : (supplied bs s).decActive = s.decActive := by
  unfold supplied; split <;> rfl

/-- The input port has signalled End at `t`, and its bits are an end of those there were at `s`. -/
def OnlyTaken (s t : State) : Prop := t.inp.ended = true ∧ ∃ used, s.inp.bits = used ++ t.inp.bits

section

variable {s t : State}

theorem onlyTaken_of_inp_eq (he : s.inp.ended = true) (h : t.inp = s.inp) : OnlyTaken s t := by
  rw [OnlyTaken, h]
  exact ⟨he, [], rfl⟩

/-- A command takes bits from the front and End stays (R80). -/
theorem exec_onlyTaken {i : Instr} (he : s.inp.ended = true) (h : exec i s = .next t) : OnlyTaken s t := by
  by_cases hi : i = .reset
  · subst hi
    cases h
    exact onlyTaken_of_inp_eq he rfl
  · obtain ⟨used, hu, -⟩ := (exec_unchanged hi h).used
    exact ⟨((exec_stops i s).1 t h).ended.trans he, used, hu⟩

theorem resume_onlyTaken {j : Job} (he : s.inp.ended = true) (h : resume j s = .next t) : OnlyTaken s t := by
  obtain ⟨used, hu, -⟩ := (resume_unchanged h).used
  exact ⟨((resume_stops j s).1 t h).ended.trans he, used, hu⟩

theorem accept_onlyTaken {cmd : Word} (he : s.inp.ended = true) (h : accept cmd s = .next t) : OnlyTaken s t := by
  unfold accept at h
  split at h
  · exact exec_onlyTaken (s := begun s) he h
  · unfold illegalWord at h
    split at h
    · cases h
      exact onlyTaken_of_inp_eq he rfl
    · cases h
      exact onlyTaken_of_inp_eq he rfl

/-- A legal access does what its body does. -/
theorem access_next {addr : BusAddr} {width : Nat} {body : Nat → Result} (h : access addr width body = .next t) :
    ∃ o, body o = .next t := by
  unfold access at h
  split at h
  · cases h
  · split at h
    · exact ⟨_, h⟩
    · cases h

/-- After End only the port's re-initialisation gives it bits, or takes End back (R80). -/
theorem hostMove_onlyTaken {m : HostMove} (hm : m ≠ .reopenInput) (he : s.inp.ended = true) (h : hostMove m s = .next t) :
    OnlyTaken s t := by
  cases m with
  | write addr width data =>
    obtain ⟨o, ho⟩ := access_next h
    unfold writeRegister at ho
    split at ho
    · split at ho
      · cases ho
        exact onlyTaken_of_inp_eq he rfl
      · exact accept_onlyTaken he ho
    · cases ho
      exact onlyTaken_of_inp_eq he rfl
  | read addr width =>
    obtain ⟨o, ho⟩ := access_next h
    unfold readRegister at ho
    split at ho
    all_goals
      cases ho
      exact onlyTaken_of_inp_eq he rfl
  | supply bs =>
    cases h
    rw [supplied_ended bs he]
    exact onlyTaken_of_inp_eq he rfl
  | signalEnd =>
    cases h
    exact ⟨rfl, [], rfl⟩
  | inputError =>
    cases h
    exact ⟨he, [], rfl⟩
  | reopenInput => exact absurd rfl hm
  | _ =>
    cases h
    exact onlyTaken_of_inp_eq he rfl

end

/-! ## A command held on the input port goes on with the bits supplied (R84, R187) -/

section

variable {s h : State} {j : Job} {more : Bits}

/-- A command that is held has met no check that fails. -/
theorem command_held {i : Instr} {body : State → Result} (hh : command i body s = .next h) (hj : h.job = some j) :
    s.err = false ∧ i.wellFormed = true ∧ body s = .next h := by
  rcases command_cases i body s with ⟨-, hc⟩ | ⟨-, -, hc⟩ | ⟨he, hw, hc⟩
  · rw [hc] at hh
    cases hh
    cases hj
  · rw [hc] at hh
    cases hh
    cases hj
  · exact ⟨he, hw, hc.symm.trans hh⟩

theorem require_held {c : Bool} {op : Opcode} {e : ErrCode} {body : State → Result} (hh : require c op e body s = .next h)
    (hj : h.job = some j) : c = true ∧ body s = .next h := by
  cases hc : c
  · rw [require_fails hc] at hh
    cases hh
    cases hj
  · exact ⟨rfl, (require_holds hc).symm.trans hh⟩

/-! ### Readers -/

/-- The state with the input port and INCNT replaced. -/
def setInput (inp : InPort) (incnt : Word) (s : State) : State := { s with inp := inp, incnt := incnt }

/-- `g` neither reads nor writes the input port and INCNT. -/
def ApartFromInput (g : State → State) : Prop := ∀ inp incnt s, g (setInput inp incnt s) = setInput inp incnt (g s)

/-- The same end of a reader, in another state. -/
def Taken.map {σ ρ : Type} (g : State → State) : Taken σ ρ → Taken σ ρ
  | .done r s => .done r (g s)
  | .empty st s => .empty st (g s)
  | .ended st s => .ended st (g s)
  | .failed st s => .failed st (g s)

section

variable {g : State → State}

theorem ApartFromInput.inp (hg : ApartFromInput g) : (g s).inp = s.inp :=
  have h := congrArg State.inp (hg s.inp s.incnt s)
  h

theorem ApartFromInput.incnt (hg : ApartFromInput g) : (g s).incnt = s.incnt :=
  have h := congrArg State.incnt (hg s.inp s.incnt s)
  h

theorem ApartFromInput.taken (hg : ApartFromInput g) (k : Nat) (rest : Bits) :
    Machine.taken k rest (g s) = g (Machine.taken k rest s) := by
  refine Eq.trans ?_ (hg _ _ s).symm
  rw [Machine.taken, hg.inp, hg.incnt]
  rfl

theorem ApartFromInput.setInp (hg : ApartFromInput g) (inp : InPort) : { g s with inp := inp } = g { s with inp := inp } := by
  refine Eq.trans ?_ (hg inp s.incnt s).symm
  rw [← hg.incnt]
  rfl

theorem ApartFromInput.supplied (hg : ApartFromInput g) : Machine.supplied more (g s) = g (Machine.supplied more s) := by
  unfold Machine.supplied
  rw [hg.inp, hg.setInp]
  split <;> rfl

theorem ApartFromInput.takeBits (hg : ApartFromInput g) {σ ρ : Type} (f : σ → Bool → σ ⊕ ρ) (st : σ) :
    Machine.takeBits f st (g s) = (Machine.takeBits f st s).map g := by
  unfold Machine.takeBits available
  rw [hg.inp]
  cases feed f st (if s.inp.ioErr then [] else s.inp.bits) with
  | done r rest => simp only [hg.taken, Taken.map]
  | dry st' =>
    simp only [hg.taken, hg.setInp]
    cases s.inp.ioErr <;> cases s.inp.ended <;> rfl

end

/-- A reader that finds the port Empty has taken all its bits (R80). -/
theorem empty_of_takeBits {σ ρ : Type} {f : σ → Bool → σ ⊕ ρ} {st st' : σ} {u : State} (h : takeBits f st s = .empty st' u) :
    s.inp.ioErr = false ∧ s.inp.ended = false ∧ feed f st s.inp.bits = .dry st' ∧ u = taken s.inp.bits.length [] s := by
  rcases takeBits_cases f st s with ⟨_, _, _, -, -, -, -, hf⟩ | ⟨_, -, -, -, hf⟩ | ⟨_, hio, hend, hfeed, hf⟩ | ⟨-, hf⟩
  all_goals cases hf.symm.trans h
  exact ⟨hio, hend, hfeed, rfl⟩

/-- Bits taken before and after the supply are taken in one. -/
theorem taken_supplied (hend : s.inp.ended = false) (k : Nat) (rest : Bits) :
    taken (s.inp.bits.length + k) rest (supplied more s) =
      taken k rest (supplied more (taken s.inp.bits.length [] s)) := by
  rw [supplied_open more hend, supplied_open (s := taken _ [] s) more hend]
  simp [taken, BitVec.ofNat_add, BitVec.add_assoc]

/-- A reader that was dry on the bits there were reads on in those supplied (R84). -/
theorem takeBits_supplied {σ ρ : Type} {f : σ → Bool → σ ⊕ ρ} {st st' : σ} (hio : s.inp.ioErr = false)
    (hend : s.inp.ended = false) (hf : feed f st s.inp.bits = .dry st') :
    takeBits f st (supplied more s) = takeBits f st' (supplied more (taken s.inp.bits.length [] s)) := by
  have hinp : (supplied more s).inp = ⟨s.inp.bits ++ more, false, false⟩ := by
    simp [supplied_open more hend, hio, hend]
  have hinp' : (supplied more (taken s.inp.bits.length [] s)).inp = ⟨more, false, false⟩ := by
    rw [supplied_open (s := taken _ [] s) more hend, taken_all_inp hio hend]
    rfl
  have hfeed := feed_append_of_dry more hf
  cases hm : feed f st' more with
  | done r rest =>
    obtain ⟨used, rfl, -⟩ := feed_done_suffix hm
    rw [takeBits_done (used := s.inp.bits ++ used) (rest := rest) (r := r) (by rw [hinp]) (by rw [hinp, List.append_assoc])
        (by rw [List.append_assoc, hfeed, hm]),
      takeBits_done (used := used) (rest := rest) (r := r) (by rw [hinp']) (by rw [hinp']) hm,
      List.length_append, taken_supplied hend]
  | dry st'' =>
    rw [takeBits_empty (st' := st'') (by rw [hinp]) (by rw [hinp]) (by rw [hinp, hfeed, hm]),
      takeBits_empty (st' := st'') (by rw [hinp']) (by rw [hinp']) (by rw [hinp', hm]), hinp, hinp',
      List.length_append, taken_supplied hend]

/-- So it does in the state `g` makes of the one it was dry in, and ends there as in that state (R84). -/
theorem takeBits_resumed {g : State → State} (hg : ApartFromInput g) {σ ρ : Type} {f : σ → Bool → σ ⊕ ρ} {st st' : σ}
    (hio : s.inp.ioErr = false) (hend : s.inp.ended = false) (hf : feed f st s.inp.bits = .dry st') :
    takeBits f st' (supplied more (g (taken s.inp.bits.length [] s))) = (takeBits f st (supplied more s)).map g := by
  rw [hg.supplied, hg.takeBits, takeBits_supplied hio hend hf]

/-- A port that has given its last bit and signalled End (R80). -/
theorem takeBits_atEnd {σ ρ : Type} {f : σ → Bool → σ ⊕ ρ} {st : σ} (hinp : s.inp = ⟨[], false, false⟩) :
    takeBits f st { s with inp := { s.inp with ended := true } } =
      .ended st { s with inp := { s.inp with ended := true } } := by
  simp [takeBits, available, hinp, taken]

/-- A port with a pending I/O error, which is then reported (log 10). -/
theorem takeBits_ioError {σ ρ : Type} {f : σ → Bool → σ ⊕ ρ} {st : σ} (hinp : s.inp = ⟨[], false, false⟩) :
    takeBits f st { s with inp := { s.inp with ioErr := true } } = .failed st s := by
  rw [takeBits_failed rfl, hinp]
  exact congrArg (fun inp => Taken.failed st { s with inp := inp }) hinp.symm

/-! ### DES -/

/-- The state DES is held in. -/
def desHeld (p : Parse) (start : Word) (nodes : NodeStore) (s : State) : State :=
  heldState (.des p start) { s with nodes := nodes }

/-- DES is held where its parse has taken every bit (R185, R187). -/
theorem desTake_held {p : Parse} {start : Word} (hh : desTake p start s = .next h) (hj : h.job = some j) :
    ∃ p' nodes, s.inp.ioErr = false ∧ s.inp.ended = false ∧ feed parseBit (p, s.nodes) s.inp.bits = .dry (p', nodes) ∧
      j = .des p' start ∧ h = desHeld p' start nodes (taken s.inp.bits.length [] s) := by
  unfold desTake at hh
  cases ht : takeBits parseBit (p, s.nodes) s with
  | empty st u =>
    obtain ⟨hio, hend, hfeed, rfl⟩ := empty_of_takeBits ht
    rw [ht] at hh
    cases hh
    cases hj
    exact ⟨st.1, st.2, hio, hend, hfeed, rfl, rfl⟩
  | done r u =>
    rw [ht] at hh
    cases r <;> (cases hh; cases hj)
  | _ =>
    rw [ht] at hh
    cases hh
    cases hj

/-- DES's outcome depends on N and the hold only through what it still has to parse. -/
theorem desTake_eq_of_map {t : State} {p p' : Parse} {start : Word} {nodes : NodeStore}
    (h : takeBits parseBit (p', t.nodes) t = (takeBits parseBit (p, s.nodes) s).map (desHeld p' start nodes)) :
    desTake p' start t = desTake p start s := by
  unfold desTake
  rw [h]
  cases takeBits parseBit (p, s.nodes) s with
  | done r u => cases r <;> rfl
  | _ => rfl

theorem desTake_supplied {p : Parse} {start : Word} (hh : desTake p start s = .next h) (hj : h.job = some j) :
    desTake p start (supplied more s) = resume j (supplied more h) := by
  obtain ⟨p', nodes, hio, hend, hfeed, rfl, rfl⟩ := desTake_held hh hj
  have hg : ApartFromInput (desHeld p' start nodes) := fun _ _ _ => rfl
  refine (desTake_eq_of_map (nodes := nodes) ?_).symm
  rw [supplied_nodes, supplied_nodes, ← takeBits_resumed hg hio hend hfeed]
  rfl

/-! ### DSYM -/

/-- The state DSYM is held in. -/
def dsymHeld (c : NodeIdx) (s : State) : State := heldState .dsym { s with cursor := c }

/-- DSYM is held inside the tree, where its walk has taken every bit (R243). -/
theorem dsymWalk_held (hh : dsymWalk s = .next h) (hj : h.job = some j) :
    ∃ l r wt c, nodeAt s.nodes s.cursor = some (.internal l r wt) ∧ s.inp.ioErr = false ∧ s.inp.ended = false ∧
      feed (walkBit s.nodes) s.cursor s.inp.bits = .dry c ∧ j = .dsym ∧
      h = dsymHeld c (taken s.inp.bits.length [] s) := by
  unfold dsymWalk withNode at hh
  cases hnd : nodeAt s.nodes s.cursor with
  | none =>
    rw [hnd] at hh
    cases hh
  | some nd =>
    rw [hnd] at hh
    cases nd with
    | leaf sym wt =>
      cases hh
      cases hj
    | internal l r wt =>
      dsimp only at hh
      cases ht : takeBits (walkBit s.nodes) s.cursor s with
      | empty c u =>
        obtain ⟨hio, hend, hfeed, rfl⟩ := empty_of_takeBits ht
        rw [ht] at hh
        cases hh
        cases hj
        exact ⟨l, r, wt, c, rfl, hio, hend, hfeed, rfl, rfl⟩
      | done res u =>
        rw [ht] at hh
        cases res
        · cases hh
        · cases hh
          cases hj
      | _ =>
        rw [ht] at hh
        cases hh
        cases hj

/-- DSYM's outcome depends on CURSOR and the hold only through the walk still to be made from an internal node. -/
theorem dsymWalk_eq_of_map {t : State} {c : NodeIdx} (hn : t.nodes = s.nodes)
    (hs : ∃ l r wt, nodeAt s.nodes s.cursor = some (.internal l r wt))
    (ht : ∃ l r wt, nodeAt t.nodes t.cursor = some (.internal l r wt))
    (h : takeBits (walkBit s.nodes) t.cursor t = (takeBits (walkBit s.nodes) s.cursor s).map (dsymHeld c)) :
    dsymWalk t = dsymWalk s := by
  obtain ⟨l, r, wt, hs⟩ := hs
  obtain ⟨l', r', wt', ht⟩ := ht
  unfold dsymWalk
  rw [withNode_some hs, withNode_some ht]
  dsimp only
  rw [hn, h]
  cases takeBits (walkBit s.nodes) s.cursor s with
  | done res u => cases res <;> rfl
  | _ => rfl

theorem dsymWalk_supplied (hh : dsymWalk s = .next h) (hj : h.job = some j) :
    dsymWalk (supplied more s) = resume j (supplied more h) := by
  obtain ⟨l, r, wt, c, hnd, hio, hend, hfeed, rfl, rfl⟩ := dsymWalk_held hh hj
  have hg : ApartFromInput (dsymHeld c) := fun _ _ _ => rfl
  refine (dsymWalk_eq_of_map (c := c) ?_ ?_ ?_ ?_).symm
  · simp only [supplied_nodes]
    rfl
  · rw [supplied_nodes, supplied_cursor]
    exact ⟨l, r, wt, hnd⟩
  · rw [supplied_nodes, supplied_cursor]
    exact feed_walkBit_internal ⟨l, r, wt, hnd⟩ hfeed
  · rw [supplied_nodes, supplied_cursor, supplied_cursor, ← takeBits_resumed hg hio hend hfeed]
    rfl

/-! ### GETB -/

/-- GETB is held where every bit is taken and some are missing (R245). -/
theorem getbTake_held {op : Opcode} {missing value : Nat} (hh : getbTake op missing value s = .next h)
    (hj : h.job = some j) : ∃ missing' value', s.inp.ioErr = false ∧ s.inp.ended = false ∧
      feed rawBit (missing, value) s.inp.bits = .dry (missing', value') ∧ j = .getb missing' value' ∧
      h = heldState (.getb missing' value') (taken s.inp.bits.length [] s) := by
  unfold getbTake at hh
  cases ht : takeBits rawBit (missing, value) s with
  | empty st u =>
    obtain ⟨hio, hend, hfeed, rfl⟩ := empty_of_takeBits ht
    rw [ht] at hh
    cases hh
    cases hj
    exact ⟨st.1, st.2, hio, hend, hfeed, rfl, rfl⟩
  | _ =>
    rw [ht] at hh
    cases hh
    cases hj

theorem getbTake_supplied {missing value : Nat} (hh : getbTake 0x62#8 missing value s = .next h)
    (hj : h.job = some j) : getbTake 0x62#8 missing value (supplied more s) = resume j (supplied more h) := by
  obtain ⟨missing', value', hio, hend, hfeed, rfl, rfl⟩ := getbTake_held hh hj
  have hg : ApartFromInput (heldState (.getb missing' value')) := fun _ _ _ => rfl
  show _ = getbTake 0x62#8 missing' value' _
  unfold getbTake
  rw [takeBits_resumed hg hio hend hfeed]
  cases takeBits rawBit (missing, value) (supplied more s) <;> rfl

theorem execDes_supplied (hh : execDes s = .next h) (hj : h.job = some j) :
    execDes (supplied more s) = resume j (supplied more h) := by
  obtain ⟨he, -, hh⟩ := command_held hh hj
  have hclear : ApartFromInput desClear := fun _ _ _ => rfl
  rw [execDes, command_runs (by simpa using he) rfl, supplied_incnt, ← hclear.supplied]
  exact desTake_supplied hh hj

theorem execDsym_supplied (hh : execDsym s = .next h) (hj : h.job = some j) :
    execDsym (supplied more s) = resume j (supplied more h) := by
  obtain ⟨he, -, hh⟩ := command_held hh hj
  obtain ⟨ha, hh⟩ := require_held hh hj
  rw [execDsym, command_runs (by simpa using he) rfl, require_holds (by simpa using ha)]
  exact dsymWalk_supplied hh hj

theorem execGetb_supplied {n : BitVec 5} (hh : execGetb n s = .next h) (hj : h.job = some j) :
    execGetb n (supplied more s) = resume j (supplied more h) := by
  obtain ⟨he, hw, hh⟩ := command_held hh hj
  rw [execGetb, command_runs (by simpa using he) hw]
  exact getbTake_supplied hh hj

end

/-- The input port of a state that a command is held in on it. -/
theorem PortSpent.inp {h : State} {j : Job} (hs : PortSpent h j) (hj : j.takesInput = true) : h.inp = ⟨[], false, false⟩ := by
  cases j with
  | des p start => exact hs
  | dsym => exact hs.1
  | getb missing value => exact hs
  | _ => cases hj

theorem Job.takesInput_of_kind {j : Job} (h : j.kind = .des ∨ j.kind = .dsym ∨ j.kind = .getb) : j.takesInput = true := by
  cases j <;> simp [Job.kind, Job.takesInput] at h ⊢

/-- A command that takes bits is held only where the port has not signalled End (R84). -/
theorem inputOpen_of_held {i : Instr} {s h : State} {j : Job} (hi : i = .des ∨ i = .dsym ∨ ∃ n, i = .getb n)
    (hh : exec i s = .next h) (hj : h.job = some j) : s.inp.ended = false := by
  have hin : j.takesInput = true := by
    have hreset : i ≠ .reset := by rintro rfl; simp at hi
    have hkind := ((exec_ends hreset).1 h hh).held_kind hj
    refine Job.takesInput_of_kind ?_
    rcases hi with rfl | rfl | ⟨n, rfl⟩
    · exact .inl (Option.some.inj hkind).symm
    · exact .inr (.inl (Option.some.inj hkind).symm)
    · exact .inr (.inr (Option.some.inj hkind).symm)
  have hstops := (exec_stops i s).1 h hh
  rw [← hstops.ended, (hstops.spent j hj).inp hin]

/-- Settles O50: the readers go on where they were dry (`takeBits_supplied`); a used-up port is at End or in error at once. -/
theorem heldInputCommandsGoOn : Obligations.HeldInputCommandsGoOn := by
  refine ⟨fun s => ⟨fun bs => ⟨rfl, supplied_open bs, supplied_ended bs⟩, rfl, rfl, rfl, fun t he ht => ?_⟩,
    fun i s h j more hi hh hj => ?_, fun h j hh hj => ?_⟩
  · rcases ht with ⟨i, ht⟩ | ⟨j, ht⟩ | ⟨m, hm, ht⟩
    · exact exec_onlyTaken he ht
    · exact resume_onlyTaken he ht
    · exact hostMove_onlyTaken hm he ht
  · rw [← supplied_open more (inputOpen_of_held hi hh hj)]
    rcases hi with rfl | rfl | ⟨n, rfl⟩
    · exact execDes_supplied hh hj
    · exact execDsym_supplied hh hj
    · exact execGetb_supplied hh hj
  · have hspent := portSpent_of_held hh hj
    refine ⟨fun p start hjob => ?_, fun hjob => ?_, fun missing value hjob => ?_⟩
    · subst hjob
      have hinp := hspent.inp rfl
      refine ⟨⟨Config.freeNodes h.draws, h.draws + 1, ?_⟩, Config.freeNodes h.draws, h.draws + 1, ?_⟩
      · rw [resume, desTake, takeBits_atEnd hinp]
        rfl
      · rw [resume, desTake, takeBits_ioError hinp]
        rfl
    · subst hjob
      have hinp := hspent.inp rfl
      obtain ⟨-, l, r, wt, hnd⟩ := hspent
      refine ⟨⟨Config.freeCursor h.draws, h.draws + 1, ?_⟩, Config.freeCursor h.draws, h.draws + 1, ?_⟩
      · exact dsymWalk_of_ended (s := { h with inp := { h.inp with ended := true } }) hnd (takeBits_atEnd hinp)
      · exact dsymWalk_of_failed (s := { h with inp := { h.inp with ioErr := true } }) hnd (takeBits_ioError hinp)
    · subst hjob
      have hinp := hspent.inp rfl
      refine ⟨?_, ?_⟩
      · rw [resume, getbTake, takeBits_atEnd hinp]
        rfl
      · rw [resume, getbTake, takeBits_ioError hinp]
        rfl

end Sys2Proof.Machine

/-! ## A command held on the output port goes on with the room made (R84) -/

namespace Sys2Proof.Machine

/-! ### Giving bits with more room, in two parts, and from a hold -/

section

variable {s h : State} {j : Job} {n r : Nat} {op : Opcode} {bits : Bits} {held : Bits → Job} {next : State → Result}

theorem drained_limited (hr : s.out.room = some r) :
    drained n s = { s with out := { s.out with room := some (r + n) } } := by
  rw [drained, hr]
  rfl

theorem drained_unlimited (hr : s.out.room = none) : drained n s = s := by
  rw [drained, hr, Option.map_none, ← hr]

theorem drained_heldState : drained n (heldState j s) = heldState j (drained n s) := rfl

theorem OutputTakes.drained {k : Nat} (h : OutputTakes s k) : OutputTakes (Machine.drained n s) k := by
  obtain ⟨hio, hfit⟩ := h
  refine ⟨hio, fun r hr => ?_⟩
  obtain ⟨r0, hr0, rfl⟩ := Option.map_eq_some_iff.1 hr
  exact Nat.le_add_right_of_le (hfit r0 hr0)

/-- A port that does not take `k` bits has an error pending or less room (R82). -/
theorem not_outputTakes {k : Nat} (h : ¬OutputTakes s k) :
    s.out.ioErr = true ∨ s.out.ioErr = false ∧ ∃ r, s.out.room = some r ∧ r < k := by
  cases hio : s.out.ioErr
  · refine .inr ⟨rfl, ?_⟩
    by_contra hno
    exact h ⟨hio, fun r hr => Nat.le_of_not_lt fun hlt => hno ⟨r, hr, hlt⟩⟩
  · exact .inl rfl

/-- Room made before bits that fit is room made after them. -/
theorem accepted_drained (h : OutputTakes s bits.length) : accepted bits (drained n s) = drained n (accepted bits s) := by
  cases hr : s.out.room with
  | none => rw [drained_unlimited hr, drained_unlimited (s := accepted bits s) (by simp [hr])]
  | some r =>
    have hle := h.2 r hr
    have hroom : r + n - bits.length = r - bits.length + n := by omega
    rw [drained_limited hr, drained_limited (s := accepted bits s) (r := r - bits.length) (by simp [hr])]
    simp [accepted, hroom]

/-- Giving bits that fit and then others is giving them all (R84, R91). -/
theorem emit_append {given rest : Bits} (h : OutputTakes s given.length)
    (onOutput : ∀ rest, (held rest).takesInput = false) :
    emit op (given ++ rest) held next s = emit op rest held next (accepted given s) := by
  obtain ⟨hio, hfit⟩ := h
  by_cases hall : OutputTakes s (given ++ rest).length
  · have hrest : ∀ r, (accepted given s).out.room = some r → rest.length ≤ r := fun r hr => by
      obtain ⟨r0, hr0, rfl⟩ := Option.map_eq_some_iff.1 hr
      have := hall.2 r0 hr0
      rw [List.length_append] at this
      omega
    rw [emit_all hio hall.2, emit_all (s := accepted given s) hio hrest, accepted_accepted]
  · rcases not_outputTakes hall with herr | ⟨-, r, hr, hlt⟩
    · simp [hio] at herr
    have hle := hfit r hr
    rw [List.length_append] at hlt
    rw [emit_full hio hr (by rw [List.length_append]; omega) onOutput,
      emit_full (s := accepted given s) (r := r - given.length) hio (by simp [hr]) (by omega) onOutput,
      accepted_accepted, List.drop_append, List.take_append, List.drop_eq_nil_of_le hle, List.take_of_length_le hle,
      List.nil_append]

/-- `emit` depends on what comes after the bits only in the states it may go on in. -/
theorem emit_congr {next' : State → Result} (hn : ∀ bs, next (accepted bs s) = next' (accepted bs s)) :
    emit op bits held next s = emit op bits held next' s := by
  unfold emit
  rcases giveBits_cases bits s with hg | ⟨_, _, _, _, _, _, hg⟩ | ⟨_, _, hg⟩
  · rw [hg]
    exact hn bits
  · rw [hg]
  · rw [hg]

/-- A hold does not change what a command that gives bits does next. -/
theorem emit_heldState (hnext : ∀ u, next (heldState j u) = next u) :
    emit op bits held next (heldState j s) = emit op bits held next s := by
  have ho : (heldState j s).out = s.out := rfl
  unfold emit giveBits
  rw [ho]
  dsimp only
  cases bits.drop (accepts s.out bits.length) with
  | nil => exact hnext (accepted _ s)
  | cons b rest => cases s.out.ioErr <;> rfl

/-- A command that gives bits and is held goes on, with room made, as it would with the room there from the start, if what it
does after the bits does and a hold resumes where `emit` stopped (R84). -/
theorem emit_drained (hh : emit op bits held next s = .next h) (hj : h.job = some j)
    (onOutput : ∀ rest, (held rest).takesInput = false) (unheld : ∀ j u, next (heldState j u) = next u)
    (resumes : ∀ rest u, u.nodes = s.nodes → resume (held rest) u = emit op rest held next u)
    (go : next (accepted bits s) = .next h → next (drained n (accepted bits s)) = resume j (drained n h)) :
    emit op bits held next (drained n s) = resume j (drained n h) := by
  by_cases hnil : bits = []
  · subst hnil
    rw [emit_nil] at hh ⊢
    rw [accepted_nil] at go
    exact go hh
  by_cases hfit : OutputTakes s bits.length
  · rw [emit_all hfit.1 hfit.2] at hh
    rw [emit_all hfit.drained.1 hfit.drained.2, accepted_drained hfit]
    exact go hh
  rcases not_outputTakes hfit with hio | ⟨hio, r, hr, hlt⟩
  · rw [emit_failed hio hnil] at hh
    cases hh
    cases hj
  · have hgiven : OutputTakes s (bits.take r).length := ⟨hio, fun m hm => by
      cases hr.symm.trans hm
      exact List.length_take_le _ _⟩
    rw [emit_full hio hr hlt onOutput] at hh
    cases hh
    cases hj
    rw [drained_heldState, resumes _ (heldState _ (drained n (accepted (bits.take r) s))) rfl,
      emit_heldState (unheld _), ← accepted_drained hgiven, ← emit_append hgiven.drained onOutput,
      List.take_append_drop]

/-- An I/O error that becomes pending and is then reported leaves the port as it was (log 10). -/
theorem outputErrorTaken_pending (hio : s.out.ioErr = false) :
    outputErrorTaken { s with out := { s.out with ioErr := true } } = s := by
  rw [outputErrorTaken, ← hio]

theorem emit_pending (hio : s.out.ioErr = false) (hne : bits ≠ []) :
    emit op bits held next { s with out := { s.out with ioErr := true } } = .next (errorState op .ioError s) := by
  rw [emit_failed rfl hne, outputErrorTaken_pending hio]

end

/-! ### SER, ENC, PUTB and FLUSH -/

section

variable {s h : State} {j : Job} {n : Nat}

theorem serVisit_heldState (fuel : Nat) (stack : List NodeIdx) (count : Nat) (j : Job) (s : State) :
    serVisit fuel stack count (heldState j s) = serVisit fuel stack count s := by
  induction fuel generalizing stack count s with
  | zero => cases stack <;> rfl
  | succ fuel ih =>
    cases stack with
    | nil => rfl
    | cons i stack =>
      have hn : (heldState j s).nodes = s.nodes := rfl
      unfold serVisit
      rw [hn]
      cases nodeAt s.nodes i with
      | none => rfl
      | some nd => cases nd <;> exact emit_heldState fun u => ih _ _ u

/-- SER visits the trees on its stack alike with any fuel that is enough for them. -/
theorem serVisit_fuel {fuel fuel' count : Nat} {stack : List NodeIdx} {ts : List Tree}
    (hts : List.Forall₂ (HoldsTree s.nodes) stack ts) (hle : (ts.map Tree.size).sum ≤ fuel)
    (hle' : (ts.map Tree.size).sum ≤ fuel') : serVisit fuel stack count s = serVisit fuel' stack count s := by
  induction fuel generalizing fuel' stack ts count s with
  | zero =>
    cases hts with
    | nil => cases fuel' <;> rfl
    | @cons i t stack ts ht hts =>
      have := t.size_pos
      simp only [List.map_cons, List.sum_cons] at hle
      omega
  | succ fuel ih =>
    cases hts with
    | nil => cases fuel' <;> rfl
    | @cons i t stack ts ht hts =>
      have := t.size_pos
      simp only [List.map_cons, List.sum_cons] at hle hle'
      obtain ⟨fuel', rfl⟩ := Nat.exists_eq_add_one_of_ne_zero (n := fuel') (by omega)
      cases t with
      | leaf sym =>
        obtain ⟨wt, hnode⟩ := holdsTree_leaf.1 ht
        simp only [Tree.size] at hle hle'
        simp only [serVisit, hnode]
        exact emit_congr fun bs => ih (s := accepted bs s) hts (by omega) (by omega)
      | node tl tr =>
        obtain ⟨l, r, wt, hnode, hl, hr⟩ := holdsTree_node.1 ht
        simp only [Tree.size] at hle hle'
        simp only [serVisit, hnode]
        exact emit_congr fun bs => ih (s := accepted bs s) (.cons hl (.cons hr hts))
          (by simp only [List.map_cons, List.sum_cons]; omega) (by simp only [List.map_cons, List.sum_cons]; omega)

theorem serVisit_drained {fuel count : Nat} {stack : List NodeIdx} {ts : List Tree}
    (hts : List.Forall₂ (HoldsTree s.nodes) stack ts) (hfuel : (ts.map Tree.size).sum ≤ fuel) (hcap : fuel ≤ Config.nodeCap)
    (hh : serVisit fuel stack count s = .next h) (hj : h.job = some j) :
    serVisit fuel stack count (drained n s) = resume j (drained n h) := by
  induction fuel generalizing stack ts count s with
  | zero =>
    cases stack with
    | nil => cases hh; cases hj
    | cons i stack => cases hh
  | succ fuel ih =>
    cases hts with
    | nil => cases hh; cases hj
    | @cons i t stack ts ht hts =>
      simp only [List.map_cons, List.sum_cons] at hfuel
      have visit : ∀ bits stack' (ts' : List Tree) count', List.Forall₂ (HoldsTree s.nodes) stack' ts' →
          (ts'.map Tree.size).sum ≤ fuel →
          emit Instr.ser.opcode bits (fun rest => .ser rest stack' count') (serVisit fuel stack' count') s = .next h →
          emit Instr.ser.opcode bits (fun rest => .ser rest stack' count') (serVisit fuel stack' count') (drained n s) =
            resume j (drained n h) := fun bits stack' ts' count' hts' hle hh =>
        emit_drained hh hj (fun _ => rfl) (serVisit_heldState _ _ _)
          (fun rest u hu => emit_congr fun bs => serVisit_fuel (s := accepted bs u) (by rwa [accepted_nodes, hu])
            (hle.trans (by omega)) hle)
          fun hgo => ih (s := accepted bits s) hts' hle (by omega) hgo
      cases t with
      | leaf sym =>
        obtain ⟨wt, hnode⟩ := holdsTree_leaf.1 ht
        simp only [serVisit, drained_nodes, hnode] at hh ⊢
        exact visit _ _ ts _ hts (by simp only [Tree.size] at hfuel; omega) hh
      | node tl tr =>
        obtain ⟨l, r, wt, hnode, hl, hr⟩ := holdsTree_node.1 ht
        simp only [serVisit, drained_nodes, hnode] at hh ⊢
        exact visit _ _ (tl :: tr :: ts) _ (.cons hl (.cons hr hts))
          (by simp only [Tree.size] at hfuel; simp only [List.map_cons, List.sum_cons]; omega) hh

theorem execSer_drained (ht : TreeInvariant s) (hh : execSer s = .next h) (hj : h.job = some j) :
    execSer (drained n s) = resume j (drained n h) := by
  obtain ⟨he, -, hh⟩ := command_held hh hj
  obtain ⟨hv, hh⟩ := require_held hh hj
  obtain ⟨T, hT⟩ := ht hv
  obtain ⟨hholds, hsize, -, -⟩ := hT.bounds
  rw [execSer, command_runs (s := drained n s) he rfl, require_holds (by simpa using hv)]
  exact serVisit_drained (.cons hholds .nil) (by simpa [Config.nodeCap] using hsize) (Nat.le_refl _) hh hj

theorem execEnc_drained {sym : Sym} (hh : execEnc sym s = .next h) (hj : h.job = some j) :
    execEnc sym (drained n s) = resume j (drained n h) := by
  obtain ⟨he, hw, hh⟩ := command_held hh hj
  obtain ⟨ht, hh⟩ := require_held hh hj
  obtain ⟨hc, hh⟩ := require_held hh hj
  rw [execEnc, command_runs (s := drained n s) he hw, requireCode, require_holds (by simpa using ht),
    require_holds (by simpa using hc)]
  refine emit_drained hh hj (fun _ => rfl) (fun _ _ => rfl) (fun _ _ _ => rfl) fun hgo => ?_
  cases hgo
  cases hj

theorem execPutb_drained {k : BitVec 5} {v : BitVec 16} (hh : execPutb k v s = .next h) (hj : h.job = some j) :
    execPutb k v (drained n s) = resume j (drained n h) := by
  obtain ⟨he, hw, hh⟩ := command_held hh hj
  rw [execPutb, command_runs (s := drained n s) he hw]
  refine emit_drained hh hj (fun _ => rfl) (fun _ _ => rfl) (fun _ _ _ => rfl) fun hgo => ?_
  cases hgo
  cases hj

theorem flushPort_heldState {op : Opcode} {held : Job} (v : Word) (j : Job) (s : State) :
    flushPort op held (completeWith v) (heldState j s) = flushPort op held (completeWith v) s := by
  have ho : (heldState j s).out = s.out := rfl
  unfold flushPort
  rw [ho]
  split
  · rfl
  · split <;> rfl

/-- The port flush is tried again when room is made (R83; log 12). -/
theorem flushPort_drained {pad : Nat}
    (hh : flushPort Instr.flush.opcode (.flush [] pad) (completeWith (BitVec.ofNat 32 pad)) s = .next h)
    (hj : h.job = some j) : flushPort Instr.flush.opcode (.flush [] pad) (completeWith (BitVec.ofNat 32 pad)) (drained n s) =
      resume j (drained n h) := by
  unfold flushPort at hh
  split at hh
  · cases hh
    cases hj
  · split at hh
    · cases hh
      cases hj
      refine Eq.trans ?_ (emit_nil (s := heldState (.flush [] pad) (drained n s))).symm
      exact (flushPort_heldState _ _ _).symm
    · cases hh
      cases hj

theorem execFlush_drained (hh : execFlush s = .next h) (hj : h.job = some j) :
    execFlush (drained n s) = resume j (drained n h) := by
  obtain ⟨he, -, hh⟩ := command_held hh hj
  rw [execFlush, command_runs (s := drained n s) he rfl, drained_outcnt]
  exact emit_drained hh hj (fun _ => rfl) (flushPort_heldState _) (fun _ _ _ => rfl) fun hgo => flushPort_drained hgo hj

end

/-- Settles O51: `emit` goes on where the port was full (`emit_drained`), and meets an I/O error with its next bit. -/
theorem heldOutputCommandsGoOn : Obligations.HeldOutputCommandsGoOn := by
  refine ⟨fun s => ⟨fun n => ⟨rfl, fun r => drained_limited, drained_unlimited⟩, rfl, rfl⟩,
    fun i s h j r n hi hr hh hj => ?_, fun h j hh hj => ?_⟩
  · rw [← drained_limited hr]
    rcases hi with rfl | ⟨sym, rfl⟩ | ⟨k, v, rfl⟩ | ⟨rfl, ht⟩
    · exact execFlush_drained hh hj
    · exact execEnc_drained hh hj
    · exact execPutb_drained hh hj
    · exact execSer_drained ht hh hj
  · have hspent := portSpent_of_held hh hj
    refine ⟨fun rest stack count hjob => ?_, fun rest len hjob => ?_, fun rest hjob => ?_, fun rest pad hjob => ?_⟩
    · subst hjob
      obtain ⟨hio, hne⟩ := hspent
      exact emit_pending hio hne
    · subst hjob
      obtain ⟨hio, hne⟩ := hspent
      exact emit_pending hio hne
    · subst hjob
      obtain ⟨hio, hne⟩ := hspent
      exact emit_pending hio hne
    · subst hjob
      exact (flushGive_failed rfl).trans (by rw [outputErrorTaken_pending hspent]; rfl)

end Sys2Proof.Machine

/-! ## The encoding: decode and encode invert each other (R100 to R107)

`decode_eq_ok_iff` says once when a word is a command. `exists_rowOf` reads the opcode map from a command's side, `opcodeTable_rows`
from a row's side; `append_layout` says which bits of a word are its format's fixed bits and which are its operands. -/

namespace Sys2Proof

/-! ### Reading operand fields -/

/-- The lowest field of a word is read back (R101). -/
theorem extract_lowField {m k : Nat} (op : Opcode) (z : BitVec m) (x : BitVec k) :
    (op ++ (z ++ x)).extractLsb' 0 k = x := by
  rw [BitVec.extractLsb'_append_eq_of_add_le (by omega), BitVec.extractLsb'_append_eq_right]

/-- A field above another is read back (R101). -/
theorem extract_highField {l k m : Nat} (op : Opcode) (z : BitVec l) (x : BitVec k) (y : BitVec m) :
    (op ++ (z ++ x ++ y)).extractLsb' m k = x := by
  rw [BitVec.extractLsb'_append_eq_of_add_le (by omega), BitVec.extractLsb'_append_eq_of_le (Nat.le_refl m), Nat.sub_self,
    BitVec.extractLsb'_append_eq_right]

theorem encode_opcode (i : Instr) : (encode i).extractLsb' 24 8 = i.opcode :=
  Laws.EncodesInRow.opcode_of_append _ _

/-- Every command's word stands in its own row (R103). -/
theorem encode_inRow (i : Instr) : Laws.EncodesInRow.Statement i := by
  cases i with
  | nop => exact Laws.EncodesInRow.nop
  | reset => exact Laws.EncodesInRow.reset
  | wclr => exact Laws.EncodesInRow.wclr
  | count b => exact Laws.EncodesInRow.count b
  | cfin => exact Laws.EncodesInRow.cfin
  | wset s => exact Laws.EncodesInRow.wset s
  | wget s => exact Laws.EncodesInRow.wget s
  | ldal v => exact Laws.EncodesInRow.ldal v
  | ldah v => exact Laws.EncodesInRow.ldah v
  | build => exact Laws.EncodesInRow.build
  | ser => exact Laws.EncodesInRow.ser
  | des => exact Laws.EncodesInRow.des
  | flat => exact Laws.EncodesInRow.flat
  | clen s => exact Laws.EncodesInRow.clen s
  | cword s k => exact Laws.EncodesInRow.cword s k
  | enc s => exact Laws.EncodesInRow.enc s
  | putb n v => exact Laws.EncodesInRow.putb n v
  | flush => exact Laws.EncodesInRow.flush
  | dstart => exact Laws.EncodesInRow.dstart
  | dsym => exact Laws.EncodesInRow.dsym
  | getb n => exact Laws.EncodesInRow.getb n
  | nget x => exact Laws.EncodesInRow.nget x
  | nwlo x => exact Laws.EncodesInRow.nwlo x
  | nwhi x => exact Laws.EncodesInRow.nwhi x

/-! ### The opcode map -/

theorem rowOf_eq_some {op : Opcode} {r : Row} (h : rowOf op = some r) : r ∈ opcodeTable ∧ r.opcode = op :=
  ⟨List.mem_of_find?_eq_some h, by simpa using List.find?_some (p := fun r : Row => r.opcode == op) h⟩

/-- A command's opcode finds a row that makes the command from the fields of its own word (R103). -/
theorem exists_rowOf (i : Instr) :
    ∃ r, rowOf i.opcode = some r ∧ r.format = i.format ∧ r.make (fieldsOf (encode i)) = i := by
  cases i with
  | nop => exact ⟨_, rfl, rfl, rfl⟩
  | reset => exact ⟨_, rfl, rfl, rfl⟩
  | wclr => exact ⟨_, rfl, rfl, rfl⟩
  | count b => exact ⟨_, rfl, rfl, congrArg Instr.count (extract_lowField _ _ _)⟩
  | cfin => exact ⟨_, rfl, rfl, rfl⟩
  | wset s => exact ⟨_, rfl, rfl, congrArg Instr.wset (extract_lowField _ _ _)⟩
  | wget s => exact ⟨_, rfl, rfl, congrArg Instr.wget (extract_lowField _ _ _)⟩
  | ldal v => exact ⟨_, rfl, rfl, congrArg Instr.ldal (extract_lowField _ _ _)⟩
  | ldah v => exact ⟨_, rfl, rfl, congrArg Instr.ldah (extract_lowField _ _ _)⟩
  | build => exact ⟨_, rfl, rfl, rfl⟩
  | ser => exact ⟨_, rfl, rfl, rfl⟩
  | des => exact ⟨_, rfl, rfl, rfl⟩
  | flat => exact ⟨_, rfl, rfl, rfl⟩
  | clen s => exact ⟨_, rfl, rfl, congrArg Instr.clen (extract_lowField _ _ _)⟩
  | cword s k => exact ⟨_, rfl, rfl, congrArg₂ Instr.cword (extract_lowField _ _ _) (extract_highField _ _ _ _)⟩
  | enc s => exact ⟨_, rfl, rfl, congrArg Instr.enc (extract_lowField _ _ _)⟩
  | putb n v => exact ⟨_, rfl, rfl, congrArg₂ Instr.putb (extract_highField _ _ _ _) (extract_lowField _ _ _)⟩
  | flush => exact ⟨_, rfl, rfl, rfl⟩
  | dstart => exact ⟨_, rfl, rfl, rfl⟩
  | dsym => exact ⟨_, rfl, rfl, rfl⟩
  | getb n => exact ⟨_, rfl, rfl, congrArg Instr.getb (extract_highField _ _ _ _)⟩
  | nget x => exact ⟨_, rfl, rfl, congrArg Instr.nget (extract_lowField _ _ _)⟩
  | nwlo x => exact ⟨_, rfl, rfl, congrArg Instr.nwlo (extract_lowField _ _ _)⟩
  | nwhi x => exact ⟨_, rfl, rfl, congrArg Instr.nwhi (extract_lowField _ _ _)⟩

/-- Bits 23:0 of a word of the format with these fields (R101). -/
def Format.layout : Format → Fields → BitVec 24
  | .N, _ => 0#24
  | .B, f => 0#16 ++ f.b
  | .S, f => 0#15 ++ f.s
  | .SK, f => 0#12 ++ f.k ++ f.s
  | .I, f => 0#8 ++ f.i
  | .X, f => 0#14 ++ f.x
  | .R, f => 0#3 ++ f.n ++ f.v
  | .RN, f => 0#3 ++ f.n ++ 0#16

/-- What a row of the opcode map makes has the row's opcode, passes the range check of its format exactly if its fields do, and
has its fields where its format puts them (R101, R103, R105). -/
theorem opcodeTable_rows {r : Row} (hr : r ∈ opcodeTable) (f : Fields) :
    (r.make f).opcode = r.opcode ∧ (r.make f).wellFormed = rangeOk r.format f ∧ operandBits (r.make f) = r.format.layout f := by
  fin_cases hr <;> exact ⟨rfl, rfl, rfl⟩

/-- A word's opcode and fields, put together by a format, keep the word's bits but for the format's fixed bits (R101). -/
theorem append_layout (op : Opcode) (fmt : Format) (w : Word) :
    op ++ fmt.layout (fieldsOf w) = (op ++ 0#24) ||| (w &&& ~~~fmt.mask) := by
  refine Laws.EncodesInRow.word_ext fun j hj => ?_
  cases fmt
  all_goals
    simp only [Format.layout, Format.mask, fieldsOf, BitVec.getLsbD_append, BitVec.getLsbD_or, BitVec.getLsbD_and]
    interval_cases j <;> simp

theorem masked_or_unmasked (w m : Word) : (w &&& m) ||| (w &&& ~~~m) = w := by
  refine Laws.EncodesInRow.word_ext fun j hj => ?_
  simp only [BitVec.getLsbD_or, BitVec.getLsbD_and, BitVec.getLsbD_not, hj, decide_true, Bool.true_and]
  rw [← Bool.and_or_distrib_left, Bool.or_not_self, Bool.and_true]

/-! ### The decoder (R104) -/

/-- A word is a command exactly if its opcode has a row, its fixed bits are the row's and its fields are in range. -/
theorem decode_eq_ok_iff {w : Word} {i : Instr} : decode w = .ok i ↔ ∃ r, rowOf (w.extractLsb' 24 8) = some r ∧
    w &&& r.format.mask = r.matchWord ∧ rangeOk r.format (fieldsOf w) = true ∧ r.make (fieldsOf w) = i := by
  unfold decode
  cases rowOf (w.extractLsb' 24 8) with
  | none => simp
  | some r =>
    by_cases hm : w &&& r.format.mask = r.matchWord
    · by_cases hk : rangeOk r.format (fieldsOf w) = true
      · simp [hm, hk]
      · simp [hm, hk]
    · simp [hm]

/-- Settles O1: the row that `exists_rowOf` finds is the decoder's, and its two checks pass. -/
theorem decodeInvertsEncode : Obligations.DecodeInvertsEncode := by
  intro i hw
  obtain ⟨r, hrow, hfmt, hmake⟩ := exists_rowOf i
  obtain ⟨hmem, hop⟩ := rowOf_eq_some hrow
  have hrange := (opcodeTable_rows hmem (fieldsOf (encode i))).2.1
  refine decode_eq_ok_iff.2 ⟨r, by rw [encode_opcode, hrow], ?_, by rw [← hrange, hmake, hw], hmake⟩
  rw [hfmt, Row.matchWord, hop]
  exact (encode_inRow i).2

/-- Settles O2: the word is its row's fixed bits and, beside them, what the command's fields were read from. -/
theorem encodeInvertsDecode : Obligations.EncodeInvertsDecode := by
  intro w i h
  obtain ⟨r, hrow, hmask, hrange, rfl⟩ := decode_eq_ok_iff.1 h
  obtain ⟨hop, hwf, hbits⟩ := opcodeTable_rows (rowOf_eq_some hrow).1 (fieldsOf w)
  refine ⟨?_, by rw [hwf, hrange]⟩
  calc encode (r.make (fieldsOf w)) = r.opcode ++ r.format.layout (fieldsOf w) := by rw [encode, hop, hbits]
    _ = (w &&& r.format.mask) ||| (w &&& ~~~r.format.mask) := by rw [append_layout, hmask]; rfl
    _ = w := masked_or_unmasked _ _

/-- Settles O4: an opcode without a row, and opcode 0x00, whose row has every bit fixed. -/
theorem reservedOpcodesAreIllegal : Obligations.ReservedOpcodesAreIllegal := by
  have hlow : ∀ op ∈ opcodeTable.map Row.opcode, op.toNat < 0x80 := by decide
  refine ⟨by decide, rfl, fun op hop hmem => Nat.not_lt.2 hop (hlow op hmem), fun w hw => ?_, fun w hw hne => ?_⟩
  · have hnone : rowOf (w.extractLsb' 24 8) = none :=
      List.find?_eq_none.2 fun r hr he => hw (List.mem_map.2 ⟨r, hr, eq_of_beq he⟩)
    rw [decode, hnone]
  · have hrow : rowOf 0#8 = some ⟨0x00#8, .N, fun _ => .nop⟩ := rfl
    have hmask : w &&& Format.N.mask = w := BitVec.and_allOnes
    rw [decode, hw, hrow]
    exact if_neg (by rw [hmask]; exact hne)

/-- Settles O3: the decoder runs on each word. -/
theorem exampleWordsDecode : Obligations.ExampleWordsDecode := by
  unfold Obligations.ExampleWordsDecode
  decide

end Sys2Proof

/-! ## Illegal words, errors, PUTB, and the header SER gives (R105, R106, R120, R121, R181, R223, R304) -/

namespace Sys2Proof.Machine

theorem illegalWord_raises {w : Word} {s : State} (he : s.err = false) :
    illegalWord w s = raiseError (w.extractLsb' 24 8) .illegalCmd s := by simp [illegalWord, he]

theorem illegalWord_ignored {w : Word} {s : State} (he : s.err = true) : illegalWord w s = .next (complete s) := by
  simp [illegalWord, he]

theorem accept_illegal {w : Word} {e : Illegal} (s : State) (h : decode w = .error e) :
    accept w s = illegalWord w (begun s) := by
  rw [accept, h]

/-- Settles O6: BUSY, set as the word is taken, is 0 again as the command ends. -/
theorem illegalWordRaisesIllegalCmd : Obligations.IllegalWordRaisesIllegalCmd := by
  intro w e s h
  refine ⟨fun he => ?_, fun he => ?_⟩
  · rw [accept_illegal s h, illegalWord_raises (s := begun s) he]
    rfl
  · rw [accept_illegal s h, illegalWord_ignored (s := begun s) he, complete_begun]

/-- An operand out of range is met before any other check (R306); RESET has none. -/
theorem exec_illegal {i : Instr} {s : State} (he : s.err = false) (hw : i.wellFormed = false) :
    exec i s = raiseError i.opcode .illegalCmd s := by
  cases i with
  | reset => cases hw
  | _ => simp only [exec]; exact command_illegal he hw

/-- Settles O8: `exec_illegal`, and what `raiseError` and `ErrCode.code` are defined as. -/
theorem raiseWritesTheErrorFields : Obligations.RaiseWritesTheErrorFields :=
  ⟨fun _ _ => exec_illegal, fun _ _ _ => rfl, rfl, rfl, rfl, rfl, rfl, rfl, rfl, rfl, rfl, rfl, rfl, rfl, rfl, rfl, rfl, rfl⟩

theorem wellFormed_putb {n : BitVec 5} {v : BitVec 16} :
    (Instr.putb n v).wellFormed = true ↔ 1 ≤ n.toNat ∧ n.toNat ≤ 16 ∧ v.toNat < 2 ^ n.toNat := by
  simp [Instr.wellFormed, bitCountOk, rawValueOk, and_assoc]

/-- Settles O40: the bits are `msbBits`, all accepted at once. -/
theorem putbGivesTheField : Obligations.PutbGivesTheField := by
  intro s n v he
  refine ⟨fun h1 h16 hv ⟨hio, hroom⟩ => ⟨msbBits n.toNat v.toNat, ?_, msbBits_length _ _, fun j hj => ?_⟩, fun hout => ?_⟩
  · rw [exec, execPutb, command_runs he (wellFormed_putb.2 ⟨h1, h16, hv⟩), putbGive, emit_all hio (by simpa using hroom)]
  · rw [msbBits_getElem? hj, BitVec.testBit_toNat]
  · exact exec_illegal he (by rw [Bool.eq_false_iff, Ne, wellFormed_putb]; omega)

/-! ### The header (R120, R121) -/

theorem msbBits_inj {n v v' : Nat} (hv : v < 2 ^ n) (hv' : v' < 2 ^ n) (h : msbBits n v = msbBits n v') : v = v' := by
  have hval := congrArg bitsValue h
  rwa [bitsValue_msbBits, bitsValue_msbBits, Nat.mod_eq_of_lt hv, Nat.mod_eq_of_lt hv'] at hval

/-- One shape bit for each node and a symbol field for each leaf (R121). -/
theorem Tree.header_length (t : Tree) : t.header.length = t.size + 9 * t.leaves.length := by
  induction t with
  | leaf sym => simp [Tree.header, Tree.size, Tree.leaves, Config.symBits]
  | node l r hl hr =>
    simp only [Tree.header, Tree.size, Tree.leaves, List.length_cons, List.length_append, hl, hr]
    omega

/-- A header is read in one way: its first bit says whether it is a leaf's, whose field has a fixed length, or an internal
node's, whose subtrees follow one after the other (R121). -/
theorem Tree.header_append_inj {t t' : Tree} {rest rest' : Bits} (h : t.header ++ rest = t'.header ++ rest') :
    t = t' ∧ rest = rest' := by
  induction t generalizing t' rest rest' with
  | leaf sym =>
    cases t' with
    | leaf sym' =>
      simp only [Tree.header, List.cons_append, List.cons.injEq, true_and] at h
      obtain ⟨hbits, hrest⟩ := List.append_inj h (by simp)
      exact ⟨congrArg Tree.leaf (BitVec.eq_of_toNat_eq (msbBits_inj sym.isLt sym'.isLt hbits)), hrest⟩
    | node l' r' => simp [Tree.header] at h
  | node l r ihl ihr =>
    cases t' with
    | leaf sym' => simp [Tree.header] at h
    | node l' r' =>
      simp only [Tree.header, List.cons_append, List.cons.injEq, true_and, List.append_assoc] at h
      obtain ⟨rfl, hright⟩ := ihl h
      obtain ⟨rfl, hrest⟩ := ihr hright
      exact ⟨rfl, hrest⟩

/-- Settles O28: the counts follow from the number of leaves, and a header is read in one way. -/
theorem headerIsSelfDelimiting : Obligations.HeaderIsSelfDelimiting := by
  intro T
  have hsize := T.size_add_one
  have hlen := T.header_length
  exact ⟨by omega, by omega, hlen, fun _ _ _ => Tree.header_append_inj⟩

/-! ### SER gives it (R181) -/

theorem OutputTakes.accepted {s : State} {given : Bits} {k : Nat} (h : OutputTakes s (given.length + k)) :
    OutputTakes (Machine.accepted given s) k := by
  obtain ⟨hio, hroom⟩ := h
  refine ⟨hio, fun r hr => ?_⟩
  obtain ⟨r0, hr0, rfl⟩ := Option.map_eq_some_iff.1 hr
  have := hroom r0 hr0
  omega

/-- SER on a port with room for the trees on its stack gives their headers, and counts them (R181). -/
theorem serVisit_gives {fuel : Nat} {stack : List NodeIdx} {ts : List Tree} {count : Nat} {s : State}
    (hts : List.Forall₂ (HoldsTree s.nodes) stack ts) (hfuel : (ts.map Tree.size).sum ≤ fuel)
    (hout : OutputTakes s (ts.flatMap Tree.header).length) : serVisit fuel stack count s =
      completeWith (BitVec.ofNat 32 (count + (ts.flatMap Tree.header).length)) (accepted (ts.flatMap Tree.header) s) := by
  induction fuel generalizing stack ts count s with
  | zero =>
    cases hts with
    | nil => simp [serVisit, accepted_nil]
    | @cons i t stack ts ht hts =>
      have := t.size_pos
      simp only [List.map_cons, List.sum_cons] at hfuel
      omega
  | succ fuel ih =>
    cases hts with
    | nil => simp [serVisit, accepted_nil]
    | @cons i t stack ts ht hts =>
      simp only [List.map_cons, List.sum_cons] at hfuel
      -- A visit gives the node's bits, then the headers of the trees it leaves on the stack.
      have visit : ∀ bits stack' (ts' : List Tree), List.Forall₂ (HoldsTree s.nodes) stack' ts' →
          (ts'.map Tree.size).sum ≤ fuel → (t :: ts).flatMap Tree.header = bits ++ ts'.flatMap Tree.header →
          emit Instr.ser.opcode bits (fun rest => .ser rest stack' (count + bits.length))
              (serVisit fuel stack' (count + bits.length)) s =
            completeWith (BitVec.ofNat 32 (count + ((t :: ts).flatMap Tree.header).length))
              (accepted ((t :: ts).flatMap Tree.header) s) := by
        intro bits stack' ts' hts' hle hhdr
        rw [hhdr, List.length_append] at hout ⊢
        rw [emit_all hout.1 fun r hr => (Nat.le_add_right _ _).trans (hout.2 r hr),
          ih (s := accepted bits s) hts' hle hout.accepted, accepted_accepted, Nat.add_assoc]
      cases t with
      | leaf sym =>
        obtain ⟨wt, hnode⟩ := holdsTree_leaf.1 ht
        simp only [serVisit, hnode]
        exact visit (true :: msbBits Config.symBits sym.toNat) _ ts hts
          (by simp only [Tree.size] at hfuel; omega) (by simp [Tree.header])
      | node tl tr =>
        obtain ⟨l, r, wt, hnode, hl, hr⟩ := holdsTree_node.1 ht
        simp only [serVisit, hnode]
        exact visit [false] _ (tl :: tr :: ts) (.cons hl (.cons hr hts))
          (by simp only [Tree.size] at hfuel; simp only [List.map_cons, List.sum_cons]; omega) (by simp [Tree.header])

/-- Settles O29: SER's stack begins with the root alone. -/
theorem serGivesTheHeader : Obligations.SerGivesTheHeader := by
  intro s he
  refine ⟨fun hv => ?_, fun T hv hT hsize hout => ?_⟩
  · rw [exec, execSer, command_runs he rfl, require_fails hv]
    rfl
  · have hgive := serVisit_gives (fuel := Config.nodeCap) (count := 0) (.cons hT .nil)
      (by simpa [Config.nodeCap] using hsize) (by simpa using hout)
    rw [exec, execSer, command_runs he rfl, require_holds hv, hgive]
    simp [completeWith]

end Sys2Proof.Machine

/-! ## The weight table and ARG (R32, R33, R141 to R148) -/

namespace Sys2Proof.Machine

/-! ### One weight written, the others kept (R32) -/

theorem weight_setWeight_same {s : State} {i : Nat} {v : Word} (h : i < 257) : weight (setWeight i v s).w i = v := by
  rw [weight_setWeight _ _ _ _ h, if_pos rfl]

theorem weight_setWeight_other {s : State} {i j : Nat} {v : Word} (h : i < 257) (hj : j ≠ i) :
    weight (setWeight i v s).w j = weight s.w j := by
  rw [weight_setWeight _ _ _ _ h, if_neg hj.symm]

/-- A weight table is known by its 257 weights. -/
theorem weightTable_ext {w w' : WeightTable} (h : ∀ j, j < 257 → weight w j = weight w' j) : w = w' :=
  Vector.ext fun j hj => by simpa [weight, hj] using h j hj

/-- The same weight written twice is written once (R143). -/
theorem setWeight_setWeight (i : Nat) (v : Word) (s : State) :
    setWeight i v (complete (setWeight i v s)) = complete (setWeight i v s) :=
  congrArg (fun w => complete { s with w := w }) (Vector.setIfInBounds_setIfInBounds v)

theorem symbolOk_iff {sym : Sym} : symbolOk sym = true ↔ sym.toNat ≤ 256 := decide_eq_true_iff

/-! ### What each command does with ERR = 0 (R141 to R147) -/

section
variable {s : State} (he : s.err = false)
include he

theorem exec_wclr : exec .wclr s = .next (complete { s with w := Vector.replicate 257 0#32 }) := by
  rw [exec, execWclr, command_runs he rfl]

theorem exec_count {b : BitVec 8} (hb : weight s.w b.toNat ≠ 0xFFFFFFFF#32) :
    exec (.count b) s = .next (complete (setWeight b.toNat (weight s.w b.toNat + 1#32) s)) := by
  rw [exec, execCount, command_runs he rfl, require_holds (bne_iff_ne.2 hb)]

theorem exec_count_overflow {b : BitVec 8} (hb : weight s.w b.toNat = 0xFFFFFFFF#32) :
    exec (.count b) s = .next (errorState 0x11#8 .countOverflow s) := by
  rw [exec, execCount, command_runs he rfl, require_fails (bne_eq_false_iff_eq.2 hb)]
  rfl

theorem exec_cfin : exec .cfin s = .next (complete (setWeight 256 1#32 s)) := by
  rw [exec, execCfin, command_runs he rfl]
  rfl

theorem exec_wset {sym : Sym} (h : sym.toNat ≤ 256) : exec (.wset sym) s = .next (complete (setWeight sym.toNat s.arg s)) := by
  rw [exec, execWset, command_runs (i := .wset sym) he (symbolOk_iff.2 h)]

theorem exec_wget {sym : Sym} (h : sym.toNat ≤ 256) :
    exec (.wget sym) s = .next (complete { s with result := weight s.w sym.toNat }) := by
  rw [exec, execWget, command_runs (i := .wget sym) he (symbolOk_iff.2 h), completeWith]

theorem exec_ldal (i : BitVec 16) : exec (.ldal i) s = .next (complete { s with arg := s.arg.extractLsb' 16 16 ++ i }) := by
  rw [exec, execLdal, command_runs he rfl]

theorem exec_ldah (i : BitVec 16) : exec (.ldah i) s = .next (complete { s with arg := i ++ s.arg.extractLsb' 0 16 }) := by
  rw [exec, execLdah, command_runs he rfl]

/-- LDAL after any load of ARG keeps the high half loaded (R146). -/
theorem exec_ldal_loaded (hi lo i : BitVec 16) :
    exec (.ldal i) (complete { s with arg := hi ++ lo }) = .next (complete { s with arg := hi ++ i }) := by
  rw [exec_ldal (s := complete { s with arg := hi ++ lo }) he i, complete_arg, BitVec.extractLsb'_append_eq_left]
  rfl

/-- LDAH after any load of ARG keeps the low half loaded (R147). -/
theorem exec_ldah_loaded (hi lo i : BitVec 16) :
    exec (.ldah i) (complete { s with arg := hi ++ lo }) = .next (complete { s with arg := i ++ lo }) := by
  rw [exec_ldah (s := complete { s with arg := hi ++ lo }) he i, complete_arg, BitVec.extractLsb'_append_eq_right]
  rfl

end

/-! ### The words of format I (R101) -/

/-- The opcode and the eight zero bits below it are the word's high half. -/
theorem immediateWord_eq (op : Opcode) (i : BitVec 16) : (op ++ 0#8 ++ i : Word) = op ++ (0#8 ++ i) := by
  rw [BitVec.append_assoc']
  rfl

theorem decode_ldal (i : BitVec 16) : decode (0x1800#16 ++ i) = .ok (.ldal i) :=
  (congrArg decode (immediateWord_eq 0x18#8 i)).trans (decodeInvertsEncode (.ldal i) rfl)

theorem decode_ldah (i : BitVec 16) : decode (0x1900#16 ++ i) = .ok (.ldah i) :=
  (congrArg decode (immediateWord_eq 0x19#8 i)).trans (decodeInvertsEncode (.ldah i) rfl)

/-! ### The obligations -/

/-- Settles O16: the table of zeros, which is the old one if its weights are 0 (`weightTable_ext`). -/
theorem wclrClearsEveryWeight : Obligations.WclrClearsEveryWeight :=
  ⟨decodeInvertsEncode .wclr rfl, fun _ he => ⟨_, exec_wclr he, weight_zero,
    fun hz => weightTable_ext fun j hj => (weight_zero j).trans (hz j hj).symm⟩⟩

/-- Settles O17: below 2^32 - 1 the sum does not wrap, and at it the check fails. -/
theorem countAddsOneOrOverflows : Obligations.CountAddsOneOrOverflows := by
  intro s b he
  have hb : b.toNat < 257 := Nat.lt_succ_of_lt b.isLt
  refine ⟨fun hlt => ⟨_, exec_count he fun h => ?_, ?_, fun j => weight_setWeight_other hb⟩, fun hmax => ?_⟩
  · rw [h] at hlt
    exact absurd hlt (by decide)
  · exact (congrArg BitVec.toNat (weight_setWeight_same hb)).trans
      (BitVec.toNat_add_of_lt (Nat.add_lt_of_lt_sub hlt))
  · exact exec_count_overflow he (BitVec.eq_of_toNat_eq hmax)

/-- Settles O18: writing the same weight again changes nothing (`setWeight_setWeight`). -/
theorem cfinFixesTheEosWeight : Obligations.CfinFixesTheEosWeight := by
  have h256 : 256 < 257 := Nat.lt_succ_self 256
  refine ⟨decodeInvertsEncode .cfin rfl, fun s he => ⟨_, exec_cfin he, weight_setWeight_same h256,
    fun j => weight_setWeight_other h256, ?_⟩⟩
  calc exec .cfin (complete (setWeight 256 1#32 s))
      = .next (complete (setWeight 256 1#32 (complete (setWeight 256 1#32 s)))) := exec_cfin he
    _ = .next (complete (setWeight 256 1#32 s)) := by rw [setWeight_setWeight, complete_complete]

/-- Settles O19: a symbol in range names its weight, and one above 256 is met before the body (`exec_illegal`). -/
theorem wsetWritesAndWgetReads : Obligations.WsetWritesAndWgetReads := by
  intro s sym he
  refine ⟨fun h => ⟨⟨_, exec_wset he h, weight_setWeight_same (Nat.lt_succ_of_le h),
    fun j => weight_setWeight_other (Nat.lt_succ_of_le h)⟩, exec_wget he h⟩, fun h => ?_⟩
  have hout : symbolOk sym = false := Bool.eq_false_iff.2 fun hok => Nat.not_le.2 h (symbolOk_iff.1 hok)
  exact ⟨exec_illegal (i := .wset sym) he hout, exec_illegal (i := .wget sym) he hout⟩

/-- Settles O20: the half that LDAL leaves is the half that LDAH loads. -/
theorem ldalLoadsTheLowHalf : Obligations.LdalLoadsTheLowHalf := fun _ i _ he =>
  ⟨decode_ldal i, exec_ldal he i, exec_ldah_loaded he _ _ _, exec_ldal_loaded he _ _ _⟩

/-- Settles O21: the half that LDAH leaves is the half that LDAL loads. -/
theorem ldahLoadsTheHighHalf : Obligations.LdahLoadsTheHighHalf := fun _ i _ he =>
  ⟨decode_ldah i, exec_ldah he i, exec_ldal_loaded he _ _ _, exec_ldah_loaded he _ _ _⟩

end Sys2Proof.Machine

namespace Sys2Proof.Machine

/-! ## BUILD's merges (R162 to R168) -/

/-! ### Extraction takes the least key (R163) -/

/-- The key of `a`, (weight, index), is not after the key of `b` (R163). -/
def KeyLE (a b : QueueEntry) : Prop := a.1.toNat < b.1.toNat ∨ (a.1.toNat = b.1.toNat ∧ a.2 ≤ b.2)

theorem lighter_iff {a b : QueueEntry} :
    lighter a b = true ↔ a.1.toNat < b.1.toNat ∨ (a.1.toNat = b.1.toNat ∧ a.2 < b.2) := by
  simp [lighter, BitVec.lt_def, BitVec.toNat_inj]

theorem keyLE_of_lighter {a b : QueueEntry} (h : lighter a b = true) : KeyLE a b :=
  (lighter_iff.1 h).imp_right fun ⟨hw, hi⟩ => ⟨hw, hi.le⟩

theorem keyLE_of_not_lighter {a b : QueueEntry} (h : ¬lighter a b = true) : KeyLE b a := by
  rw [lighter_iff] at h
  unfold KeyLE
  omega

theorem KeyLE.trans {a b c : QueueEntry} (h : KeyLE a b) (h' : KeyLE b c) : KeyLE a c := by
  unfold KeyLE at *
  omega

theorem extractMin_least {q rest : List QueueEntry} {m : QueueEntry} (h : extractMin q = some (m, rest)) :
    ∀ x ∈ rest, KeyLE m x := by
  induction q generalizing m rest with
  | nil => simp [extractMin] at h
  | cons y ys ih =>
    simp only [extractMin] at h
    cases hy : extractMin ys with
    | none =>
      rw [hy] at h
      cases h
      simp
    | some r =>
      obtain ⟨m', rest'⟩ := r
      rw [hy] at h
      dsimp only at h
      split at h
      next hlt =>
        cases h
        exact List.forall_mem_cons.2 ⟨keyLE_of_lighter hlt, fun x hx => (keyLE_of_lighter hlt).trans (ih hy x hx)⟩
      next hge =>
        cases h
        exact List.forall_mem_cons.2 ⟨keyLE_of_not_lighter hge, ih hy⟩

/-- Settles O22: the least element of the tail is compared with the head. -/
theorem extractMinTakesTheLightest : Obligations.ExtractMinTakesTheLightest := fun _ =>
  ⟨extractMin_none, fun _ _ h => ⟨extractMin_perm h, extractMin_least h⟩⟩

/-! ### One turn of the merge loop (R164) -/

/-- The node made of the two first nodes of the queue (R164). -/
def mergedNode (a b : QueueEntry) : Node := .internal (BitVec.ofNat 10 a.2) (BitVec.ofNat 10 b.2) (a.1 + b.1)

/-- A queue in its order as far as a merge needs it: first `a`, then `b`, then the others (R163). -/
def FirstTwo (a b : QueueEntry) (q : List QueueEntry) : Prop := (∀ x ∈ b :: q, KeyLE a x) ∧ ∀ x ∈ q, KeyLE b x

/-- The loop stops, or it merges the two first of its queue and goes on. -/
theorem mergeLoop_cases (fuel : Nat) (made : List Node) (queue : List QueueEntry) :
    mergeLoop fuel made queue = made ∨ ∃ fuel' a b q, fuel = fuel' + 1 ∧ queue.Perm (a :: b :: q) ∧ FirstTwo a b q ∧
      mergeLoop fuel made queue = mergeLoop fuel' (made ++ [mergedNode a b]) ((a.1 + b.1, made.length) :: q) := by
  cases fuel with
  | zero => exact .inl rfl
  | succ fuel =>
    simp only [mergeLoop]
    cases h1 : extractMin queue with
    | none => exact .inl rfl
    | some r1 =>
      obtain ⟨a, q1⟩ := r1
      dsimp only
      cases h2 : extractMin q1 with
      | none => exact .inl rfl
      | some r2 =>
        obtain ⟨b, q⟩ := r2
        have hp1 := extractMin_perm h1
        have hp2 := extractMin_perm h2
        exact .inr ⟨fuel, a, b, q, rfl, (hp1.symm.trans (hp2.symm.cons a)),
          ⟨fun x hx => extractMin_least h1 x (hp2.mem_iff.1 hx), extractMin_least h2⟩, rfl⟩

/-- The merges keep the nodes made before them. -/
theorem mergeLoop_isPrefix (fuel : Nat) (made : List Node) (queue : List QueueEntry) : made <+: mergeLoop fuel made queue := by
  induction fuel generalizing made queue with
  | zero => exact ⟨[], List.append_nil made⟩
  | succ fuel ih =>
    obtain h | ⟨_, a, b, q, hf, -, -, h⟩ := mergeLoop_cases (fuel + 1) made queue
    · rw [h]
    · cases hf
      rw [h]
      exact List.IsPrefix.trans ⟨[mergedNode a b], rfl⟩ (ih _ _)

/-! ### What the queue is when a node is made (R162, R166) -/

/-- The bound on node weights of R166. -/
def weightBound : Nat := 257 * (2 ^ 32 - 1)

/-- The children of the nodes below m were made before m. -/
def ChildrenBefore (n : NodeStore) (m : Nat) : Prop :=
  ∀ (i l r : NodeIdx) (wt : Weight), i.toNat < m → nodeAt n i = some (.internal l r wt) → l.toNat < m ∧ r.toNat < m

/-- `queue` is BUILD's queue when node m is made, in a store that holds the nodes: it has the waiting nodes, each once
and with its weight, of a sum within the bound (R162, R166). -/
structure Queued (n : NodeStore) (m : Nat) (queue : List QueueEntry) : Prop where
  waits : ∀ x, x ∈ queue.map Prod.snd ↔ WaitsAt n m x
  nodup : (queue.map Prod.snd).Nodup
  weights : ∀ e ∈ queue, weightOfNode n (BitVec.ofNat 10 e.2) = e.1.toNat
  total : (queue.map fun e => e.1.toNat).sum ≤ weightBound
  children : ChildrenBefore n m

/-- Node m is made of the two first nodes that then wait (R164). -/
structure Merges (n : NodeStore) (m : Nat) (a b : QueueEntry) (q : List QueueEntry) : Prop where
  queued : Queued n m (a :: b :: q)
  firstTwo : FirstTwo a b q
  node : nodeAt n (BitVec.ofNat 10 m) = some (mergedNode a b)
  inStore : m < 513

theorem ofNat_toNat_index (i : NodeIdx) : BitVec.ofNat 10 i.toNat = i := by simp

theorem weightOfNode_eq {n : NodeStore} {i : NodeIdx} {nd : Node} (h : nodeAt n i = some nd) :
    weightOfNode n i = (nodeWeight nd).toNat := by
  simp [weightOfNode, h]

theorem Queued.perm {n : NodeStore} {m : Nat} {queue queue' : List QueueEntry} (h : Queued n m queue)
    (hp : queue.Perm queue') : Queued n m queue' where
  waits x := ((hp.map _).mem_iff (a := x)).symm.trans (h.waits x)
  nodup := (hp.map _).nodup_iff.1 h.nodup
  weights e he := h.weights e (hp.mem_iff.2 he)
  total := (hp.map fun e => e.1.toNat).sum_eq ▸ h.total
  children := h.children

/-- When node m is made it waits, and its children do so no longer. -/
theorem waitsAt_succ_iff {n : NodeStore} {m x : Nat} {l r : NodeIdx} {wt : Weight} (hm : m < 513)
    (hnode : nodeAt n (BitVec.ofNat 10 m) = some (.internal l r wt)) (hmade : ChildrenBefore n m) :
    WaitsAt n (m + 1) x ↔ (x = m ∨ WaitsAt n m x) ∧ l.toNat ≠ x ∧ r.toNat ≠ x := by
  have hidx := toNat_ofNat_index hm
  constructor
  · rintro ⟨hx, hfree⟩
    refine ⟨?_, hfree _ l r wt (by omega) hnode⟩
    rcases Nat.lt_succ_iff_lt_or_eq.1 hx with hlt | rfl
    · exact .inr ⟨hlt, fun i l' r' wt' hi => hfree i l' r' wt' (by omega)⟩
    · exact .inl rfl
  · rintro ⟨hx, hl, hr⟩
    refine ⟨hx.elim (by omega) fun h => Nat.lt_succ_of_lt h.1, fun i l' r' wt' hi hi' => ?_⟩
    rcases Nat.lt_succ_iff_lt_or_eq.1 hi with hlt | heq
    · rcases hx with rfl | hx
      · have := hmade i l' r' wt' hlt hi'
        omega
      · exact hx.2 i l' r' wt' hlt hi'
    · rw [BitVec.eq_of_toNat_eq (heq.trans hidx.symm), hnode] at hi'
      cases hi'
      exact ⟨hl, hr⟩

section Merges

variable {n : NodeStore} {m : Nat} {a b : QueueEntry} {q : List QueueEntry}

/-- The children wait when node m is made, so they were made before, and they are two nodes. -/
theorem Merges.children (h : Merges n m a b q) : a.2 < m ∧ b.2 < m ∧ a.2 ≠ b.2 :=
  have hnodup := h.queued.nodup
  ⟨((h.queued.waits a.2).1 (by simp)).1, ((h.queued.waits b.2).1 (by simp)).1, by
    simp only [List.map_cons, List.nodup_cons, List.mem_cons, not_or] at hnodup
    exact hnodup.1.1⟩

theorem Merges.child_index (h : Merges n m a b q) :
    (BitVec.ofNat 10 a.2).toNat = a.2 ∧ (BitVec.ofNat 10 b.2).toNat = b.2 :=
  have ⟨ha, hb, _⟩ := h.children
  ⟨toNat_ofNat_index (ha.trans h.inStore), toNat_ofNat_index (hb.trans h.inStore)⟩

/-- The sum of the two weights is within the bound, so it does not overflow (R166). -/
theorem Merges.weight_add (h : Merges n m a b q) :
    (a.1 + b.1).toNat = a.1.toNat + b.1.toNat ∧ a.1.toNat + b.1.toNat ≤ weightBound := by
  have htotal := h.queued.total
  simp only [List.map_cons, List.sum_cons, weightBound] at htotal ⊢
  exact ⟨BitVec.toNat_add_of_lt (by omega), by omega⟩

theorem Merges.child_weight (h : Merges n m a b q) :
    weightOfNode n (BitVec.ofNat 10 a.2) = a.1.toNat ∧ weightOfNode n (BitVec.ofNat 10 b.2) = b.1.toNat :=
  ⟨h.queued.weights a (by simp), h.queued.weights b (by simp)⟩

/-- The queue after a merge (R164). -/
theorem Merges.next (h : Merges n m a b q) : Queued n (m + 1) ((a.1 + b.1, m) :: q) := by
  obtain ⟨ha, hb, -⟩ := h.children
  obtain ⟨hia, hib⟩ := h.child_index
  have hidx := toNat_ofNat_index h.inStore
  have hwaits := fun x => waitsAt_succ_iff (x := x) h.inStore h.node h.queued.children
  simp only [hia, hib, ← h.queued.waits, List.map_cons, List.mem_cons] at hwaits
  have hnodup := h.queued.nodup
  simp only [List.map_cons, List.nodup_cons, List.mem_cons, not_or] at hnodup
  obtain ⟨⟨-, haq⟩, hbq, hq⟩ := hnodup
  have hqm : ∀ x ∈ q.map Prod.snd, x < m := fun x hx => ((h.queued.waits x).1 (by simp [hx])).1
  refine ⟨fun x => ?_, ?_, ?_, ?_, fun i l r wt hi hnd => ?_⟩
  · rw [hwaits x, List.map_cons, List.mem_cons]
    constructor
    · rintro (rfl | hx)
      · exact ⟨.inl rfl, ha.ne, hb.ne⟩
      · exact ⟨.inr (.inr (.inr hx)), fun h => haq (h ▸ hx), fun h => hbq (h ▸ hx)⟩
    · rintro ⟨hx, hxa, hxb⟩
      exact hx.imp_right fun hx => (hx.resolve_left hxa.symm).resolve_left hxb.symm
  · exact List.nodup_cons.2 ⟨fun hm => (hqm m hm).false, hq⟩
  · exact List.forall_mem_cons.2 ⟨weightOfNode_eq h.node, fun e he => h.queued.weights e (by simp [he])⟩
  · have htotal := h.queued.total
    simp only [List.map_cons, List.sum_cons, h.weight_add.1] at htotal ⊢
    omega
  · rcases Nat.lt_succ_iff_lt_or_eq.1 hi with hlt | heq
    · exact (h.queued.children i l r wt hlt hnd).imp Nat.lt_succ_of_lt Nat.lt_succ_of_lt
    · rw [BitVec.eq_of_toNat_eq (heq.trans hidx.symm), h.node] at hnd
      cases hnd
      omega

/-- Of two nodes in key order with different indices, the first comes before the second (R163). -/
theorem comesBefore_of_keyLE {x y : NodeIdx} (h : KeyLE a b) (ha : weightOfNode n x = a.1.toNat)
    (hb : weightOfNode n y = b.1.toNat) (hx : x.toNat = a.2) (hy : y.toNat = b.2) (hne : a.2 ≠ b.2) : ComesBefore n x y := by
  unfold KeyLE at h
  unfold ComesBefore
  omega

/-- A merge takes the two first of the nodes that wait (R163, R164). -/
theorem Merges.takes_lightest (h : Merges n m a b q) :
    ComesBefore n (BitVec.ofNat 10 a.2) (BitVec.ofNat 10 b.2) ∧
      ∀ x : NodeIdx, WaitsAt n m x.toNat → x ≠ BitVec.ofNat 10 a.2 → x ≠ BitVec.ofNat 10 b.2 →
        ComesBefore n (BitVec.ofNat 10 b.2) x := by
  obtain ⟨hwa, hwb⟩ := h.child_weight
  obtain ⟨hia, hib⟩ := h.child_index
  refine ⟨comesBefore_of_keyLE (h.firstTwo.1 b (by simp)) hwa hwb hia hib h.children.2.2, fun x hx hxa hxb => ?_⟩
  obtain ⟨e, he, hex⟩ := List.mem_map.1 ((h.queued.waits x.toNat).2 hx)
  have hxe : x = BitVec.ofNat 10 e.2 := by rw [hex, ofNat_toNat_index]
  simp only [List.mem_cons] at he
  rcases he with rfl | rfl | heq
  · exact absurd hxe hxa
  · exact absurd hxe hxb
  · refine comesBefore_of_keyLE (h.firstTwo.2 e heq) hwb ?_ hib hex.symm fun hbe => hxb (hbe ▸ hxe)
    rw [hxe]
    exact h.queued.weights e (by simp [heq])

end Merges

/-! ### The nodes in the store -/

/-- A store has the nodes of a list from index 0 on. -/
def HasNodes (n : NodeStore) (made : List Node) : Prop :=
  made.length ≤ 513 ∧ ∀ i : NodeIdx, i.toNat < made.length → nodeAt n i = made[i.toNat]?

theorem HasNodes.get {n : NodeStore} {made : List Node} (h : HasNodes n made) {k : Nat} (hk : k < made.length) :
    nodeAt n (BitVec.ofNat 10 k) = made[k]? := by
  have hidx := toNat_ofNat_index (hk.trans_le h.1)
  rw [h.2 _ (by omega), hidx]

theorem HasNodes.of_isPrefix {n : NodeStore} {made made' : List Node} (h : HasNodes n made') (hp : made <+: made') :
    HasNodes n made := by
  refine ⟨hp.length_le.trans h.1, fun i hi => (h.2 i (hi.trans_le hp.length_le)).trans ?_⟩
  obtain ⟨more, rfl⟩ := hp
  exact List.getElem?_append_left hi

/-- Every node the loop makes is made by a merge. -/
theorem mergeLoop_merges {n : NodeStore} {fuel m : Nat} {made : List Node} {queue : List QueueEntry}
    (hn : HasNodes n (mergeLoop fuel made queue)) (hq : Queued n made.length queue) (hm : made.length ≤ m)
    (hlt : m < (mergeLoop fuel made queue).length) : ∃ a b q, Merges n m a b q := by
  induction fuel generalizing made queue with
  | zero => exact absurd hlt (Nat.not_lt.2 hm)
  | succ fuel ih =>
    obtain h | ⟨_, a, b, q, hf, hp, hfirst, h⟩ := mergeLoop_cases (fuel + 1) made queue
    · rw [h] at hlt
      omega
    · cases hf
      rw [h] at hn hlt
      have hmade := hn.of_isPrefix (mergeLoop_isPrefix _ _ _)
      have hlen : (made ++ [mergedNode a b]).length = made.length + 1 := by simp
      have hmerge : Merges n made.length a b q :=
        ⟨hq.perm hp, hfirst, by rw [hmade.get (by omega)]; simp, by have := hmade.1; omega⟩
      rcases hm.eq_or_lt with rfl | hm
      · exact ⟨a, b, q, hmerge⟩
      · exact ih hn (hlen ▸ hmerge.next) (by omega) hlt

/-! ### BUILD's nodes (R161, R165) -/

section Built

variable {s : State} {n : NodeStore} {w : WeightTable}

theorem leafNodes_length (w : WeightTable) : (leafNodes w).length = (presentSymbols w).length := by simp [leafNodes]

theorem leafQueue_length (w : WeightTable) : (leafQueue (leafNodes w)).length = (presentSymbols w).length := by
  simp [leafQueue_eq]

theorem presentSymbols_ne_nil (hw : weight w 256 ≠ 0#32) : presentSymbols w ≠ [] :=
  List.ne_nil_of_mem (mem_presentSymbols.2 ⟨Nat.le_refl 256, hw⟩)

/-- L leaves and L - 1 merges (R165). -/
theorem builtNodes_length (hw : weight w 256 ≠ 0#32) : (builtNodes w).length = 2 * (presentSymbols w).length - 1 := by
  obtain ⟨_, _, -, -, -, hlen⟩ := builtNodes_tree State.reset.nodes (presentSymbols_ne_nil hw)
  omega

theorem builtNodes_length_le (hw : weight w 256 ≠ 0#32) : (builtNodes w).length ≤ 513 := by
  have := presentSymbols_length_le w
  have := builtNodes_length hw
  omega

theorem storeNodes_hasNodes (n : NodeStore) (hw : weight w 256 ≠ 0#32) :
    HasNodes (storeNodes (builtNodes w) n) (builtNodes w) :=
  ⟨builtNodes_length_le hw, fun i hi => by rw [nodeAt_storeNodes n (builtNodes_length_le hw), if_pos hi]⟩

/-- Leaf k is that of the k-th present symbol (R161). -/
theorem HasNodes.leaf (h : HasNodes n (builtNodes w)) {k sym : Nat} (hk : (presentSymbols w)[k]? = some sym) :
    nodeAt n (BitVec.ofNat 10 k) = some (.leaf (BitVec.ofNat 9 sym) ((weight w sym).setWidth 41)) := by
  obtain ⟨hlt, -⟩ := List.getElem?_eq_some_iff.1 hk
  rw [(h.of_isPrefix (mergeLoop_isPrefix _ _ _)).get (by rwa [leafNodes_length])]
  simp [leafNodes, hk]

/-- The nodes below L are the leaves. -/
theorem HasNodes.exists_leaf (h : HasNodes n (builtNodes w)) {i : NodeIdx} (hi : i.toNat < (presentSymbols w).length) :
    ∃ sym ≤ 256, nodeAt n i = some (.leaf (BitVec.ofNat 9 sym) ((weight w sym).setWidth 41)) := by
  have hk := List.getElem?_eq_getElem hi
  have hleaf := h.leaf hk
  rw [ofNat_toNat_index] at hleaf
  exact ⟨_, (mem_presentSymbols.1 (List.mem_of_getElem? hk)).1, hleaf⟩

theorem leafWeight_toNat (w : WeightTable) (sym : Nat) : ((weight w sym).setWidth 41).toNat = (weight w sym).toNat :=
  BitVec.toNat_setWidth_of_le (by decide)

theorem leafQueue_indices (w : WeightTable) :
    (leafQueue (leafNodes w)).map Prod.snd = List.range (presentSymbols w).length := by
  rw [leafQueue_eq, List.map_map, List.range_eq_range', ← List.zipIdx_map_snd]
  rfl

/-- At most 257 leaves, each of a 32-bit weight (R166). -/
theorem leafQueue_total (w : WeightTable) : ((leafQueue (leafNodes w)).map fun e => e.1.toNat).sum ≤ weightBound := by
  have hsum := List.sum_le_card_nsmul ((leafQueue (leafNodes w)).map fun e => e.1.toNat) (2 ^ 32 - 1) fun x hx => by
    rw [leafQueue_eq, List.map_map] at hx
    obtain ⟨p, -, rfl⟩ := List.mem_map.1 hx
    exact (leafWeight_toNat w p.1).trans_le (Nat.le_sub_one_of_lt (weight w p.1).isLt)
  rw [List.length_map, leafQueue_length, smul_eq_mul] at hsum
  exact hsum.trans (Nat.mul_le_mul_right _ (presentSymbols_length_le w))

/-- At the start all leaves wait (R162). -/
theorem HasNodes.leafQueued (h : HasNodes n (builtNodes w)) :
    Queued n (leafNodes w).length (leafQueue (leafNodes w)) := by
  have hnot : ∀ (i l r : NodeIdx) (wt : Weight), i.toNat < (presentSymbols w).length →
      nodeAt n i ≠ some (.internal l r wt) := fun i l r wt hi hnode => by
    obtain ⟨sym, -, hleaf⟩ := h.exists_leaf hi
    rw [hleaf] at hnode
    cases hnode
  rw [leafNodes_length]
  refine ⟨fun x => ?_, leafQueue_indices w ▸ List.nodup_range, fun e he => ?_, leafQueue_total w,
    fun i l r wt hi hnode => absurd hnode (hnot i l r wt hi)⟩
  · rw [leafQueue_indices, List.mem_range]
    exact ⟨fun hx => ⟨hx, fun i l r wt hi hnode => absurd hnode (hnot i l r wt hi)⟩, And.left⟩
  · rw [leafQueue_eq] at he
    obtain ⟨p, hp, rfl⟩ := List.mem_map.1 he
    exact weightOfNode_eq (h.leaf (List.mem_zipIdx_iff_getElem?.1 hp))

/-- The nodes from L on are made by merges (R164). -/
theorem HasNodes.exists_merges (h : HasNodes n (builtNodes w)) {m : Nat} (hm : (presentSymbols w).length ≤ m)
    (hlt : m < (builtNodes w).length) : ∃ a b q, Merges n m a b q :=
  mergeLoop_merges h h.leafQueued (leafNodes_length w ▸ hm) hlt

/-- Every node made is a leaf of the table or made by a merge. -/
theorem HasNodes.leaf_or_merges (h : HasNodes n (builtNodes w)) {i : NodeIdx} (hi : i.toNat < (builtNodes w).length) :
    (∃ sym ≤ 256, nodeAt n i = some (.leaf (BitVec.ofNat 9 sym) ((weight w sym).setWidth 41))) ∨
      ∃ a b q, Merges n i.toNat a b q ∧ nodeAt n i = some (mergedNode a b) := by
  rcases Nat.lt_or_ge i.toNat (presentSymbols w).length with hlt | hge
  · exact .inl (h.exists_leaf hlt)
  · obtain ⟨a, b, q, hmerge⟩ := h.exists_merges hge hi
    have hnode := hmerge.node
    rw [ofNat_toNat_index] at hnode
    exact .inr ⟨a, b, q, hmerge, hnode⟩

/-- No node weight is above the bound (R166). -/
theorem HasNodes.weight_le (h : HasNodes n (builtNodes w)) {i : NodeIdx} (hi : i.toNat < (builtNodes w).length) :
    weightOfNode n i ≤ weightBound := by
  rcases h.leaf_or_merges hi with ⟨sym, -, hnode⟩ | ⟨a, b, q, hmerge, hnode⟩
  · rw [weightOfNode_eq hnode, nodeWeight, leafWeight_toNat, weightBound]
    have := (weight w sym).isLt
    omega
  · rw [weightOfNode_eq hnode]
    exact hmerge.weight_add.1.trans_le hmerge.weight_add.2

/-- A node's weight is the sum of the weights of the leaves under it (R166). -/
theorem HasNodes.weight_eq_sum (h : HasNodes n (builtNodes w)) {t : Tree} {i : NodeIdx} (hi : i.toNat < (builtNodes w).length)
    (ht : HoldsTree n i t) : weightOfNode n i = (t.leaves.map fun sym => (weight w sym.toNat).toNat).sum := by
  induction t generalizing i with
  | leaf sym' =>
    obtain ⟨wt, ht⟩ := holdsTree_leaf.1 ht
    rcases h.leaf_or_merges hi with ⟨sym, hsym, hnode⟩ | ⟨a, b, q, -, hnode⟩
    · rw [weightOfNode_eq hnode, nodeWeight, leafWeight_toNat]
      rw [hnode] at ht
      cases ht
      rw [Tree.leaves, List.map_singleton, List.sum_singleton, BitVec.toNat_ofNat, Nat.mod_eq_of_lt (by omega)]
    · rw [hnode] at ht
      cases ht
  | node tl tr ihl ihr =>
    obtain ⟨l, r, wt, ht, hl, hr⟩ := holdsTree_node.1 ht
    rcases h.leaf_or_merges hi with ⟨sym, -, hnode⟩ | ⟨a, b, q, hmerge, hnode⟩
    · rw [hnode] at ht
      cases ht
    · rw [weightOfNode_eq hnode]
      rw [hnode] at ht
      cases ht
      obtain ⟨ha, hb, -⟩ := hmerge.children
      obtain ⟨hia, hib⟩ := hmerge.child_index
      obtain ⟨hwa, hwb⟩ := hmerge.child_weight
      rw [Tree.leaves, List.map_append, List.sum_append, ← ihl (by omega) hl, ← ihr (by omega) hr, hwa, hwb]
      exact hmerge.weight_add.1

/-- BUILD's outcome when the EOS weight is not 0. -/
theorem exec_build (he : s.err = false) (hw : weight s.w 256 ≠ 0#32) : exec .build s =
    .next (complete { builtState s with result := BitVec.ofNat 32 ((builtNodes s.w).length - 1) }) :=
  execBuild_eq he hw

theorem exec_build_eosMissing (he : s.err = false) (hw : weight s.w 256 = 0#32) :
    exec .build s = .next (errorState 0x20#8 .eosMissing s) :=
  (command_runs he rfl).trans (require_fails (by simpa [Config.eos] using hw))

end Built

/-! ### The obligations -/

/-- Settles O23: L - 1 merges make L - 1 nodes after the leaves (`builtNodes_length`), which stay (`mergeLoop_isPrefix`). -/
theorem buildCountsItsNodes : Obligations.BuildCountsItsNodes := by
  intro s he hw
  have hpos := List.length_pos_iff.2 (presentSymbols_ne_nil hw)
  have hle := presentSymbols_length_le s.w
  have hlen := builtNodes_length hw
  refine ⟨hpos, hle, by omega, storeNodes (builtNodes s.w) s.nodes, ?_, fun i hi => ?_, fun k sym hk =>
    (storeNodes_hasNodes s.nodes hw).leaf hk⟩
  · rw [exec_build he hw, builtState, hlen, leafNodes_length, Nat.sub_sub]
  · rw [nodeAt_storeNodes s.nodes (builtNodes_length_le hw), if_neg (by omega)]

/-- Settles O24: node m is made from the queue that then waits (`mergeLoop_merges`). -/
theorem buildMergesTheTwoLightest : Obligations.BuildMergesTheTwoLightest := by
  intro s he hw
  refine ⟨_, exec_build he hw, fun m hm hlt => ?_⟩
  obtain ⟨a, b, q, h⟩ := (storeNodes_hasNodes s.nodes hw).exists_merges hm (builtNodes_length hw ▸ hlt)
  obtain ⟨hwa, hwb⟩ := h.child_weight
  obtain ⟨hia, hib⟩ := h.child_index
  obtain ⟨hfirst, hothers⟩ := h.takes_lightest
  refine ⟨_, _, _, h.node, ?_, ?_, ?_, hfirst, hothers⟩
  · exact h.weight_add.1.trans (congrArg₂ _ hwa.symm hwb.symm)
  · exact (h.queued.waits _).1 (by simp [hia])
  · exact (h.queued.waits _).1 (by simp [hib])

/-- Settles O26: by induction on the tree under the node; no sum of the queue overflows (`Queued.total`). -/
theorem buildSumsWeightsExactly : Obligations.BuildSumsWeightsExactly := by
  intro s he hw
  have h := storeNodes_hasNodes s.nodes hw
  refine ⟨_, exec_build he hw, fun i T hi hT => ?_⟩
  have hi : i.toNat < (builtNodes s.w).length := hi.trans_le (Nat.mod_le _ _)
  exact ⟨h.weight_eq_sum hi hT, h.weight_le hi⟩

/-- Settles O27: the nodes below NODECNT are those of the list, which W determines. -/
theorem buildDependsOnWeightsOnly : Obligations.BuildDependsOnWeightsOnly := by
  refine ⟨fun s s' he he' hw hww => ?_, fun s he hw => exec_build_eosMissing he hw⟩
  have hw' : weight s'.w 256 ≠ 0#32 := hww ▸ hw
  refine ⟨_, _, exec_build he hw, exec_build he' hw', ?_, ?_, ?_, fun i hi => ?_⟩
  · simp only [complete_nodecnt, builtState, hww]
  · simp only [complete_root, builtState, hww]
  · simp only [complete_leafcnt, builtState, hww]
  · have hi : i.toNat < (builtNodes s.w).length := hi.trans_le (Nat.mod_le _ _)
    calc nodeAt (storeNodes (builtNodes s.w) s.nodes) i
        = (builtNodes s.w)[i.toNat]? := (storeNodes_hasNodes s.nodes hw).2 i hi
      _ = (builtNodes s'.w)[i.toNat]? := by rw [hww]
      _ = nodeAt (storeNodes (builtNodes s'.w) s'.nodes) i := ((storeNodes_hasNodes s'.nodes hw').2 i (hww ▸ hi)).symm

end Sys2Proof.Machine

/-! ## A header's nodes, read one by one (R120, R183, R184) -/

namespace Sys2Proof.Machine

section Feed

variable {σ ρ : Type} {f : σ → Bool → σ ⊕ ρ}

/-- What becomes of the bits that are left once a reader has gone on to a state, or has its result. -/
def feedOn (f : σ → Bool → σ ⊕ ρ) (bits : Bits) : σ ⊕ ρ → Feed σ ρ
  | .inl st => feed f st bits
  | .inr r => .done r bits

theorem feed_cons (st : σ) (b : Bool) (bits : Bits) : feed f st (b :: bits) = feedOn f bits (f st b) := by
  rw [feed]
  cases f st b <;> rfl

end Feed

/-! ### One node's bits -/

/-- A leaf's field ends with its last bit, with the value of all its bits (R183). -/
theorem feed_field {p : Parse} {nodes : NodeStore} {field : Bits} (v : Nat) (rest : Bits) (hne : field ≠ []) :
    feed parseBit ({ p with field := some (field.length, v) }, nodes) (field ++ rest) =
      feedOn parseBit rest (closeLeaf p (field.foldl pushBit v) nodes) := by
  induction field generalizing v with
  | nil => exact absurd rfl hne
  | cons b bs ih =>
    rw [List.cons_append, feed_cons]
    by_cases hbs : bs = []
    · subst hbs
      rfl
    · have hlen : ¬bs.length + 1 ≤ 1 := by simpa using hbs
      simpa [parseBit, hlen, feedOn] using ih (pushBit v b) hbs

/-- A leaf's field is not complete before its last bit (R187). -/
theorem feed_field_dry {p : Parse} {nodes : NodeStore} {missing v : Nat} {bits : Bits} (h : bits.length < missing) :
    ∃ st, feed parseBit ({ p with field := some (missing, v) }, nodes) bits = .dry st := by
  induction bits generalizing missing v with
  | nil => exact ⟨_, rfl⟩
  | cons b bits ih =>
    rw [List.length_cons] at h
    obtain ⟨st, hst⟩ := ih (missing := missing - 1) (v := pushBit v b) (by omega)
    refine ⟨st, ?_⟩
    simpa [feed_cons, parseBit, show ¬missing ≤ 1 by omega, feedOn] using hst

/-- A leaf's ten bits, between two nodes (R183). -/
theorem feed_leaf {p : Parse} {nodes : NodeStore} {v : Nat} (rest : Bits) (hf : p.field = none) (hn : p.n ≠ 513)
    (hv : v < 2 ^ 9) : feed parseBit (p, nodes) (true :: msbBits 9 v ++ rest) =
      feedOn parseBit rest (closeLeaf { p with n := p.n + 1 } v nodes) := by
  have hfield := feed_field (p := { p with n := p.n + 1 }) (nodes := nodes) (field := msbBits 9 v) 0 rest
    (List.ne_nil_of_length_pos (by simp))
  rw [msbBits_length, ← bitsValue, bitsValue_msbBits, Nat.mod_eq_of_lt hv] at hfield
  rw [List.cons_append, feed_cons, parseBit_leaf hf hn]
  exact hfield

theorem feed_internal {p : Parse} {nodes : NodeStore} (rest : Bits) (hf : p.field = none) (hn : p.n ≠ 513) :
    feed parseBit (p, nodes) (false :: rest) = feed parseBit (beginInternal p, nodes) rest := by
  rw [feed_cons, parseBit_internal hf hn]
  rfl

/-- A parse whose last subtree has been handed on: it goes on with `n` nodes and `leaves` leaves, or has the whole tree. -/
def subtreeClosed (n leaves : Nat) : (List Frame × NodeStore) ⊕ (Nat × NodeStore) → (Parse × NodeStore) ⊕ ParseEnd :=
  Sum.map (fun r => (⟨r.1, n, leaves, none, false⟩, r.2)) fun r => .tree r.1 n leaves r.2

theorem closeLeaf_symbol {fs : List Frame} {n leaves v : Nat} {field : Option (Nat × Nat)} {nodes : NodeStore}
    (hv : v ≤ 256) : closeLeaf ⟨fs, n + 1, leaves, field, false⟩ v nodes = subtreeClosed (n + 1) (leaves + 1)
      (closeSubtree n fs (nodes.setIfInBounds n (.leaf (BitVec.ofNat 9 v) 0#41))) := by
  simp only [closeLeaf, if_neg (Nat.not_lt.2 hv), Nat.add_sub_cancel, Bool.false_eq_true, if_false]
  cases closeSubtree n fs (nodes.setIfInBounds n (.leaf (BitVec.ofNat 9 v) 0#41)) <;> rfl

theorem closeLeaf_badSymbol {p : Parse} {v : Nat} {nodes : NodeStore} (hv : 256 < v) :
    closeLeaf p v nodes = .inr .badSymbol := if_pos hv

/-! ### The tree a header leaves in N (R183, R186) -/

/-- The store once a tree is in it in pre-order from index `n` on, every weight 0: what `feed_header` says DES writes. -/
def storeTree : Nat → Tree → NodeStore → NodeStore
  | n, .leaf sym, nodes => nodes.setIfInBounds n (.leaf sym 0#41)
  | n, .node l r, nodes => (storeTree (n + 1 + l.size) r (storeTree (n + 1) l nodes)).setIfInBounds n
      (.internal (BitVec.ofNat 10 (n + 1)) (BitVec.ofNat 10 (n + 1 + l.size)) 0#41)

theorem nodeAt_storeTree_outside {t : Tree} {n : Nat} {nodes : NodeStore} {j : NodeIdx}
    (h : j.toNat < n ∨ n + t.size ≤ j.toNat) : nodeAt (storeTree n t nodes) j = nodeAt nodes j := by
  induction t generalizing n nodes with
  | leaf sym =>
    simp only [Tree.size] at h
    rw [storeTree, nodeAt_set, if_neg (by omega)]
  | node l r ihl ihr =>
    simp only [Tree.size] at h
    rw [storeTree, nodeAt_set, if_neg (by omega), ihr (by omega), ihl (by omega)]

/-- The indices of a tree stored from `n` on: the root, the left subtree's, the right subtree's. -/
theorem range'_node_size (n : Nat) (l r : Tree) : List.range' n (Tree.node l r).size =
    n :: (List.range' (n + 1) l.size ++ List.range' (n + 1 + l.size) r.size) := by
  rw [Tree.size, List.range'_succ, List.range'_append_1]

theorem nodeAt_set_ofNat_ne {nodes : NodeStore} {i j : Nat} {nd : Node} (hj : j < 513) (h : i ≠ j) :
    nodeAt (nodes.setIfInBounds i nd) (BitVec.ofNat 10 j) = nodeAt nodes (BitVec.ofNat 10 j) := by
  rw [nodeAt_set, toNat_ofNat_index hj, if_neg h]

theorem spans_storeTree {t : Tree} {n : Nat} {nodes : NodeStore} (h : n + t.size ≤ 513) :
    Spans (storeTree n t nodes) (BitVec.ofNat 10 n) t ((List.range' n t.size).map (BitVec.ofNat 10)) := by
  induction t generalizing n nodes with
  | leaf sym => exact .leaf (nodeAt_set_self h)
  | node l r ihl ihr =>
    simp only [Tree.size] at h
    rw [range'_node_size, List.map_cons, List.map_append]
    -- The root is written last and the right subtree after the left: neither touches what stands already.
    refine .node (nodeAt_set_self (by omega)) ((ihl (nodes := nodes) (by omega)).congr (List.forall_mem_map.2 fun j hj => ?_))
      ((ihr (nodes := storeTree (n + 1) l nodes) (by omega)).congr (List.forall_mem_map.2 fun j hj => ?_))
    · obtain ⟨hlo, hhi⟩ := List.mem_range'_1.1 hj
      have hidx := toNat_ofNat_index (show j < 513 by omega)
      rw [storeTree, nodeAt_set_ofNat_ne (by omega) (by omega), nodeAt_storeTree_outside (by omega)]
    · obtain ⟨hlo, hhi⟩ := List.mem_range'_1.1 hj
      rw [storeTree, nodeAt_set_ofNat_ne (by omega) (by omega)]

theorem weightOfNode_storeTree {t : Tree} {n : Nat} {nodes : NodeStore} {j : NodeIdx} (hlo : n ≤ j.toNat)
    (hhi : j.toNat < n + t.size) : weightOfNode (storeTree n t nodes) j = 0 := by
  induction t generalizing n nodes with
  | leaf sym =>
    simp only [Tree.size] at hhi
    rw [weightOfNode, storeTree, nodeAt_set, if_pos (by omega)]
    split <;> rfl
  | node l r ihl ihr =>
    simp only [Tree.size] at hhi
    rw [weightOfNode, storeTree, nodeAt_set]
    split
    · split <;> rfl
    · rw [← weightOfNode]
      by_cases hleft : j.toNat < n + 1 + l.size
      · rw [weightOfNode, nodeAt_storeTree_outside (.inl hleft), ← weightOfNode]
        exact ihl (by omega) hleft
      · exact ihr (by omega) (by omega)

/-- Fed a tree's header between two nodes, DES stores the tree and hands it to the innermost pending node (R183, R186). -/
theorem feed_header {t : Tree} {fs : List Frame} {n leaves : Nat} {nodes : NodeStore} (rest : Bits) (hl : LegalSymbols t)
    (hn : n + t.size ≤ 513) (hfs : fs.length + t.depth ≤ 257) :
    feed parseBit (⟨fs, n, leaves, none, false⟩, nodes) (t.header ++ rest) = feedOn parseBit rest
      (subtreeClosed (n + t.size) (leaves + t.leaves.length) (closeSubtree n fs (storeTree n t nodes))) := by
  induction t generalizing fs n leaves nodes rest with
  | leaf sym =>
    simp only [Tree.size] at hn
    have hsym : sym.toNat ≤ 256 := hl sym (List.mem_singleton_self sym)
    rw [Tree.header, Config.symBits, feed_leaf rest rfl (show n ≠ 513 by omega) sym.isLt, closeLeaf_symbol hsym,
      BitVec.ofNat_toNat, BitVec.setWidth_eq]
    rfl
  | node l r ihl ihr =>
    have hpos := l.size_pos
    simp only [Tree.size, Tree.depth] at hn hfs
    have hleft : LegalSymbols l := fun sym h => hl sym (List.mem_append_left _ h)
    have hright : LegalSymbols r := fun sym h => hl sym (List.mem_append_right _ h)
    rw [Tree.header, List.cons_append, List.append_assoc, feed_internal _ rfl (show n ≠ 513 by omega),
      beginInternal_pushes rfl (show fs.length < 257 by omega),
      ihl (n := n + 1) _ hleft (by omega) (by simp only [List.length_cons]; omega)]
    have hr := ihr (fs := .right n (BitVec.ofNat 10 (n + 1)) :: fs) (n := n + 1 + l.size)
      (leaves := leaves + l.leaves.length) (nodes := storeTree (n + 1) l nodes) rest hright (by omega)
      (by simp only [List.length_cons]; omega)
    have hsize : n + (Tree.node l r).size = n + 1 + l.size + r.size := by simp only [Tree.size]; omega
    rw [hsize, Tree.leaves, List.length_append, ← Nat.add_assoc]
    exact hr

/-! ### What DES makes of the end of its parse (R185, R187) -/

section Des

variable {s : State} {used rest : Bits}

theorem exec_des (he : s.err = false) : exec .des s = desTake Parse.start s.incnt (desClear s) := by
  rw [exec, execDes, command_runs he rfl]

/-- DES's reader ends with a result on a port that gives its bits. -/
theorem takeBits_desClear {r : ParseEnd} (hg : InputGives s used rest)
    (hf : feed parseBit (Parse.start, s.nodes) (used ++ rest) = .done r rest) :
    takeBits parseBit (Parse.start, (desClear s).nodes) (desClear s) = .done r (taken used.length rest (desClear s)) :=
  takeBits_done (s := desClear s) hg.1 hg.2 hf

theorem exec_des_tree {root n leaves : Nat} {nodes : NodeStore} (he : s.err = false) (hg : InputGives s used rest)
    (hf : feed parseBit (Parse.start, s.nodes) (used ++ rest) = .done (.tree root n leaves nodes) rest) :
    exec .des s = .next (complete { taken used.length rest s with
      nodes := nodes
      nodecnt := BitVec.ofNat 10 n
      root := BitVec.ofNat 10 root
      leafcnt := BitVec.ofNat 9 leaves
      treeValid := true
      tableValid := false
      decActive := false
      decDone := false
      result := BitVec.ofNat 32 used.length }) := by
  have hcount : s.incnt + BitVec.ofNat 32 used.length - s.incnt = BitVec.ofNat 32 used.length := by
    rw [BitVec.add_comm, BitVec.add_sub_cancel]
  rw [exec_des he, desTake, takeBits_desClear hg hf, ← hcount]
  rfl

/-- DES raises `e` with `k` bits taken and `rest` left; the tree is gone, and N is free (R187, U3; log 4). -/
def DesRefuses (s : State) (k : Nat) (rest : Bits) (e : ErrCode) : Prop := ∃ n' d, exec .des s =
  .next (errorState 0x31#8 e { desClear (taken k rest s) with nodes := n', draws := d })

theorem desRefuses_of_desFail {k : Nat} {e : ErrCode} (h : exec .des s = desFail e (taken k rest (desClear s))) :
    DesRefuses s k rest e := ⟨_, _, h⟩

theorem desRefuses_badSymbol (he : s.err = false) (hg : InputGives s used rest)
    (hf : feed parseBit (Parse.start, s.nodes) (used ++ rest) = .done .badSymbol rest) :
    DesRefuses s used.length rest .hdrBadSymbol :=
  desRefuses_of_desFail (by rw [exec_des he, desTake, takeBits_desClear hg hf])

theorem desRefuses_nodeOverflow (he : s.err = false) (hg : InputGives s used rest)
    (hf : feed parseBit (Parse.start, s.nodes) (used ++ rest) = .done .nodeOverflow rest) :
    DesRefuses s used.length rest .nodeOverflow :=
  desRefuses_of_desFail (by rw [exec_des he, desTake, takeBits_desClear hg hf])

theorem desRefuses_truncHeader {st : Parse × NodeStore} (he : s.err = false) (hio : s.inp.ioErr = false)
    (hend : s.inp.ended = true) (hf : feed parseBit (Parse.start, s.nodes) s.inp.bits = .dry st) :
    DesRefuses s s.inp.bits.length [] .truncHeader := by
  have htake : takeBits parseBit (Parse.start, (desClear s).nodes) (desClear s) =
      .ended st (taken s.inp.bits.length [] (desClear s)) := takeBits_ended (s := desClear s) hio hend hf
  exact desRefuses_of_desFail (by rw [exec_des he, desTake, htake])

end Des

/-- Settles O30: at the start of a parse no node is pending, so the tree stored from index 0 on is the whole one
(`feed_header`); its depth fits the stack (`Tree.depth_le_size`). -/
theorem desReadsTheHeader : Obligations.DesReadsTheHeader := by
  intro s T rest he hg hsize hl
  have hdepth := T.depth_le_size
  have hfeed := feed_header (fs := []) (n := 0) (leaves := 0) (nodes := s.nodes) rest hl (by omega)
    (by simp only [List.length_nil]; omega)
  simp only [closeSubtree, Nat.zero_add] at hfeed
  refine ⟨storeTree 0 T s.nodes, exec_des_tree he hg hfeed, ?_, fun i hi => ?_, fun i hi => ?_⟩
  · rw [List.range_eq_range']
    exact spans_storeTree (by omega)
  · exact weightOfNode_storeTree (Nat.zero_le _) (by omega)
  · exact nodeAt_storeTree_outside (.inr (by omega))

/-- Settles O33: what SER gives is the header (`serGivesTheHeader`), and DES stores the header's tree
(`desReadsTheHeader`). -/
theorem serThenDesKeepsTheTree : Obligations.SerThenDesKeepsTheTree := by
  intro s r T rest he hv hd hout her
  obtain ⟨hT, hsize, hl, -⟩ := hd.bounds
  refine ⟨_, (serGivesTheHeader s he).2 T hv hT hsize hout, T.header, rfl, fun hg => ?_⟩
  obtain ⟨n', hdes, hspans, -, -⟩ := desReadsTheHeader r T rest her hg hsize hl
  have hcount := T.size_add_one
  refine ⟨_, hdes, rfl, ⟨_, hspans, ?_, ?_, hl⟩, rfl⟩
  · have hidx : ((List.range T.size).map fun k => BitVec.ofNat 10 k).map BitVec.toNat = List.range T.size := by
      rw [List.map_map]
      exact (List.map_congr_left fun k hk => toNat_ofNat_index ((List.mem_range.1 hk).trans_le hsize)).trans (List.map_id _)
    simp only [complete_nodecnt, BitVec.toNat_ofNat]
    rw [hidx, Nat.mod_eq_of_lt (by omega)]
  · simp only [complete_leafcnt, BitVec.toNat_ofNat]
    omega

end Sys2Proof.Machine

/-! ## Headers that DES cannot complete (R183, R184, R187) -/

namespace Sys2Proof.Machine

/-- How many subtrees are still to be read after the one being read: one for each node that waits for its left subtree. -/
def subtreesAfter : List Frame → Nat
  | [] => 0
  | .left _ :: fs => subtreesAfter fs + 1
  | .right _ _ :: fs => subtreesAfter fs

/-- The parse stands between two nodes, or in a leaf's field, with `m` subtrees still to be read, the present one among them; one
that has given up its stack waits for any number (log 14). -/
def Awaits (p : Parse) (m : Nat) : Prop := p.tooDeep = true ∨ subtreesAfter p.frames + 1 = m

theorem closeSubtree_continues {fs : List Frame} {idx m : Nat} {nodes : NodeStore} (h : subtreesAfter fs = m + 1) :
    ∃ fs' nodes', closeSubtree idx fs nodes = .inl (fs', nodes') ∧ subtreesAfter fs' = m := by
  induction fs generalizing idx nodes with
  | nil => cases h
  | cons f fs ih =>
    cases f with
    | left i => exact ⟨_, _, rfl, Nat.succ.inj h⟩
    | right i l => exact ih h

/-- A legal leaf leaves one subtree fewer to be read, and the parse goes on if there is another. -/
theorem closeLeaf_continues {p : Parse} {v m : Nat} {nodes : NodeStore} (hv : v ≤ 256) (hp : Awaits p (m + 2)) :
    ∃ p' nodes', closeLeaf p v nodes = .inl (p', nodes') ∧ p'.field = none ∧ p'.n = p.n ∧ Awaits p' (m + 1) := by
  obtain ⟨fs, n, leaves, field, deep⟩ := p
  simp only [closeLeaf, if_neg (Nat.not_lt.2 hv)]
  cases deep with
  | true => exact ⟨_, _, rfl, rfl, rfl, .inl rfl⟩
  | false =>
    obtain ⟨fs', nodes', hclose, hafter⟩ := closeSubtree_continues (idx := n - 1)
      (nodes := nodes.setIfInBounds (n - 1) (.leaf (BitVec.ofNat 9 v) 0#41))
      (Nat.succ.inj (hp.resolve_left Bool.false_ne_true))
    simp only [Bool.false_eq_true, if_false, hclose]
    exact ⟨_, _, rfl, rfl, rfl, .inr (congrArg (· + 1) hafter)⟩

/-- An internal node leaves its two subtrees to be read in its place, whether its stack has room or not. -/
theorem beginInternal_awaits {p : Parse} {m : Nat} (hp : Awaits p (m + 1)) :
    (beginInternal p).field = none ∧ (beginInternal p).n = p.n + 1 ∧ Awaits (beginInternal p) (m + 2) := by
  unfold beginInternal
  split
  · exact ⟨rfl, rfl, .inl rfl⟩
  · next hdeep =>
    have hnot : ¬p.tooDeep = true := fun h => hdeep (by simp [h])
    exact ⟨rfl, rfl, .inr (congrArg (· + 1) (hp.resolve_left hnot))⟩

/-- Fed some nodes of the trees it waits for, but not all, with legal symbols and room in N, the parse stands before the next
node, however deep they are (R183, R184; log 14). -/
theorem feed_nodes {k : Nat} {ts : List Tree} {p : Parse} {nodes : NodeStore} (hf : p.field = none)
    (hp : Awaits p ts.length) (hk : k < (ts.flatMap Tree.nodeBits).length) (hn : p.n + k ≤ 513)
    (hl : ∀ sym : Sym, true :: msbBits 9 sym.toNat ∈ (ts.flatMap Tree.nodeBits).take k → sym.toNat ≤ 256) :
    ∃ p' nodes', feed parseBit (p, nodes) ((ts.flatMap Tree.nodeBits).take k).flatten = .dry (p', nodes') ∧
      p'.field = none ∧ p'.n = p.n + k := by
  induction k generalizing ts p nodes with
  | zero => exact ⟨p, nodes, rfl, hf, rfl⟩
  | succ k ih =>
    cases ts with
    | nil => cases hk
    | cons t ts =>
      cases t with
      | leaf sym =>
        simp only [List.flatMap_cons, Tree.nodeBits, List.cons_append, List.nil_append, List.length_cons, List.take_succ_cons,
          List.flatten_cons, Config.symBits] at hk hp hl ⊢
        have hk : k < (ts.flatMap Tree.nodeBits).length := Nat.lt_of_succ_lt_succ hk
        obtain ⟨t', ts', rfl⟩ := List.exists_cons_of_ne_nil (show ts ≠ [] by rintro rfl; cases hk)
        obtain ⟨p', nodes', hclose, hf', (hn' : p'.n = p.n + 1), hp'⟩ := closeLeaf_continues
          (p := { p with n := p.n + 1 }) (nodes := nodes) (hl sym List.mem_cons_self) hp
        obtain ⟨q, nq, hq, hqf, hqn⟩ := ih (nodes := nodes') (ts := t' :: ts') hf' hp' hk (by omega)
          fun sym' h => hl sym' (List.mem_cons_of_mem _ h)
        refine ⟨q, nq, ?_, hqf, by omega⟩
        rw [← List.cons_append, feed_leaf _ hf (by omega) sym.isLt, hclose]
        exact hq
      | node l r =>
        have hnodes : (Tree.node l r :: ts).flatMap Tree.nodeBits = [false] :: (l :: r :: ts).flatMap Tree.nodeBits := by
          simp [Tree.nodeBits]
        rw [hnodes] at hk hl ⊢
        obtain ⟨hf', hn', hp'⟩ := beginInternal_awaits hp
        obtain ⟨q, nq, hq, hqf, hqn⟩ := ih (nodes := nodes) (ts := l :: r :: ts) hf' hp' (Nat.lt_of_succ_lt_succ hk)
          (by omega) fun sym' h => hl sym' (List.mem_cons_of_mem _ h)
        refine ⟨q, nq, ?_, hqf, by omega⟩
        rw [List.take_succ_cons, List.flatten_cons, List.singleton_append, feed_internal _ hf (by omega)]
        exact hq

/-- Fed the first nodes of a header from its start, but not all, the parse stands before the next one. -/
theorem feed_nodes_start {k : Nat} {t : Tree} (nodes : NodeStore) (hk : k < t.size) (hcap : k ≤ 513)
    (hl : ∀ sym : Sym, true :: msbBits 9 sym.toNat ∈ t.nodeBits.take k → sym.toNat ≤ 256) :
    ∃ p nodes', feed parseBit (Parse.start, nodes) (t.nodeBits.take k).flatten = .dry (p, nodes') ∧
      p.field = none ∧ p.n = k := by
  have h := feed_nodes (ts := [t]) (nodes := nodes) (p := Parse.start) rfl (.inr rfl) (k := k)
  simpa [Parse.start] using h (by simpa using hk) (by simpa [Parse.start] using hcap) (by simpa using hl)

/-- The bits of a node: one shape bit, and for a leaf the field of one of the tree's symbols (R120). -/
theorem Tree.mem_nodeBits {t : Tree} {bits : Bits} (h : bits ∈ t.nodeBits) :
    bits = [false] ∨ ∃ sym ∈ t.leaves, bits = true :: msbBits 9 sym.toNat := by
  induction t with
  | leaf sym => exact .inr ⟨sym, List.mem_singleton_self sym, List.mem_singleton.1 h⟩
  | node l r ihl ihr =>
    rcases List.mem_cons.1 h with rfl | h
    · exact .inl rfl
    rcases List.mem_append.1 h with h | h
    · exact (ihl h).imp_right fun ⟨sym, hs, e⟩ => ⟨sym, List.mem_append_left _ hs, e⟩
    · exact (ihr h).imp_right fun ⟨sym, hs, e⟩ => ⟨sym, List.mem_append_right _ hs, e⟩

theorem LegalSymbols.nodeBits {t : Tree} (hl : LegalSymbols t) {sym : Sym} (h : true :: msbBits 9 sym.toNat ∈ t.nodeBits) :
    sym.toNat ≤ 256 := by
  rcases Tree.mem_nodeBits h with h | ⟨sym', hs, h⟩
  · cases h
  · rw [msbBits_inj sym.isLt sym'.isLt (List.cons.inj h).2]
    exact hl sym' hs

/-- Settles O32: after its 9 bits a bad field is refused (`feed_leaf`), as is any bit after 513 nodes; a header of more nodes
comes to that bit, since its parse goes on before each of them (`feed_nodes_start`). -/
theorem desRefusesBadHeaders : Obligations.DesRefusesBadHeaders := by
  intro s rest he
  have overflows : ∀ (bits : Bits) (p : Parse) (nodes : NodeStore),
      feed parseBit (Parse.start, s.nodes) bits = .dry (p, nodes) → p.field = none → p.n = 513 → ∀ b,
      InputGives s (bits ++ [b]) rest → DesRefuses s (bits.length + 1) rest .nodeOverflow := by
    intro bits p nodes hdry hf hn b hg
    have hfeed : feed parseBit (Parse.start, s.nodes) (bits ++ [b] ++ rest) = .done .nodeOverflow rest := by
      rw [List.append_assoc, feed_append_of_dry _ hdry, List.singleton_append, feed_cons, parseBit_full b hf hn, feedOn]
    simpa using desRefuses_nodeOverflow he hg hfeed
  refine ⟨fun bits p nodes hdry hf => ⟨fun hn v hv hv9 hg => ?_, fun hn => overflows bits p nodes hdry hf hn⟩,
    fun T b hl hsize hg => ?_⟩
  · have hfeed : feed parseBit (Parse.start, s.nodes) (bits ++ true :: msbBits 9 v ++ rest) = .done .badSymbol rest := by
      rw [List.append_assoc, feed_append_of_dry _ hdry, feed_leaf _ hf (by omega) hv9, closeLeaf_badSymbol hv, feedOn]
    have h := desRefuses_badSymbol he hg hfeed
    rwa [DesRefuses, List.length_append, List.length_cons, msbBits_length] at h
  · obtain ⟨p, nodes, hdry, hf, hn⟩ := feed_nodes_start s.nodes hsize le_rfl
      fun sym h => hl.nodeBits (List.mem_of_mem_take h)
    exact overflows _ p nodes hdry hf hn b hg

/-- A proper beginning of some strings laid end to end ends inside one of them: after the first k, and before the end of the
next. -/
theorem exists_take_of_append_eq_flatten {α : Type} {L : List (List α)} {bits more : List α} (h : L.flatten = bits ++ more)
    (hmore : more ≠ []) : ∃ k part later, L[k]? = some (part ++ later) ∧ later ≠ [] ∧
      bits = (L.take k).flatten ++ part := by
  induction L generalizing bits with
  | nil => exact absurd (List.append_eq_nil_iff.1 h.symm).2 hmore
  | cons x L ih =>
    -- Where the beginning holds all of x, the rest of it is a beginning of the other strings.
    have after : ∀ c, bits = x ++ c → L.flatten = c ++ more → ∃ k part later, (x :: L)[k]? = some (part ++ later) ∧
        later ≠ [] ∧ bits = ((x :: L).take k).flatten ++ part := by
      intro c hbits hL
      obtain ⟨k, part, later, hk, hlater, hc⟩ := ih hL
      exact ⟨k + 1, part, later, hk, hlater, by simp [hbits, hc]⟩
    rcases List.append_eq_append_iff.1 (List.flatten_cons.symm.trans h) with ⟨c, hbits, hL⟩ | ⟨later, hx, hL⟩
    · exact after c hbits hL
    · by_cases hlater : later = []
      · exact after [] (by simpa [hlater] using hx.symm) (by simpa [hlater] using hL.symm)
      · exact ⟨0, bits, later, congrArg some hx, hlater, rfl⟩

/-- A proper beginning of a node's bits leaves the parse unfinished where N has room for the node (R187). -/
theorem feed_part_of_node {p : Parse} {nodes : NodeStore} {t : Tree} {part later : Bits} (hf : p.field = none)
    (hn : p.n ≠ 513) (h : part ++ later ∈ t.nodeBits) (hlater : later ≠ []) :
    ∃ st, feed parseBit (p, nodes) part = .dry st := by
  cases part with
  | nil => exact ⟨_, rfl⟩
  | cons b part =>
    have hpos := List.length_pos_iff.2 hlater
    rcases Tree.mem_nodeBits h with h | ⟨sym, -, h⟩
    · exact absurd (List.append_eq_nil_iff.1 (List.cons.inj h).2).2 hlater
    · obtain ⟨rfl, hbits⟩ := List.cons.inj ((List.cons_append).symm.trans h)
      have hlen := congrArg List.length hbits
      rw [List.length_append, msbBits_length] at hlen
      rw [feed_cons, parseBit_leaf hf hn]
      exact feed_field_dry (p := { p with n := p.n + 1 }) (missing := 9) (by omega)

/-- An unfinished beginning of a header that completes no bad field and takes no 514th shape bit leaves the parse unfinished: it
ends between two nodes or inside a field. -/
theorem feed_unfinished {t : Tree} {bits more : Bits} (nodes : NodeStore) (hbits : t.header = bits ++ more)
    (hmore : more ≠ []) (hcap : bits.length ≤ (t.nodeBits.take 513).flatten.length)
    (hl : ∀ k v, 256 < v → v < 512 → t.nodeBits[k]? = some (true :: msbBits 9 v) →
      bits.length < (t.nodeBits.take (k + 1)).flatten.length) :
    ∃ st, feed parseBit (Parse.start, nodes) bits = .dry st := by
  rw [Tree.header_eq_flatten] at hbits
  obtain ⟨k, part, later, hk, hlater, rfl⟩ := exists_take_of_append_eq_flatten hbits hmore
  have hsize : k < t.size := by
    obtain ⟨hlt, -⟩ := List.getElem?_eq_some_iff.1 hk
    simpa using hlt
  have mono : ∀ {i j : Nat}, i ≤ j → (t.nodeBits.take i).flatten <+: (t.nodeBits.take j).flatten := fun hij =>
    (List.take_prefix_take_left hij).flatten
  have legal : ∀ sym : Sym, true :: msbBits 9 sym.toNat ∈ t.nodeBits.take k → sym.toNat ≤ 256 := by
    intro sym h
    by_contra hbad
    obtain ⟨i, hi, hget⟩ := List.mem_take_iff_getElem.1 h
    have hlong := hl i sym.toNat (by omega) sym.isLt (by rw [← hget]; exact List.getElem?_eq_getElem _)
    have := (mono (show i + 1 ≤ k by omega)).length_le
    rw [List.length_append] at hlong
    omega
  rw [List.length_append] at hcap
  by_cases hroom : k < 513
  · obtain ⟨p, nodes', hdry, hf, hn⟩ := feed_nodes_start nodes hsize hroom.le legal
    rw [feed_append_of_dry part hdry]
    exact feed_part_of_node hf (by omega) (List.mem_of_getElem? hk) hlater
  · -- The beginning is no longer than the first 513 nodes, so it is their bits.
    have hpre := mono (Nat.le_of_not_lt hroom)
    have hle := hpre.length_le
    have hpart : part = [] := List.length_eq_zero_iff.1 (by omega)
    obtain ⟨p, nodes', hdry, -⟩ := feed_nodes_start nodes ((Nat.le_of_not_lt hroom).trans_lt hsize) le_rfl
      fun sym h => legal sym ((List.take_prefix_take_left (Nat.le_of_not_lt hroom)).subset h)
    rw [hpart, List.append_nil, ← hpre.eq_of_length_le (by omega)]
    exact ⟨_, hdry⟩

/-- Settles O31: either way the parse is unfinished (`feed_unfinished`), and the port is at End. -/
theorem desDetectsATruncatedHeader : Obligations.DesDetectsATruncatedHeader := by
  rintro s he hio hend (⟨st, hdry⟩ | ⟨T, more, hbits, hmore, hcap, hl⟩)
  · exact desRefuses_truncHeader he hio hend hdry
  · obtain ⟨st, hdry⟩ := feed_unfinished s.nodes hbits hmore hcap hl
    exact desRefuses_truncHeader he hio hend hdry

end Sys2Proof.Machine

namespace Sys2Proof.Machine

/-! ## FLAT's errors and the prefix property (R201, R202, R203) -/

section Flat
variable {draw : Nat} {t : Tree} {s : State} {ct : CodeTable}

/-- Codes that are all written are codes of distinct symbols (R202). -/
theorem nodup_of_writeCodes_table {cs : List (Sym × Bits)} {ct' : CodeTable} (hsym : ∀ c ∈ cs, c.1.toNat ≤ 256)
    (h : writeCodes draw cs ct = .table ct') : (cs.map Prod.fst).Nodup := by
  induction cs generalizing ct with
  | nil => exact List.nodup_nil
  | cons c cs ih =>
    have hsym' : ∀ d ∈ cs, d.1.toNat ≤ 256 := fun d hd => hsym d (List.mem_cons_of_mem c hd)
    simp only [writeCodes] at h
    split at h
    · cases h
    · refine List.nodup_cons.2 ⟨fun hm => ?_, ih hsym' h⟩
      -- The entry just written is valid, so a later code for its symbol would have been refused.
      obtain ⟨d, hd, hdc⟩ := List.mem_map.1 hm
      have hfree := (writeCodes_table hsym' h).1 d hd
      rw [hdc, codeEntry_set _ _ _ _ (Nat.lt_succ_of_le (hsym c List.mem_cons_self)), if_pos rfl] at hfree
      cases hfree

theorem exec_flat_noTree (he : s.err = false) (hv : s.treeValid = false) :
    exec .flat s = .next (errorState 0x40#8 .noTree s) := by
  rw [exec, execFlat, command_runs he rfl, require_fails hv]
  rfl

/-- FLAT on a tree writes all its codes, or meets a symbol a second time (R201, R202). -/
theorem exec_flat_cases (he : s.err = false) (hv : s.treeValid = true) (ht : HoldsTree s.nodes s.root t)
    (hsize : t.size ≤ 513) :
    (∃ ct, writeCodes s.draws t.codes (clearValid s.ct) = .table ct ∧ exec .flat s = .next (complete { s with
        ct := ct
        tableValid := true
        result := s.leafcnt.setWidth 32
        draws := s.draws + 1 })) ∨
      ∃ ct, exec .flat s = .next (errorState 0x40#8 .dupSymbol { s with
        ct := ct
        tableValid := false
        draws := s.draws + 1 }) := by
  cases hw : writeCodes s.draws t.codes (clearValid s.ct) with
  | table ct => exact .inl ⟨ct, rfl, execFlat_table he hv ht hsize hw⟩
  | duplicate =>
    refine .inr ⟨Config.freeTable s.draws, ?_⟩
    rw [exec, execFlat, command_runs he rfl, require_holds hv, flatVisit_root s.draws _ ht hsize, hw]
    rfl
  | broken => exact absurd hw writeCodes_ne_broken

/-- A code of a tree that begins with another code of it leads to the same leaf: a leaf has no descendants (R203). -/
theorem Tree.codes_prefix_eq {a b : Sym} {p q : Bits} (hp : (a, p) ∈ t.codes) (hq : (b, q) ∈ t.codes) (h : p <+: q) :
    a = b := by
  induction t generalizing p q with
  | leaf sym =>
    simp only [Tree.codes, List.mem_singleton, Prod.mk.injEq] at hp hq
    exact hp.1.trans hq.1.symm
  | node l r hl hr =>
    cases p with
    | nil => simp [Tree.codes] at hp
    | cons x p =>
      obtain ⟨rest, rfl⟩ := h
      rw [List.cons_append, Tree.mem_codes_node] at hq
      rw [Tree.mem_codes_node] at hp
      cases x
      · exact hl hp hq (List.prefix_append p rest)
      · exact hr hp hq (List.prefix_append p rest)

/-- A valid entry of a table that holds a tree's codes is the code of a leaf (R39). -/
theorem HoldsCodes.mem_codes {sym : Sym} (h : HoldsCodes ct t) (hv : (codeEntry ct sym).valid = true) :
    (sym, entryCode (codeEntry ct sym)) ∈ t.codes := by
  obtain ⟨hvalid, hcodes⟩ := h
  have hm := (hvalid sym).1 hv
  rw [← t.codes_fst] at hm
  obtain ⟨c, hc, rfl⟩ := List.mem_map.1 hm
  rwa [(hcodes c hc).2]

end Flat

/-- Settles O35: a table could only come of codes for distinct symbols (`nodup_of_writeCodes_table`). -/
theorem flatRefusesDuplicates : Obligations.FlatRefusesDuplicates := by
  refine fun s he => ⟨exec_flat_noTree he, fun t hv ht hsize hl hdup => ?_⟩
  rcases exec_flat_cases he hv ht hsize with ⟨ct, hw, -⟩ | ⟨ct, hexec⟩
  · have hsym : ∀ c ∈ t.codes, c.1.toNat ≤ 256 := fun c hc => hl _ (t.codes_fst ▸ List.mem_map_of_mem hc)
    exact absurd (t.codes_fst ▸ nodup_of_writeCodes_table hsym hw) hdup
  · exact ⟨ct, _, hexec⟩

/-- Settles O36: the table holds the tree's codes, and none of these begins another (`Tree.codes_prefix_eq`). -/
theorem codesArePrefixFree : Obligations.CodesArePrefixFree := by
  intro s u t he hv hT hexec hu a b hne ha hb hpre
  obtain ⟨ht, hsize, hl, -⟩ := hT.bounds
  rcases exec_flat_cases he hv ht hsize with ⟨ct, hw, hflat⟩ | ⟨ct, hflat⟩
  · cases hflat.symm.trans hexec
    have hcodes := (flat_table hsize hl hw).1
    exact hne (Tree.codes_prefix_eq (hcodes.mem_codes ha) (hcodes.mem_codes hb) hpre)
  · cases hflat.symm.trans hexec
    cases hu

/-! ## Reading a code back (R205, R206, R207) -/

/-- Bit j of a field read MSB-first (R10): the inverse of `msbBits_getElem?`. -/
theorem bitsValue_testBit {bs : Bits} {j : Nat} (h : j < bs.length) :
    (bitsValue bs).testBit (bs.length - 1 - j) = bs[j] := by
  have hbit := msbBits_getElem? (v := bitsValue bs) h
  rw [msbBits_bitsValue, List.getElem?_eq_getElem h, Option.some_inj] at hbit
  exact hbit.symm

/-- Code bit `32k + j` is bit `31 - j` of word k (R206, R207). -/
theorem codeWord_getLsbD (e : CodeEntry) (k : Nat) {j : Nat} (h : j < 32) :
    (codeWord e k).getLsbD (31 - j) = codeBit e (32 * k + j) := by
  have hbit := bitsValue_testBit (bs := (List.range 32).map fun j => codeBit e (32 * k + j)) (j := j) (by simpa using h)
  simp only [List.length_map, List.length_range, List.getElem_map, List.getElem_range] at hbit
  have hlt : 31 - j < 32 := by omega
  rw [codeWord, BitVec.getLsbD_ofNat, decide_eq_true hlt, Bool.true_and]
  exact hbit

/-- Settles O38: p is `32 * (p / 32) + p % 32`. -/
theorem cwordPacksMsbFirst : Obligations.CwordPacksMsbFirst := by
  intro e p _
  rw [codeWord_getLsbD e _ (Nat.mod_lt p (by decide)), Nat.div_add_mod, codeBit]
  by_cases hp : p < e.len.toNat
  · rw [decide_eq_true hp, Bool.true_and, if_pos hp]
  · rw [decide_eq_false hp, Bool.false_and, if_neg hp]

section RequireCode
variable {op : Opcode} {sym : Sym} {body : CodeEntry → State → Result} {s : State}

theorem requireCode_holds (ht : s.tableValid = true) (hc : (codeEntry s.ct sym).valid = true) :
    requireCode op sym body s = body (codeEntry s.ct sym) s := by
  rw [requireCode, require_holds ht, require_holds hc]

theorem requireCode_noTable (ht : s.tableValid = false) : requireCode op sym body s = .next (errorState op .noTable s) := by
  rw [requireCode, require_fails ht]

theorem requireCode_noCode (ht : s.tableValid = true) (hc : (codeEntry s.ct sym).valid = false) :
    requireCode op sym body s = .next (errorState op .noCode s) := by
  rw [requireCode, require_holds ht, require_fails hc]

end RequireCode

/-- Settles O37: both commands are their body under the preconditions of `requireCode`, one lemma for each outcome of these. -/
theorem clenAndCwordRead : Obligations.ClenAndCwordRead := by
  intro s sym k he hs
  have hok : symbolOk sym = true := symbolOk_iff.2 hs
  rw [exec, exec, execClen, execCword, command_runs (i := .clen sym) he hok, command_runs (i := .cword sym k) he hok]
  refine ⟨fun ht hc => ?_, fun ht => ?_, fun ht hc => ?_⟩
  · exact ⟨requireCode_holds ht hc, requireCode_holds ht hc⟩
  · exact ⟨requireCode_noTable ht, requireCode_noTable ht⟩
  · exact ⟨requireCode_noCode ht hc, requireCode_noCode ht hc⟩

end Sys2Proof.Machine

namespace Sys2Proof.Machine

/-- Settles O39: ENC is its body under the preconditions of `requireCode`; met, these leave `encGive`, and a port that takes
the code accepts it whole (`emit_all`). -/
theorem encGivesTheCode : Obligations.EncGivesTheCode := by
  intro s sym he hs
  rw [exec, execEnc, command_runs (i := .enc sym) he (symbolOk_iff.2 hs)]
  refine ⟨fun ht hc hout => ?_, fun ht => requireCode_noTable ht, fun ht hc => requireCode_noCode ht hc⟩
  obtain ⟨hio, hroom⟩ := hout
  rw [requireCode_holds ht hc, encGive, emit_all hio hroom, completeWith]

end Sys2Proof.Machine

/-! ## The streaming decoder (R241, R242, R243) -/

namespace Sys2Proof.Machine

section Decoder

variable {s : State} {T tl tr : Tree} {sym : Sym} {p rest : Bits}

/-- The walk from an internal node takes exactly the code of a leaf and stops there (R243). -/
theorem feed_walkBit_code {n : NodeStore} {c : NodeIdx} (h : HoldsTree n c (.node tl tr))
    (hm : (sym, p) ∈ (Tree.node tl tr).codes) : feed (walkBit n) c (p ++ rest) = .done (some sym) rest := by
  induction p generalizing c tl tr with
  | nil => simp [Tree.codes] at hm
  | cons b p ih =>
    obtain ⟨l, r, wt, hnode, hl, hr⟩ := holdsTree_node.1 h
    have hchild := holdsTree_branchTo hl hr b
    rw [Tree.mem_codes_node] at hm
    generalize (if b then tr else tl) = child at hchild hm
    cases child with
    | leaf sym' =>
      obtain ⟨w, hleaf⟩ := holdsTree_leaf.1 hchild
      obtain ⟨rfl, rfl⟩ : sym = sym' ∧ p = [] := by simpa [Tree.codes] using hm
      simp [feed, walkBit, hnode, hleaf]
    | node cl cr =>
      obtain ⟨l', r', w, hinner, -, -⟩ := holdsTree_node.1 hchild
      have hstep : feed (walkBit n) c (b :: p ++ rest) = feed (walkBit n) (branchTo b l r) (p ++ rest) := by
        simp [feed, walkBit, hnode, hinner]
      rw [hstep, ih hchild hm]

theorem exec_dsym (he : s.err = false) (ha : s.decActive = true) : exec .dsym s = dsymWalk s := by
  rw [exec, execDsym, command_runs he rfl, require_holds ha]

theorem dsymWalk_leaf (hT : HoldsTree s.nodes s.cursor (.leaf sym)) : dsymWalk s = dsymFinish sym s := by
  obtain ⟨wt, hnode⟩ := holdsTree_leaf.1 hT
  rw [dsymWalk, withNode_some hnode]

theorem dsymWalk_code (hT : HoldsTree s.nodes s.cursor (.node tl tr)) (hm : (sym, p) ∈ (Tree.node tl tr).codes)
    (hg : InputGives s p rest) : dsymWalk s = dsymFinish sym (taken p.length rest s) := by
  obtain ⟨l, r, wt, hnode, -, -⟩ := holdsTree_node.1 hT
  obtain ⟨hio, hbits⟩ := hg
  rw [dsymWalk, withNode_some hnode]
  simp only [takeBits_done hio hbits (feed_walkBit_code hT hm)]

/-- An armed decoder stays armed except after EOS (R242). -/
theorem dsymFinish_armed (ha : s.decActive = true) : dsymFinish sym s = .next (complete { s with
    result := sym.setWidth 32
    cursor := s.root
    decActive := decide (sym ≠ 256#9)
    decDone := if sym = 256#9 then true else s.decDone }) := by
  have hact : (if sym = Config.eos then false else s.decActive) = decide (sym ≠ 256#9) := by
    by_cases h : sym = 256#9 <;> simp [Config.eos, h, ha]
  rw [dsymFinish, completeWith, hact]
  rfl

/-- Taking no bit leaves the port and INCNT as they are. -/
theorem taken_none (hg : InputGives s [] rest) : taken 0 rest s = s := by
  obtain ⟨-, hbits⟩ := hg
  rw [List.nil_append] at hbits
  simp [taken, ← hbits]

/-- A walk from an internal node that meets End before a leaf fails with every bit taken (R243). -/
theorem dsymWalk_truncated (hT : HoldsTree s.nodes s.cursor (.node tl tr)) (hio : s.inp.ioErr = false)
    (hend : s.inp.ended = true) (hno : ∀ c ∈ (Tree.node tl tr).codes, ¬c.2 <+: s.inp.bits) :
    dsymWalk s = dsymFail .truncPayload (taken s.inp.bits.length [] s) := by
  obtain ⟨l, r, wt, hnode, -, -⟩ := holdsTree_node.1 hT
  rcases feed_walkBit hT s.inp.bits with ⟨sym, used, rest, hbits, hm, -⟩ | ⟨c, l', r', hdry, -, -⟩
  · exact absurd ⟨rest, hbits.symm⟩ (hno _ hm)
  · exact dsymWalk_of_ended hnode (takeBits_ended hio hend hdry)

end Decoder

/-- Settles O43: a lone leaf has the empty code and is met before any bit (`dsymWalk_leaf`); on any other tree the walk takes the
code whole (`dsymWalk_code`). -/
theorem dsymDecodesACode : Obligations.DsymDecodesACode := by
  intro s T he
  refine ⟨fun ha => ?_, fun ha hT ⟨sym, p⟩ hm => ?_⟩
  · rw [exec, execDsym, command_runs he rfl, require_fails ha]
    rfl
  rw [exec_dsym he ha]
  cases T with
  | leaf sym' =>
    obtain ⟨rfl, rfl⟩ : sym = sym' ∧ p = [] := by simpa [Tree.codes] using hm
    rw [dsymWalk_leaf hT, dsymFinish_armed ha]
    refine ⟨fun rest hg => ?_, fun _ => rfl⟩
    rw [List.length_nil, taken_none hg]
  | node tl tr =>
    refine ⟨fun rest hg => ?_, ?_⟩
    · rw [dsymWalk_code hT hm hg, dsymFinish_armed (s := taken _ rest s) ha]
      rfl
    · rintro rfl
      simp [Tree.codes] at hm

/-- Settles O44: the empty code of a lone leaf begins any bits, so the tree has an internal root (`dsymWalk_truncated`). -/
theorem dsymDetectsATruncatedPayload : Obligations.DsymDetectsATruncatedPayload := by
  intro s T he ha hT hio hend hno
  rw [exec_dsym he ha]
  cases T with
  | leaf sym => exact absurd List.nil_prefix (hno (sym, []) (by simp [Tree.codes]))
  | node tl tr =>
    rw [dsymWalk_truncated hT hio hend hno]
    exact ⟨_, _, rfl⟩

/-- Settles O42: with a tree, DSTART is its check of the root node, which holds of an internal root and of the leaf of EOS. -/
theorem dstartArmsTheDecoder : Obligations.DstartArmsTheDecoder := by
  refine fun s nd he => ⟨fun hv => ?_, fun hv hnd => ?_⟩
  · rw [exec, execDstart, command_runs he rfl, require_fails hv]
    rfl
  rw [exec, execDstart, command_runs he rfl, require_holds hv, withNode_some hnd]
  refine ⟨fun heos => require_holds ?_, fun sym wt hleaf hne => ?_⟩
  · cases nd with
    | leaf sym wt => exact beq_iff_eq.2 (heos sym wt rfl)
    | internal l r wt => rfl
  · subst hleaf
    exact require_fails (beq_eq_false_iff_ne.2 hne)

end Sys2Proof.Machine

/-! ## Control and inspection (R260 to R265) -/
namespace Sys2Proof.Machine

/-! ### NOP and RESET -/

theorem accept_ok {w : Word} {i : Instr} (s : State) (h : decode w = .ok i) : accept w s = exec i (begun s) := by
  rw [accept, h]

/-- The block after a reset keeps nothing of BUSY (R43, R343). -/
theorem resetBlock_begun (s : State) : resetBlock (begun s) = resetBlock s := rfl

/-- RESET is executed whatever ERR is (R305, R309). -/
theorem exec_reset (s : State) : exec .reset s = .next (resetBlock s) := rfl

theorem accept_reset (s : State) : accept 0x01000000#32 s = .next (resetBlock s) := by
  have hdec : decode 0x01000000#32 = .ok .reset := decodeInvertsEncode .reset rfl
  rw [accept_ok s hdec, exec_reset, resetBlock_begun]

theorem statusWord_resetBlock (s : State) : statusWord (resetBlock s) = 0#32 := by
  simp [statusWord, statusFlags]

/-- Settles O9: the three ways to reset are `resetBlock`, whose fields are the reset values. -/
theorem resetRestoresTheResetValues : Obligations.ResetRestoresTheResetValues := by
  intro s
  refine ⟨resetBlock s, exec_reset s, rfl, accept_reset s, fun j => ?_, ?_⟩
  · rw [resetBlock_w, weight_zero]
  · simp [statusWord_resetBlock]

/-- Settles O10: with ERR = 1 NOP is ignored, with ERR = 0 its body is the end of the command. -/
theorem nopChangesNothing : Obligations.NopChangesNothing := by
  refine ⟨decodeInvertsEncode .nop rfl, fun s => ?_⟩
  rw [exec, execNop]
  cases he : s.err
  · exact command_runs he rfl
  · exact command_ignored he

/-! ### NGET, NWLO and NWHI -/

section InspectNode
variable {op : Opcode} {x : NodeIdx} {body : Node → State → Result} {s : State} {nd : Node}

theorem inspectNode_holds (ht : s.treeValid = true) (hx : x.toNat < s.nodecnt.toNat) (hnd : nodeAt s.nodes x = some nd) :
    inspectNode op x body s = body nd s := by
  rw [inspectNode, require_holds ht, require_holds (decide_eq_true hx), withNode_some hnd]

theorem inspectNode_noTree (ht : s.treeValid = false) : inspectNode op x body s = .next (errorState op .noTree s) := by
  rw [inspectNode, require_fails ht]

theorem inspectNode_badIndex (ht : s.treeValid = true) (hx : s.nodecnt.toNat ≤ x.toNat) :
    inspectNode op x body s = .next (errorState op .badIndex s) := by
  rw [inspectNode, require_holds ht, require_fails (decide_eq_false (Nat.not_lt.2 hx))]

end InspectNode

/-- Settles O46: the three commands are their body under the preconditions of `inspectNode`, one lemma for each outcome of
these. -/
theorem inspectionReadsNodes : Obligations.InspectionReadsNodes := by
  intro s x nd he
  simp only [exec]
  rw [execNget, execNwlo, execNwhi, command_runs (i := .nget x) he rfl, command_runs (i := .nwlo x) he rfl,
    command_runs (i := .nwhi x) he rfl]
  refine ⟨fun ht hx hnd => ?_, fun ht => ?_, fun ht hx => ?_⟩
  · exact ⟨inspectNode_holds ht hx hnd, inspectNode_holds ht hx hnd, inspectNode_holds ht hx hnd⟩
  · exact ⟨inspectNode_noTree ht, inspectNode_noTree ht, inspectNode_noTree ht⟩
  · exact ⟨inspectNode_badIndex ht hx, inspectNode_badIndex ht hx, inspectNode_badIndex ht hx⟩

/-! ### The packing of a node (R265) -/

theorem packNode_leaf_eq_or (sym : Sym) (wt : Weight) : packNode (.leaf sym wt) = 0x80000000#32 ||| sym.setWidth 32 :=
  calc packNode (.leaf sym wt) = (0x400000#23 ++ sym).setWidth 32 := (BitVec.setWidth_eq _).symm
    _ = (0x400000#23).setWidth 32 <<< 9 ||| sym.setWidth 32 := BitVec.setWidth_append_eq_shiftLeft_setWidth_or
    _ = 0x80000000#32 ||| sym.setWidth 32 := rfl

theorem packNode_internal_eq_or (l r : NodeIdx) (wt : Weight) :
    packNode (.internal l r wt) = l.setWidth 32 <<< 20 ||| r.setWidth 32 <<< 10 :=
  calc packNode (.internal l r wt) = (0#2 ++ l ++ r ++ 0#10).setWidth 32 := (BitVec.setWidth_eq _).symm
    _ = (0#2).setWidth 32 <<< 30 ||| l.setWidth 32 <<< 20 ||| r.setWidth 32 <<< 10 ||| (0#10).setWidth 32 :=
      BitVec.setWidth_append_append_append_eq_shiftLeft_setWidth_or
    _ = l.setWidth 32 <<< 20 ||| r.setWidth 32 <<< 10 := by simp

/-- Each field of an internal node's packing stands above the fields that were appended after it. -/
theorem packNode_internal_fields (l r : NodeIdx) (wt : Weight) : (packNode (.internal l r wt)).extractLsb' 30 2 = 0#2 ∧
    (packNode (.internal l r wt)).extractLsb' 20 10 = l ∧ (packNode (.internal l r wt)).extractLsb' 10 10 = r ∧
    (packNode (.internal l r wt)).extractLsb' 0 10 = 0#10 := by
  rw [packNode]
  refine ⟨?_, ?_, ?_, BitVec.extractLsb'_append_eq_right⟩
  · rw [BitVec.extractLsb'_append_eq_of_le (by decide), BitVec.extractLsb'_append_eq_of_le (by decide)]
    exact BitVec.extractLsb'_append_eq_left
  · rw [BitVec.extractLsb'_append_eq_of_le (by decide), BitVec.extractLsb'_append_eq_of_le (by decide)]
    exact BitVec.extractLsb'_append_eq_right
  · rw [BitVec.extractLsb'_append_eq_of_le (by decide)]
    exact BitVec.extractLsb'_append_eq_right

/-- Settles O47: each packing as the disjunction R265 writes, and its fields read back. -/
theorem nodesArePacked : Obligations.NodesArePacked :=
  ⟨fun sym wt => ⟨packNode_leaf_eq_or sym wt, BitVec.extractLsb'_append_eq_right, BitVec.extractLsb'_append_eq_left⟩,
    fun l r wt => ⟨packNode_internal_eq_or l r wt, packNode_internal_fields l r wt⟩⟩

end Sys2Proof.Machine

/-! ## Words taken while ERR = 1 (R305) -/

namespace Sys2Proof.Machine

/-- Only the RESET word decodes to RESET (R104, R261). -/
theorem decode_reset {w : Word} (h : decode w = .ok .reset) : w = 0x01000000#32 :=
  (encodeInvertsDecode w .reset h).1.symm

/-- Settles O7: a word without a command is ignored (O6), and so is every command but RESET (`exec_ignored`), which no other
word decodes to. -/
theorem wordsAreIgnoredWhileErr : Obligations.WordsAreIgnoredWhileErr := by
  intro w s he hw
  cases h : decode w with
  | error e => exact (illegalWordRaisesIllegalCmd w e s h).2 he
  | ok i =>
    have hi : i ≠ .reset := fun hreset => hw (decode_reset (hreset ▸ h))
    rw [accept_ok s h, exec_ignored (s := begun s) hi he, complete_begun]

end Sys2Proof.Machine
